-- ==== Sys2Proof/Word.lean ====
section
/-! DEFINITION. The machine word (`00_scope.md` R6, R8): 32 bits, the width of every register, every
memory cell, every address and every instruction. -/

namespace Sys2Proof

/-- A word, an element of `0 .. 2^32 - 1` (`00_scope.md` R8). -/
abbrev Word := BitVec 32

end Sys2Proof
end

