-- ==== Sys2Proof/Config.lean ====
section
/-! DEFINITION. The parameters of the step relation (`00_scope.md` R2, R6; `10_state.md` R44) as plain data, and
the one value the environment supplies: what a read of the OS I/O window returns. -/

namespace Sys2Proof

/-- `VARIANT` (`00_scope.md` R2): fixed when a core is built, changed by no instruction. -/
inductive Variant where
  /-- ReTI-TI: four registers, separate code and data regions. -/
  | ti
  /-- ReTI-OS: nine registers, one address space, `INT` and `RTI`. -/
  | os
deriving DecidableEq, Repr

/-- The addresses `base .. base + len - 1`: a range by which a configuration widens the OS `ValidPC`
(`10_state.md` R40, `20_memory.md` R67 and R73). -/
structure PcRange where
  base : Word
  len : Nat
deriving DecidableEq, Repr

/-- The construction-time parameters of `00_scope.md` R6. The fields from `isrCode` on, but for `initData` and
`commentChar`, are read in the OS variant only. -/
structure Config where
  /-- `VARIANT`. -/
  variant : Variant
  /-- `CODE`: the words of the main program; `N_MAIN` is its length. -/
  code : List Word
  /-- `ISR_CODE` (OS): the words of the interrupt-service routine; `N_ISR` is its length. -/
  isrCode : List Word
  /-- `CODE_BASE` (OS): the ROM address of the first program word. -/
  codeBase : Word
  /-- `DS_RESET` (OS). -/
  dsReset : Word
  /-- `SP_RESET` (OS). -/
  spReset : Word
  /-- `BAF_RESET` (OS). -/
  bafReset : Word
  /-- `INIT_DATA`: the initial data segment. -/
  initData : List Word
  /-- `IVT` (OS): the entries that differ from the default `CODE_BASE + N_MAIN`, as (vector number, address).
  DESIGN CHOICE (log 8): a total function on `0 .. 2^22 - 1` is written as its finite list of exceptions. -/
  ivt : List (Nat × Word)
  /-- Ranges added to the OS `ValidPC`; empty in the default predicate. DESIGN CHOICE (log 9). -/
  widenedPC : List PcRange
  /-- `COMMENT_CHAR`: the comment delimiter of the text form. -/
  commentChar : Char
deriving DecidableEq, Repr

/-- The parameters at their defaults (`00_scope.md` R6) for a variant, with no program loaded. -/
def Config.default (v : Variant) : Config where
  variant := v
  code := []
  isrCode := []
  codeBase := 0x00000000#32
  dsReset := 0x80000000#32
  spReset := 0x00000000#32
  bafReset := 0x00000000#32
  initData := []
  ivt := []
  widenedPC := []
  commentChar := ';'

/-- The variant of the core that `State.reset` is. DESIGN CHOICE (log 1): a core is of one variant, fixed when it is
built, and the host's `State.reset` is one core; the model takes OS, the extended instruction set. -/
def Config.resetVariant : Variant := .os

/-- `UartRead` (`00_scope.md` R6): the value of the n-th read of the I/O window that no supplied input answers. A free
value (`93_implementation_defined.md` U14, log 5): it has no body, so nothing can be proved of it. -/
opaque Config.uartRead : Nat → Word

end Sys2Proof
end

