-- ==== Sys2Proof/Syntax.lean ====
section
/-! DEFINITION. The abstract syntax: register names, the functions of COMPUTE, the reserved encodings, and one
constructor of `Instr` for each row of `spec/opcode_table.json` (26 rows of the TI variant, 40 of the OS variant). -/

namespace Sys2Proof

/-- A register an instruction can name (`10_state.md` R21, R22). The TI variant has the first four. Register `I`
(number 8) is not here: no instruction can name it (`10_state.md` R23, `30_encoding.md` R95). -/
inductive Reg where
  /-- 0, the program counter. -/
  | pc
  /-- 1, index register 1. -/
  | in1
  /-- 2, index register 2. -/
  | in2
  /-- 3, the accumulator. -/
  | acc
  /-- 4 (OS), stack pointer by name. -/
  | sp
  /-- 5 (OS), frame base by name. -/
  | baf
  /-- 6 (OS), code-segment base by name. -/
  | cs
  /-- 7 (OS), data-segment base. -/
  | ds
deriving DecidableEq, Repr

/-- The function of a COMPUTE instruction (`40_compute.md` R153). -/
inductive AluFn where
  | sub | add | xnor | or | and | mul | div | mod
deriving DecidableEq, Repr

/-- The reserved encodings, one name for each row of the table of `30_encoding.md` R104: what the decoder answers for a
word that is not an instruction of its variant. -/
inductive Reserved where
  /-- TI COMPUTE with `F = 000`. -/
  | tiComputeF000
  /-- TI COMPUTE with `F = 001`. -/
  | tiComputeF001
  /-- TI COMPUTE with `F = 111`. -/
  | tiComputeF111
  /-- OS COMPUTE with `w[29:28] = 11`. -/
  | osComputeKind11
  /-- OS LOAD with `M = 10`. -/
  | osLoadMode10
  /-- OS STORE with `M = 10`. -/
  | osStoreMode10
  /-- OS JUMP class with `J = 11`. -/
  | osJumpJ11
deriving DecidableEq, Repr

/-- An instruction: the decoded record of `30_encoding.md` R107 (TI) and R108 (OS). Operands stand in the order of the
text form (R115, R116). Constructors `ti…` are the TI variant's, `os…` the OS variant's; the OS COMPUTE functions have a
memory form (`osAdd d i`) and a register form (`osAddReg d s`). The operand field `i` has 24 bits in TI and 22 in OS. -/
inductive Instr where
  /-- `SUBI D i` (TI, R161). -/
  | tiSubi (d : Reg) (i : BitVec 24)
  /-- `ADDI D i` (TI, R162). -/
  | tiAddi (d : Reg) (i : BitVec 24)
  /-- `XNORI D i` (TI, R163). -/
  | tiXnori (d : Reg) (i : BitVec 24)
  /-- `ORI D i` (TI, R164). -/
  | tiOri (d : Reg) (i : BitVec 24)
  /-- `ANDI D i` (TI, R165). -/
  | tiAndi (d : Reg) (i : BitVec 24)
  /-- `SUB D i` (TI, R166). -/
  | tiSub (d : Reg) (i : BitVec 24)
  /-- `ADD D i` (TI, R167). -/
  | tiAdd (d : Reg) (i : BitVec 24)
  /-- `XNOR D i` (TI, R168). -/
  | tiXnor (d : Reg) (i : BitVec 24)
  /-- `OR D i` (TI, R169). -/
  | tiOr (d : Reg) (i : BitVec 24)
  /-- `AND D i` (TI, R170). -/
  | tiAnd (d : Reg) (i : BitVec 24)
  /-- `LOAD D i` (TI, R201). -/
  | tiLoad (d : Reg) (i : BitVec 24)
  /-- `LOADIN1 D i` (TI, R202). -/
  | tiLoadin1 (d : Reg) (i : BitVec 24)
  /-- `LOADIN2 D i` (TI, R203). -/
  | tiLoadin2 (d : Reg) (i : BitVec 24)
  /-- `LOADI D i` (TI, R205). -/
  | tiLoadi (d : Reg) (i : BitVec 24)
  /-- `STORE i` (TI, R221). -/
  | tiStore (i : BitVec 24)
  /-- `STOREIN1 i` (TI, R222). -/
  | tiStorein1 (i : BitVec 24)
  /-- `STOREIN2 i` (TI, R223). -/
  | tiStorein2 (i : BitVec 24)
  /-- `MOVE S D` (TI, R226). -/
  | tiMove (s : Reg) (d : Reg)
  /-- `NOP` (TI, R242). -/
  | tiNop
  /-- `JUMP> i` (TI, R243). -/
  | tiJumpGt (i : BitVec 24)
  /-- `JUMP= i` (TI, R244). -/
  | tiJumpEq (i : BitVec 24)
  /-- `JUMP>= i` (TI, R245). -/
  | tiJumpGe (i : BitVec 24)
  /-- `JUMP< i` (TI, R246). -/
  | tiJumpLt (i : BitVec 24)
  /-- `JUMP!= i` (TI, R247). -/
  | tiJumpNe (i : BitVec 24)
  /-- `JUMP<= i` (TI, R248). -/
  | tiJumpLe (i : BitVec 24)
  /-- `JUMP i` (TI, R249). -/
  | tiJump (i : BitVec 24)
  /-- `MULI D i` (OS, R171). -/
  | osMuli (d : Reg) (i : BitVec 22)
  /-- `DIVI D i` (OS, R172). -/
  | osDivi (d : Reg) (i : BitVec 22)
  /-- `SUBI D i` (OS, R161). -/
  | osSubi (d : Reg) (i : BitVec 22)
  /-- `ADDI D i` (OS, R162). -/
  | osAddi (d : Reg) (i : BitVec 22)
  /-- `XNORI D i` (OS, R163). -/
  | osXnori (d : Reg) (i : BitVec 22)
  /-- `ORI D i` (OS, R164). -/
  | osOri (d : Reg) (i : BitVec 22)
  /-- `ANDI D i` (OS, R165). -/
  | osAndi (d : Reg) (i : BitVec 22)
  /-- `MODI D i` (OS, R173). -/
  | osModi (d : Reg) (i : BitVec 22)
  /-- `MUL D i` (OS, R174). -/
  | osMul (d : Reg) (i : BitVec 22)
  /-- `DIV D i` (OS, R175). -/
  | osDiv (d : Reg) (i : BitVec 22)
  /-- `SUB D i` (OS, R166). -/
  | osSub (d : Reg) (i : BitVec 22)
  /-- `ADD D i` (OS, R167). -/
  | osAdd (d : Reg) (i : BitVec 22)
  /-- `XNOR D i` (OS, R168). -/
  | osXnor (d : Reg) (i : BitVec 22)
  /-- `OR D i` (OS, R169). -/
  | osOr (d : Reg) (i : BitVec 22)
  /-- `AND D i` (OS, R170). -/
  | osAnd (d : Reg) (i : BitVec 22)
  /-- `MOD D i` (OS, R176). -/
  | osMod (d : Reg) (i : BitVec 22)
  /-- `MUL D S` (OS, R182). -/
  | osMulReg (d : Reg) (s : Reg)
  /-- `DIV D S` (OS, R183). -/
  | osDivReg (d : Reg) (s : Reg)
  /-- `SUB D S` (OS, R177). -/
  | osSubReg (d : Reg) (s : Reg)
  /-- `ADD D S` (OS, R178). -/
  | osAddReg (d : Reg) (s : Reg)
  /-- `XNOR D S` (OS, R179). -/
  | osXnorReg (d : Reg) (s : Reg)
  /-- `OR D S` (OS, R180). -/
  | osOrReg (d : Reg) (s : Reg)
  /-- `AND D S` (OS, R181). -/
  | osAndReg (d : Reg) (s : Reg)
  /-- `MOD D S` (OS, R184). -/
  | osModReg (d : Reg) (s : Reg)
  /-- `LOAD D i` (OS, R201). -/
  | osLoad (d : Reg) (i : BitVec 22)
  /-- `LOADIN S D i` (OS, R204). -/
  | osLoadin (s : Reg) (d : Reg) (i : BitVec 22)
  /-- `LOADI D i` (OS, R205). -/
  | osLoadi (d : Reg) (i : BitVec 22)
  /-- `STORE S i` (OS, R224). -/
  | osStore (s : Reg) (i : BitVec 22)
  /-- `STOREIN D S i` (OS, R225). -/
  | osStorein (d : Reg) (s : Reg) (i : BitVec 22)
  /-- `MOVE S D` (OS, R227). -/
  | osMove (s : Reg) (d : Reg)
  /-- `NOP` (OS, R242). -/
  | osNop
  /-- `JUMP> i` (OS, R243). -/
  | osJumpGt (i : BitVec 22)
  /-- `JUMP= i` (OS, R244). -/
  | osJumpEq (i : BitVec 22)
  /-- `JUMP>= i` (OS, R245). -/
  | osJumpGe (i : BitVec 22)
  /-- `JUMP< i` (OS, R246). -/
  | osJumpLt (i : BitVec 22)
  /-- `JUMP!= i` (OS, R247). -/
  | osJumpNe (i : BitVec 22)
  /-- `JUMP<= i` (OS, R248). -/
  | osJumpLe (i : BitVec 22)
  /-- `JUMP i` (OS, R249). -/
  | osJump (i : BitVec 22)
  /-- `INT i` (OS, R261). -/
  | osInt (i : BitVec 22)
  /-- `RTI` (OS, R262). -/
  | osRti
deriving DecidableEq, Repr

/-- The variant an instruction belongs to (`30_encoding.md` R91: the same word can mean different instructions in
TI and in OS). -/
def Instr.variant : Instr → Variant
  | .tiSubi _ _ => .ti
  | .tiAddi _ _ => .ti
  | .tiXnori _ _ => .ti
  | .tiOri _ _ => .ti
  | .tiAndi _ _ => .ti
  | .tiSub _ _ => .ti
  | .tiAdd _ _ => .ti
  | .tiXnor _ _ => .ti
  | .tiOr _ _ => .ti
  | .tiAnd _ _ => .ti
  | .tiLoad _ _ => .ti
  | .tiLoadin1 _ _ => .ti
  | .tiLoadin2 _ _ => .ti
  | .tiLoadi _ _ => .ti
  | .tiStore _ => .ti
  | .tiStorein1 _ => .ti
  | .tiStorein2 _ => .ti
  | .tiMove _ _ => .ti
  | .tiNop => .ti
  | .tiJumpGt _ => .ti
  | .tiJumpEq _ => .ti
  | .tiJumpGe _ => .ti
  | .tiJumpLt _ => .ti
  | .tiJumpNe _ => .ti
  | .tiJumpLe _ => .ti
  | .tiJump _ => .ti
  | .osMuli _ _ => .os
  | .osDivi _ _ => .os
  | .osSubi _ _ => .os
  | .osAddi _ _ => .os
  | .osXnori _ _ => .os
  | .osOri _ _ => .os
  | .osAndi _ _ => .os
  | .osModi _ _ => .os
  | .osMul _ _ => .os
  | .osDiv _ _ => .os
  | .osSub _ _ => .os
  | .osAdd _ _ => .os
  | .osXnor _ _ => .os
  | .osOr _ _ => .os
  | .osAnd _ _ => .os
  | .osMod _ _ => .os
  | .osMulReg _ _ => .os
  | .osDivReg _ _ => .os
  | .osSubReg _ _ => .os
  | .osAddReg _ _ => .os
  | .osXnorReg _ _ => .os
  | .osOrReg _ _ => .os
  | .osAndReg _ _ => .os
  | .osModReg _ _ => .os
  | .osLoad _ _ => .os
  | .osLoadin _ _ _ => .os
  | .osLoadi _ _ => .os
  | .osStore _ _ => .os
  | .osStorein _ _ _ => .os
  | .osMove _ _ => .os
  | .osNop => .os
  | .osJumpGt _ => .os
  | .osJumpEq _ => .os
  | .osJumpGe _ => .os
  | .osJumpLt _ => .os
  | .osJumpNe _ => .os
  | .osJumpLe _ => .os
  | .osJump _ => .os
  | .osInt _ => .os
  | .osRti => .os

/-- The registers an instruction names, in text order. -/
def Instr.regs : Instr → List Reg
  | .tiSubi d _ => [d]
  | .tiAddi d _ => [d]
  | .tiXnori d _ => [d]
  | .tiOri d _ => [d]
  | .tiAndi d _ => [d]
  | .tiSub d _ => [d]
  | .tiAdd d _ => [d]
  | .tiXnor d _ => [d]
  | .tiOr d _ => [d]
  | .tiAnd d _ => [d]
  | .tiLoad d _ => [d]
  | .tiLoadin1 d _ => [d]
  | .tiLoadin2 d _ => [d]
  | .tiLoadi d _ => [d]
  | .tiStore _ => []
  | .tiStorein1 _ => []
  | .tiStorein2 _ => []
  | .tiMove s d => [s, d]
  | .tiNop => []
  | .tiJumpGt _ => []
  | .tiJumpEq _ => []
  | .tiJumpGe _ => []
  | .tiJumpLt _ => []
  | .tiJumpNe _ => []
  | .tiJumpLe _ => []
  | .tiJump _ => []
  | .osMuli d _ => [d]
  | .osDivi d _ => [d]
  | .osSubi d _ => [d]
  | .osAddi d _ => [d]
  | .osXnori d _ => [d]
  | .osOri d _ => [d]
  | .osAndi d _ => [d]
  | .osModi d _ => [d]
  | .osMul d _ => [d]
  | .osDiv d _ => [d]
  | .osSub d _ => [d]
  | .osAdd d _ => [d]
  | .osXnor d _ => [d]
  | .osOr d _ => [d]
  | .osAnd d _ => [d]
  | .osMod d _ => [d]
  | .osMulReg d s => [d, s]
  | .osDivReg d s => [d, s]
  | .osSubReg d s => [d, s]
  | .osAddReg d s => [d, s]
  | .osXnorReg d s => [d, s]
  | .osOrReg d s => [d, s]
  | .osAndReg d s => [d, s]
  | .osModReg d s => [d, s]
  | .osLoad d _ => [d]
  | .osLoadin s d _ => [s, d]
  | .osLoadi d _ => [d]
  | .osStore s _ => [s]
  | .osStorein d s _ => [d, s]
  | .osMove s d => [s, d]
  | .osNop => []
  | .osJumpGt _ => []
  | .osJumpEq _ => []
  | .osJumpGe _ => []
  | .osJumpLt _ => []
  | .osJumpNe _ => []
  | .osJumpLe _ => []
  | .osJump _ => []
  | .osInt _ => []
  | .osRti => []

end Sys2Proof
end

