-- ==== Sys2Proof/WellFormed.lean ====
section
/-! DEFINITION. When a term of `Instr` is an instruction of a variant. The types already bound every operand field, so
what is left is that a TI instruction names TI registers only, and that the instruction is of the variant asked for. -/

namespace Sys2Proof

/-- The registers a variant has (`10_state.md` R21, `30_encoding.md` R113): so `SP` is a bad register in TI. -/
def Reg.inVariant : Variant → Reg → Bool
  | .os, _ => true
  | .ti, .pc => true
  | .ti, .in1 => true
  | .ti, .in2 => true
  | .ti, .acc => true
  | .ti, .sp => false
  | .ti, .baf => false
  | .ti, .cs => false
  | .ti, .ds => false

/-- Every register the instruction names is one its variant has. -/
def Instr.wellFormed (i : Instr) : Bool :=
  i.regs.all (Reg.inVariant i.variant)

/-- The instruction is a well-formed instruction of the variant `v`: no mnemonic of the other variant is known to a
codec (`30_encoding.md` R115, R116). -/
def Instr.wellFormedIn (v : Variant) (i : Instr) : Bool :=
  decide (i.variant = v) && i.wellFormed

end Sys2Proof
end

