-- ==== Sys2Proof/Decode.lean ====
section
/-! DEFINITION. The decoder of both variants (`30_encoding.md` R107, R108), the encoder (R92, R93, R98 to R103), the
opcode table, the unused bits of each instruction (R96) and the canonical word (R97). -/

namespace Sys2Proof

/-- `w[lo + len - 1 : lo]` (`00_scope.md` R7): the `len` bits of `w` from bit `lo` up. -/
def slice (w : Word) (lo len : Nat) : BitVec len :=
  w.extractLsb' lo len

/-- The register a 2-bit TI field names (`10_state.md` R22): every value names one. -/
def Reg.ofCode2 (c : BitVec 2) : Reg :=
  match c with
  | 0b00#2 => .pc
  | 0b01#2 => .in1
  | 0b10#2 => .in2
  | _ => .acc

/-- The register a 3-bit OS field names (`10_state.md` R22): every value names one. -/
def Reg.ofCode3 (c : BitVec 3) : Reg :=
  match c with
  | 0b000#3 => .pc
  | 0b001#3 => .in1
  | 0b010#3 => .in2
  | 0b011#3 => .acc
  | 0b100#3 => .sp
  | 0b101#3 => .baf
  | 0b110#3 => .cs
  | _ => .ds

/-- The number of a register (`10_state.md` R21, R22), as a 3-bit OS field holds it. -/
def Reg.code3 : Reg → BitVec 3
  | .pc => 0b000#3
  | .in1 => 0b001#3
  | .in2 => 0b010#3
  | .acc => 0b011#3
  | .sp => 0b100#3
  | .baf => 0b101#3
  | .cs => 0b110#3
  | .ds => 0b111#3

/-- The number of a TI register as a 2-bit TI field holds it (a register TI does not have loses its high bit; no
well-formed TI instruction names one). -/
def Reg.code2 (r : Reg) : BitVec 2 :=
  r.code3.extractLsb' 0 2

/-! ## The decoder -/

/-- `decode_TI(w)` (`30_encoding.md` R107), with the opcode map of R98, R100 to R102. The two values of `MI = w[29]`
share the reserved functions (R104). -/
def decodeTi (w : Word) : Except Reserved Instr :=
  let i := slice w 0 24
  let d := Reg.ofCode2 (slice w 24 2)
  match slice w 30 2 with
  | 0b00#2 =>
    match slice w 26 3 with
    | 0b000#3 => .error .tiComputeF000
    | 0b001#3 => .error .tiComputeF001
    | 0b010#3 => if slice w 29 1 = 1#1 then .ok (.tiSubi d i) else .ok (.tiSub d i)
    | 0b011#3 => if slice w 29 1 = 1#1 then .ok (.tiAddi d i) else .ok (.tiAdd d i)
    | 0b100#3 => if slice w 29 1 = 1#1 then .ok (.tiXnori d i) else .ok (.tiXnor d i)
    | 0b101#3 => if slice w 29 1 = 1#1 then .ok (.tiOri d i) else .ok (.tiOr d i)
    | 0b110#3 => if slice w 29 1 = 1#1 then .ok (.tiAndi d i) else .ok (.tiAnd d i)
    | _ => .error .tiComputeF111
  | 0b01#2 =>
    match slice w 28 2 with
    | 0b00#2 => .ok (.tiLoad d i)
    | 0b01#2 => .ok (.tiLoadin1 d i)
    | 0b10#2 => .ok (.tiLoadin2 d i)
    | _ => .ok (.tiLoadi d i)
  | 0b10#2 =>
    match slice w 28 2 with
    | 0b00#2 => .ok (.tiStore i)
    | 0b01#2 => .ok (.tiStorein1 i)
    | 0b10#2 => .ok (.tiStorein2 i)
    | _ => .ok (.tiMove (Reg.ofCode2 (slice w 26 2)) d)
  | _ =>
    match slice w 27 3 with
    | 0b000#3 => .ok .tiNop
    | 0b001#3 => .ok (.tiJumpGt i)
    | 0b010#3 => .ok (.tiJumpEq i)
    | 0b011#3 => .ok (.tiJumpGe i)
    | 0b100#3 => .ok (.tiJumpLt i)
    | 0b101#3 => .ok (.tiJumpNe i)
    | 0b110#3 => .ok (.tiJumpLe i)
    | _ => .ok (.tiJump i)

/-- `decode_OS(w)` (`30_encoding.md` R108), with the opcode map of R99 to R103: the `J` field is examined before `C`. -/
def decodeOs (w : Word) : Except Reserved Instr :=
  let i := slice w 0 22
  let d := Reg.ofCode3 (slice w 22 3)
  match slice w 30 2 with
  | 0b00#2 =>
    match slice w 28 2 with
    | 0b00#2 =>
      match slice w 25 3 with
      | 0b000#3 => .ok (.osMul d i)
      | 0b001#3 => .ok (.osDiv d i)
      | 0b010#3 => .ok (.osSub d i)
      | 0b011#3 => .ok (.osAdd d i)
      | 0b100#3 => .ok (.osXnor d i)
      | 0b101#3 => .ok (.osOr d i)
      | 0b110#3 => .ok (.osAnd d i)
      | _ => .ok (.osMod d i)
    | 0b10#2 =>
      match slice w 25 3 with
      | 0b000#3 => .ok (.osMuli d i)
      | 0b001#3 => .ok (.osDivi d i)
      | 0b010#3 => .ok (.osSubi d i)
      | 0b011#3 => .ok (.osAddi d i)
      | 0b100#3 => .ok (.osXnori d i)
      | 0b101#3 => .ok (.osOri d i)
      | 0b110#3 => .ok (.osAndi d i)
      | _ => .ok (.osModi d i)
    | 0b01#2 =>
      let s := Reg.ofCode3 (slice w 19 3)
      match slice w 25 3 with
      | 0b000#3 => .ok (.osMulReg d s)
      | 0b001#3 => .ok (.osDivReg d s)
      | 0b010#3 => .ok (.osSubReg d s)
      | 0b011#3 => .ok (.osAddReg d s)
      | 0b100#3 => .ok (.osXnorReg d s)
      | 0b101#3 => .ok (.osOrReg d s)
      | 0b110#3 => .ok (.osAndReg d s)
      | _ => .ok (.osModReg d s)
    | _ => .error .osComputeKind11
  | 0b01#2 =>
    match slice w 28 2 with
    | 0b00#2 => .ok (.osLoad d i)
    | 0b01#2 => .ok (.osLoadin (Reg.ofCode3 (slice w 25 3)) d i)
    | 0b10#2 => .error .osLoadMode10
    | _ => .ok (.osLoadi d i)
  | 0b10#2 =>
    let s := Reg.ofCode3 (slice w 25 3)
    match slice w 28 2 with
    | 0b00#2 => .ok (.osStore s i)
    | 0b01#2 => .ok (.osStorein d s i)
    | 0b10#2 => .error .osStoreMode10
    | _ => .ok (.osMove s d)
  | _ =>
    match slice w 25 2 with
    | 0b00#2 =>
      match slice w 27 3 with
      | 0b000#3 => .ok .osNop
      | 0b001#3 => .ok (.osJumpGt i)
      | 0b010#3 => .ok (.osJumpEq i)
      | 0b011#3 => .ok (.osJumpGe i)
      | 0b100#3 => .ok (.osJumpLt i)
      | 0b101#3 => .ok (.osJumpNe i)
      | 0b110#3 => .ok (.osJumpLe i)
      | _ => .ok (.osJump i)
    | 0b01#2 => .ok (.osInt i)
    | 0b10#2 => .ok .osRti
    | _ => .error .osJumpJ11

/-- `decode` of a variant (`30_encoding.md` R107, R108, R110): total on words; a reserved word is rejected by the name
of its row of R104. -/
def decode (v : Variant) (w : Word) : Except Reserved Instr :=
  match v with
  | .ti => decodeTi w
  | .os => decodeOs w

/-! ## The encoder

A word is the fixed bits of its row with each operand in its field (`30_encoding.md` R118 step 6): the rules write it
`base | D<<24 | i`. Unused bits are zero (R96). -/

/-- The field value `x` placed with its bit 0 at bit `lo` of a word. -/
def field {n : Nat} (x : BitVec n) (lo : Nat) : Word :=
  x.setWidth 32 <<< lo

/-- Formats `TI-C` and `TI-L` (`30_encoding.md` R92): `D` in bits 25..24, `i` in bits 23..0. -/
def packTiDI (base : Word) (d : Reg) (i : BitVec 24) : Word :=
  base ||| field d.code2 24 ||| field i 0

/-- Formats `TI-S` with `M = 00, 01, 10`, and `TI-J` (`30_encoding.md` R92): `i` in bits 23..0. -/
def packTiI (base : Word) (i : BitVec 24) : Word :=
  base ||| field i 0

/-- Format `TI-S` with `M = 11` (`30_encoding.md` R92): `S` in bits 27..26, `D` in bits 25..24. -/
def packTiSD (base : Word) (s d : Reg) : Word :=
  base ||| field s.code2 26 ||| field d.code2 24

/-- Formats `OS-C`, and `OS-LS` of an instruction without `S` (`30_encoding.md` R93): `D` in bits 24..22, `i` in bits
21..0. -/
def packOsDI (base : Word) (d : Reg) (i : BitVec 22) : Word :=
  base ||| field d.code3 22 ||| field i 0

/-- Format `OS-CR` (`30_encoding.md` R93): `D` in bits 24..22, `S` in bits 21..19. -/
def packOsCR (base : Word) (d s : Reg) : Word :=
  base ||| field d.code3 22 ||| field s.code3 19

/-- Format `OS-LS` with all its fields (`30_encoding.md` R93): `S` in bits 27..25, `D` in bits 24..22, `i` in bits
21..0. -/
def packOsSDI (base : Word) (s d : Reg) (i : BitVec 22) : Word :=
  base ||| field s.code3 25 ||| field d.code3 22 ||| field i 0

/-- Format `OS-LS` of STORE (`30_encoding.md` R93, R101): `S` in bits 27..25, `i` in bits 21..0. -/
def packOsSI (base : Word) (s : Reg) (i : BitVec 22) : Word :=
  base ||| field s.code3 25 ||| field i 0

/-- Format `OS-LS` of MOVE (`30_encoding.md` R93, R101): `S` in bits 27..25, `D` in bits 24..22. -/
def packOsSD (base : Word) (s d : Reg) : Word :=
  base ||| field s.code3 25 ||| field d.code3 22

/-- Format `OS-J` (`30_encoding.md` R93): `i` in bits 21..0. -/
def packOsI (base : Word) (i : BitVec 22) : Word :=
  base ||| field i 0

/-- The word of an instruction (`30_encoding.md` R92, R93, R98 to R103, R118 step 6). -/
def encode : Instr → Word
  | .tiSubi d i => packTiDI 0x28000000#32 d i
  | .tiAddi d i => packTiDI 0x2C000000#32 d i
  | .tiXnori d i => packTiDI 0x30000000#32 d i
  | .tiOri d i => packTiDI 0x34000000#32 d i
  | .tiAndi d i => packTiDI 0x38000000#32 d i
  | .tiSub d i => packTiDI 0x08000000#32 d i
  | .tiAdd d i => packTiDI 0x0C000000#32 d i
  | .tiXnor d i => packTiDI 0x10000000#32 d i
  | .tiOr d i => packTiDI 0x14000000#32 d i
  | .tiAnd d i => packTiDI 0x18000000#32 d i
  | .tiLoad d i => packTiDI 0x40000000#32 d i
  | .tiLoadin1 d i => packTiDI 0x50000000#32 d i
  | .tiLoadin2 d i => packTiDI 0x60000000#32 d i
  | .tiLoadi d i => packTiDI 0x70000000#32 d i
  | .tiStore i => packTiI 0x80000000#32 i
  | .tiStorein1 i => packTiI 0x90000000#32 i
  | .tiStorein2 i => packTiI 0xA0000000#32 i
  | .tiMove s d => packTiSD 0xB0000000#32 s d
  | .tiNop => 0xC0000000#32
  | .tiJumpGt i => packTiI 0xC8000000#32 i
  | .tiJumpEq i => packTiI 0xD0000000#32 i
  | .tiJumpGe i => packTiI 0xD8000000#32 i
  | .tiJumpLt i => packTiI 0xE0000000#32 i
  | .tiJumpNe i => packTiI 0xE8000000#32 i
  | .tiJumpLe i => packTiI 0xF0000000#32 i
  | .tiJump i => packTiI 0xF8000000#32 i
  | .osMuli d i => packOsDI 0x20000000#32 d i
  | .osDivi d i => packOsDI 0x22000000#32 d i
  | .osSubi d i => packOsDI 0x24000000#32 d i
  | .osAddi d i => packOsDI 0x26000000#32 d i
  | .osXnori d i => packOsDI 0x28000000#32 d i
  | .osOri d i => packOsDI 0x2A000000#32 d i
  | .osAndi d i => packOsDI 0x2C000000#32 d i
  | .osModi d i => packOsDI 0x2E000000#32 d i
  | .osMul d i => packOsDI 0x00000000#32 d i
  | .osDiv d i => packOsDI 0x02000000#32 d i
  | .osSub d i => packOsDI 0x04000000#32 d i
  | .osAdd d i => packOsDI 0x06000000#32 d i
  | .osXnor d i => packOsDI 0x08000000#32 d i
  | .osOr d i => packOsDI 0x0A000000#32 d i
  | .osAnd d i => packOsDI 0x0C000000#32 d i
  | .osMod d i => packOsDI 0x0E000000#32 d i
  | .osMulReg d s => packOsCR 0x10000000#32 d s
  | .osDivReg d s => packOsCR 0x12000000#32 d s
  | .osSubReg d s => packOsCR 0x14000000#32 d s
  | .osAddReg d s => packOsCR 0x16000000#32 d s
  | .osXnorReg d s => packOsCR 0x18000000#32 d s
  | .osOrReg d s => packOsCR 0x1A000000#32 d s
  | .osAndReg d s => packOsCR 0x1C000000#32 d s
  | .osModReg d s => packOsCR 0x1E000000#32 d s
  | .osLoad d i => packOsDI 0x40000000#32 d i
  | .osLoadin s d i => packOsSDI 0x50000000#32 s d i
  | .osLoadi d i => packOsDI 0x70000000#32 d i
  | .osStore s i => packOsSI 0x80000000#32 s i
  | .osStorein d s i => packOsSDI 0x90000000#32 s d i
  | .osMove s d => packOsSD 0xB0000000#32 s d
  | .osNop => 0xC0000000#32
  | .osJumpGt i => packOsI 0xC8000000#32 i
  | .osJumpEq i => packOsI 0xD0000000#32 i
  | .osJumpGe i => packOsI 0xD8000000#32 i
  | .osJumpLt i => packOsI 0xE0000000#32 i
  | .osJumpNe i => packOsI 0xE8000000#32 i
  | .osJumpLe i => packOsI 0xF0000000#32 i
  | .osJump i => packOsI 0xF8000000#32 i
  | .osInt i => packOsI 0xC2000000#32 i
  | .osRti => 0xC4000000#32

/-- `encode` as a list of words, in the order the hardware holds them: every instruction is one word
(`30_encoding.md` R90). -/
def encodeWords (i : Instr) : List Word :=
  [encode i]

/-! ## The opcode table -/

/-- The row of `spec/opcode_table.json` an instruction stands on: (mask, match). -/
def Instr.opcodeRow : Instr → Word × Word
  | .tiSubi _ _ => (0xFC000000#32, 0x28000000#32)
  | .tiAddi _ _ => (0xFC000000#32, 0x2C000000#32)
  | .tiXnori _ _ => (0xFC000000#32, 0x30000000#32)
  | .tiOri _ _ => (0xFC000000#32, 0x34000000#32)
  | .tiAndi _ _ => (0xFC000000#32, 0x38000000#32)
  | .tiSub _ _ => (0xFC000000#32, 0x08000000#32)
  | .tiAdd _ _ => (0xFC000000#32, 0x0C000000#32)
  | .tiXnor _ _ => (0xFC000000#32, 0x10000000#32)
  | .tiOr _ _ => (0xFC000000#32, 0x14000000#32)
  | .tiAnd _ _ => (0xFC000000#32, 0x18000000#32)
  | .tiLoad _ _ => (0xF0000000#32, 0x40000000#32)
  | .tiLoadin1 _ _ => (0xF0000000#32, 0x50000000#32)
  | .tiLoadin2 _ _ => (0xF0000000#32, 0x60000000#32)
  | .tiLoadi _ _ => (0xF0000000#32, 0x70000000#32)
  | .tiStore _ => (0xF0000000#32, 0x80000000#32)
  | .tiStorein1 _ => (0xF0000000#32, 0x90000000#32)
  | .tiStorein2 _ => (0xF0000000#32, 0xA0000000#32)
  | .tiMove _ _ => (0xF0000000#32, 0xB0000000#32)
  | .tiNop => (0xF8000000#32, 0xC0000000#32)
  | .tiJumpGt _ => (0xF8000000#32, 0xC8000000#32)
  | .tiJumpEq _ => (0xF8000000#32, 0xD0000000#32)
  | .tiJumpGe _ => (0xF8000000#32, 0xD8000000#32)
  | .tiJumpLt _ => (0xF8000000#32, 0xE0000000#32)
  | .tiJumpNe _ => (0xF8000000#32, 0xE8000000#32)
  | .tiJumpLe _ => (0xF8000000#32, 0xF0000000#32)
  | .tiJump _ => (0xF8000000#32, 0xF8000000#32)
  | .osMuli _ _ => (0xFE000000#32, 0x20000000#32)
  | .osDivi _ _ => (0xFE000000#32, 0x22000000#32)
  | .osSubi _ _ => (0xFE000000#32, 0x24000000#32)
  | .osAddi _ _ => (0xFE000000#32, 0x26000000#32)
  | .osXnori _ _ => (0xFE000000#32, 0x28000000#32)
  | .osOri _ _ => (0xFE000000#32, 0x2A000000#32)
  | .osAndi _ _ => (0xFE000000#32, 0x2C000000#32)
  | .osModi _ _ => (0xFE000000#32, 0x2E000000#32)
  | .osMul _ _ => (0xFE000000#32, 0x00000000#32)
  | .osDiv _ _ => (0xFE000000#32, 0x02000000#32)
  | .osSub _ _ => (0xFE000000#32, 0x04000000#32)
  | .osAdd _ _ => (0xFE000000#32, 0x06000000#32)
  | .osXnor _ _ => (0xFE000000#32, 0x08000000#32)
  | .osOr _ _ => (0xFE000000#32, 0x0A000000#32)
  | .osAnd _ _ => (0xFE000000#32, 0x0C000000#32)
  | .osMod _ _ => (0xFE000000#32, 0x0E000000#32)
  | .osMulReg _ _ => (0xFE000000#32, 0x10000000#32)
  | .osDivReg _ _ => (0xFE000000#32, 0x12000000#32)
  | .osSubReg _ _ => (0xFE000000#32, 0x14000000#32)
  | .osAddReg _ _ => (0xFE000000#32, 0x16000000#32)
  | .osXnorReg _ _ => (0xFE000000#32, 0x18000000#32)
  | .osOrReg _ _ => (0xFE000000#32, 0x1A000000#32)
  | .osAndReg _ _ => (0xFE000000#32, 0x1C000000#32)
  | .osModReg _ _ => (0xFE000000#32, 0x1E000000#32)
  | .osLoad _ _ => (0xF0000000#32, 0x40000000#32)
  | .osLoadin _ _ _ => (0xF0000000#32, 0x50000000#32)
  | .osLoadi _ _ => (0xF0000000#32, 0x70000000#32)
  | .osStore _ _ => (0xF0000000#32, 0x80000000#32)
  | .osStorein _ _ _ => (0xF0000000#32, 0x90000000#32)
  | .osMove _ _ => (0xF0000000#32, 0xB0000000#32)
  | .osNop => (0xFE000000#32, 0xC0000000#32)
  | .osJumpGt _ => (0xFE000000#32, 0xC8000000#32)
  | .osJumpEq _ => (0xFE000000#32, 0xD0000000#32)
  | .osJumpGe _ => (0xFE000000#32, 0xD8000000#32)
  | .osJumpLt _ => (0xFE000000#32, 0xE0000000#32)
  | .osJumpNe _ => (0xFE000000#32, 0xE8000000#32)
  | .osJumpLe _ => (0xFE000000#32, 0xF0000000#32)
  | .osJump _ => (0xFE000000#32, 0xF8000000#32)
  | .osInt _ => (0xC6000000#32, 0xC2000000#32)
  | .osRti => (0xC6000000#32, 0xC4000000#32)

/-! ## Unused bits and the canonical word -/

/-- The unused bits of an instruction, as a mask (`30_encoding.md` R96, the complete list). -/
def Instr.unusedBits : Instr → Word
  | .tiSubi _ _ => 0x00000000#32
  | .tiAddi _ _ => 0x00000000#32
  | .tiXnori _ _ => 0x00000000#32
  | .tiOri _ _ => 0x00000000#32
  | .tiAndi _ _ => 0x00000000#32
  | .tiSub _ _ => 0x00000000#32
  | .tiAdd _ _ => 0x00000000#32
  | .tiXnor _ _ => 0x00000000#32
  | .tiOr _ _ => 0x00000000#32
  | .tiAnd _ _ => 0x00000000#32
  | .tiLoad _ _ => 0x0C000000#32
  | .tiLoadin1 _ _ => 0x0C000000#32
  | .tiLoadin2 _ _ => 0x0C000000#32
  | .tiLoadi _ _ => 0x0C000000#32
  | .tiStore _ => 0x0F000000#32
  | .tiStorein1 _ => 0x0F000000#32
  | .tiStorein2 _ => 0x0F000000#32
  | .tiMove _ _ => 0x00FFFFFF#32
  | .tiNop => 0x07FFFFFF#32
  | .tiJumpGt _ => 0x07000000#32
  | .tiJumpEq _ => 0x07000000#32
  | .tiJumpGe _ => 0x07000000#32
  | .tiJumpLt _ => 0x07000000#32
  | .tiJumpNe _ => 0x07000000#32
  | .tiJumpLe _ => 0x07000000#32
  | .tiJump _ => 0x07000000#32
  | .osMuli _ _ => 0x00000000#32
  | .osDivi _ _ => 0x00000000#32
  | .osSubi _ _ => 0x00000000#32
  | .osAddi _ _ => 0x00000000#32
  | .osXnori _ _ => 0x00000000#32
  | .osOri _ _ => 0x00000000#32
  | .osAndi _ _ => 0x00000000#32
  | .osModi _ _ => 0x00000000#32
  | .osMul _ _ => 0x00000000#32
  | .osDiv _ _ => 0x00000000#32
  | .osSub _ _ => 0x00000000#32
  | .osAdd _ _ => 0x00000000#32
  | .osXnor _ _ => 0x00000000#32
  | .osOr _ _ => 0x00000000#32
  | .osAnd _ _ => 0x00000000#32
  | .osMod _ _ => 0x00000000#32
  | .osMulReg _ _ => 0x0007FFFF#32
  | .osDivReg _ _ => 0x0007FFFF#32
  | .osSubReg _ _ => 0x0007FFFF#32
  | .osAddReg _ _ => 0x0007FFFF#32
  | .osXnorReg _ _ => 0x0007FFFF#32
  | .osOrReg _ _ => 0x0007FFFF#32
  | .osAndReg _ _ => 0x0007FFFF#32
  | .osModReg _ _ => 0x0007FFFF#32
  | .osLoad _ _ => 0x0E000000#32
  | .osLoadin _ _ _ => 0x00000000#32
  | .osLoadi _ _ => 0x0E000000#32
  | .osStore _ _ => 0x01C00000#32
  | .osStorein _ _ _ => 0x00000000#32
  | .osMove _ _ => 0x003FFFFF#32
  | .osNop => 0x01FFFFFF#32
  | .osJumpGt _ => 0x01C00000#32
  | .osJumpEq _ => 0x01C00000#32
  | .osJumpGe _ => 0x01C00000#32
  | .osJumpLt _ => 0x01C00000#32
  | .osJumpNe _ => 0x01C00000#32
  | .osJumpLe _ => 0x01C00000#32
  | .osJump _ => 0x01C00000#32
  | .osInt _ => 0x39C00000#32
  | .osRti => 0x39FFFFFF#32

/-- `canon(w)` (`30_encoding.md` R97): `w` with every unused bit of its instruction set to zero; a reserved word is
left as it is. -/
def canon (v : Variant) (w : Word) : Word :=
  match decode v w with
  | .ok i => w &&& ~~~i.unusedBits
  | .error _ => w

/-- `w` is a canonical word of the variant (`30_encoding.md` R97). -/
def isCanonical (v : Variant) (w : Word) : Bool :=
  canon v w == w

/-! ## The host's question -/

/-- The instruction the decoder of the core that `State.reset` is (the OS variant, log 1) reads from an instruction
whose bits are `w`. A cell is a whole word and the machine has no byte order (`20_memory.md` R51), so the word is given
to the decoder as it stands. -/
def decodeTableWord (nbits w : Nat) : Option Instr :=
  match decode Config.resetVariant (BitVec.ofNat 32 (w % 2 ^ nbits)) with
  | .ok i => some i
  | .error _ => none

end Sys2Proof
end

