-- ==== Sys2Proof/Machine/State.lean ====
section
/-! DEFINITION. The state of the core (`10_state.md`), its fault causes (`60_exceptions.md` R311), and the machine
right after reset (`10_state.md` R45). -/

namespace Sys2Proof.Machine

/-- The fault causes of `60_exceptions.md` R311, all of them the spec's own. Every one is safe: the core stops where the
rules give the step no result, and a proof about a program must show that the case does not arise. -/
inductive Fault where
  /-- 1: raised by `step` when the fetched word is reserved (R312). Safe. -/
  | illegalInstruction
  /-- 2: raised by the OS divide and modulo forms when the second operand is zero (R313). Safe. -/
  | divideByZero
  /-- 3: raised by OS STORE and STOREIN when the address selects ROM (R314). Safe. -/
  | storeToRom
  /-- 4: raised by an OS access to ROM outside the loaded program or to the I/O window above port 2 (R315). Safe. -/
  | unmappedAccess
  /-- 5: raised by RTI when the internal return stack is empty (R316). Safe. -/
  | returnStackEmpty
deriving DecidableEq, Repr

/-- The reasons for having no meaning. -/
inductive Refusal where
  /-- An instruction without a meaning, by its mnemonic: raised by `exec` only. No arm of `exec` raises it, since every
  instruction has its meaning. Safe. -/
  | notModelled (mnemonic : String)
deriving DecidableEq, Repr

/-- `status` (`10_state.md` R38). -/
inductive Status where
  | running
  | terminated
  | faulted (cause : Fault)
deriving DecidableEq, Repr

/-- The three ports of the OS I/O window (`20_memory.md` R62, `60_exceptions.md` R330). -/
inductive IoPort where
  /-- Index 0, the write (transmit-data) port. -/
  | transmit
  /-- Index 1, the read (receive-data) port. -/
  | receive
  /-- Index 2, the status port. -/
  | status
deriving DecidableEq, Repr

/-- One event of the I/O history (`10_state.md` R43). -/
inductive IoEvent where
  | read (port : IoPort) (value : Word)
  | write (port : IoPort) (value : Word)
deriving DecidableEq, Repr

/-- What bits 31..30 of an OS address select (`20_memory.md` R58). -/
inductive Device where
  /-- `00`: ROM, the code region. -/
  | rom
  /-- `01`: the I/O window. -/
  | io
  /-- `10`, `11`: RAM, the data region. -/
  | ram
deriving DecidableEq, Repr

/-- An entry of the internal return stack (`10_state.md` R36). -/
structure ReturnEntry where
  /-- The return address. -/
  ret : Word
  /-- The value of `in_isr` when the entry was pushed. -/
  flag : Bool
deriving DecidableEq, Repr

/-- Data memory: the cells that differ from what an unlisted cell reads as, as (address, word) pairs with strictly rising
addresses. A cell is a whole 32-bit word, the smallest thing an address names (`20_memory.md` R50, R51; log 3). -/
abbrev Memory := List (Nat × Word)

/-- What an unlisted cell reads as: "else defaults to zero" (`20_memory.md` R55, R56, R60). -/
abbrev Memory.blank : Word := 0x00000000#32

/-- The state of the core. Registers are those of `10_state.md` R21; the TI variant has the first four only (log 4). -/
structure State where
  /-- The construction-time parameters (`10_state.md` R44, log 1): no step changes them. -/
  config : Config
  /-- Register 0, PC (R26). -/
  pc : Word
  /-- Register 1, IN1. -/
  in1 : Word
  /-- Register 2, IN2. -/
  in2 : Word
  /-- Register 3, ACC. -/
  acc : Word
  /-- Register 4, SP (OS, R33). -/
  sp : Word
  /-- Register 5, BAF (OS, R33). -/
  baf : Word
  /-- Register 6, CS (OS, R32). -/
  cs : Word
  /-- Register 7, DS (OS, R31). -/
  ds : Word
  /-- Register 8, `I`, the instruction-fetch register (OS, R35). -/
  fetchReg : Word
  /-- `RS`, the internal return stack (OS, R36), the top entry first. -/
  returnStack : List ReturnEntry
  /-- `in_isr`, the in-interrupt flag (OS, R37). -/
  inIsr : Bool
  /-- `status` (R38). -/
  status : Status
  /-- The TI data region or the OS RAM (R41, R42). -/
  mem : Memory
  /-- The I/O event history (OS, R43), oldest event first. -/
  ioHistory : List IoEvent
  /-- The model's own: the values the environment supplies to the next reads of the I/O window (log 5). -/
  uartInput : List Word
  /-- The model's own: how many reads found `uartInput` empty and took a free value (log 5). -/
  uartDraws : Nat
deriving DecidableEq, Repr

/-- The machine right after reset (`10_state.md` R45, `70_reset_and_hazards.md` R341): a core of the variant
`Config.resetVariant` (OS, log 1) with every parameter at its default and no program loaded (log 2). PC and CS hold
`CODE_BASE`, DS holds `DS_RESET`. `State.resetWith` in `Machine/Interface.lean` is the reset state of any configuration. -/
def State.reset : State where
  config := Config.default Config.resetVariant
  pc := 0x00000000#32
  in1 := 0x00000000#32
  in2 := 0x00000000#32
  acc := 0x00000000#32
  sp := 0x00000000#32
  baf := 0x00000000#32
  cs := 0x00000000#32
  ds := 0x80000000#32
  fetchReg := 0x00000000#32
  returnStack := []
  inIsr := false
  status := .running
  mem := []
  ioHistory := []
  uartInput := []
  uartDraws := 0

end Sys2Proof.Machine
end

