-- ==== Sys2Proof/Machine/Ops.lean ====
section
/-! DEFINITION. The named operations over registers, memory and the I/O window, the write-back that moves the program
counter, taking the software interrupt and returning from it, instruction fetch, and what `step` commits. -/

namespace Sys2Proof.Machine

/-! ## Registers -/

/-- `x[r]`: the word register `r` holds (`00_scope.md` R9). -/
def readReg (s : State) (r : Reg) : Word :=
  match r with
  | .pc => s.pc
  | .in1 => s.in1
  | .in2 => s.in2
  | .acc => s.acc
  | .sp => s.sp
  | .baf => s.baf
  | .cs => s.cs
  | .ds => s.ds

/-- `x[r] <- v` (`00_scope.md` R9): no register is hardwired or read-only (`10_state.md` R23). -/
def writeReg (s : State) (r : Reg) (v : Word) : State :=
  match r with
  | .pc => { s with pc := v }
  | .in1 => { s with in1 := v }
  | .in2 => { s with in2 := v }
  | .acc => { s with acc := v }
  | .sp => { s with sp := v }
  | .baf => { s with baf := v }
  | .cs => { s with cs := v }
  | .ds => { s with ds := v }

/-- `pc <- wrap(pc + 1)` (`10_state.md` R27, R28). -/
def nextPc (s : State) : State :=
  { s with pc := s.pc + 1#32 }

/-- The write-back of COMPUTE, LOAD and MOVE (`40_compute.md` R154, `41_load.md` R206): a destination other than PC is
written and the program counter advances by one; a value written to PC is the next program counter, with no increment. -/
def writeBack (d : Reg) (v : Word) (s : State) : State :=
  if d = .pc then writeReg s .pc v else nextPc (writeReg s d v)

/-! ## Memory cells -/

/-- The word of the cell at address `a`; an unlisted cell reads `Memory.blank` (`20_memory.md` R55, R60). -/
def Memory.read : Memory → Nat → Word
  | [], _ => Memory.blank
  | (b, v) :: rest, a => if a = b then v else Memory.read rest a

/-- `m` with the cell at address `a` holding `v`, in canonical form again: a cell that holds `Memory.blank` is not
listed. -/
def Memory.write : Memory → Nat → Word → Memory
  | [], a, v => if v = Memory.blank then [] else [(a, v)]
  | (b, u) :: rest, a, v =>
    if a < b then
      if v = Memory.blank then (b, u) :: rest else (a, v) :: (b, u) :: rest
    else if a = b then
      if v = Memory.blank then rest else (a, v) :: rest
    else (b, u) :: Memory.write rest a v

/-- The canonical form: addresses strictly rising, no listed cell equal to what an unlisted one reads as. -/
def Memory.wf : Memory → Bool
  | [] => true
  | (a, v) :: rest => decide (v ≠ Memory.blank) && rest.all (fun c => decide (a < c.1)) && Memory.wf rest

/-- `words` stored in the cells from address `a` up (`20_memory.md` R75). -/
def Memory.load (m : Memory) (a : Nat) : List Word → Memory
  | [] => m
  | w :: rest => Memory.load (Memory.write m a w) (a + 1) rest

/-! ## The TI data region -/

/-- TI `MemRead(a)` (`20_memory.md` R56): never faults. -/
def tiMemRead (s : State) (a : Word) : Word :=
  Memory.read s.mem a.toNat

/-- TI `MemWrite(a, v)` (`20_memory.md` R57): never faults. -/
def tiMemWrite (s : State) (a v : Word) : State :=
  { s with mem := Memory.write s.mem a.toNat v }

/-! ## The OS address space -/

/-- The device bits 31..30 of an address select (`20_memory.md` R58). -/
def device (a : Word) : Device :=
  match slice a 30 2 with
  | 0b00#2 => .rom
  | 0b01#2 => .io
  | _ => .ram

/-- The port at a device index of the I/O window, none above 2 (`20_memory.md` R62). -/
def ioPort (a : Word) : Option IoPort :=
  match (slice a 0 30).toNat with
  | 0 => some .transmit
  | 1 => some .receive
  | 2 => some .status
  | _ => none

/-- The loaded program: the main program, then the interrupt-service routine (`20_memory.md` R59). -/
def programWords (c : Config) : List Word :=
  c.code ++ c.isrCode

/-- The word ROM holds at `a`, none outside `CODE_BASE .. CODE_BASE + N - 1` (`20_memory.md` R59). -/
def romWord (c : Config) (a : Word) : Option Word :=
  if c.codeBase.toNat ≤ a.toNat then (programWords c)[a.toNat - c.codeBase.toNat]? else none

/-- The value the next read of the I/O window returns (`60_exceptions.md` R331): the next supplied value, or, when none is
supplied, the free value `Config.uartRead` (log 5). -/
def uartValue (s : State) : Word :=
  match s.uartInput with
  | v :: _ => v
  | [] => Config.uartRead s.uartDraws

/-- The state after one value is drawn: the supplied value is used up, or the count of free values goes up. -/
def uartAdvance (s : State) : State :=
  match s.uartInput with
  | _ :: rest => { s with uartInput := rest }
  | [] => { s with uartDraws := s.uartDraws + 1 }

/-- An event appended to the I/O history (`10_state.md` R43). -/
def recordEvent (s : State) (e : IoEvent) : State :=
  { s with ioHistory := s.ioHistory ++ [e] }

/-- OS `MemRead(a)` (`20_memory.md` R63): the word read, and the state after, which differs from `s` for a read of the I/O
window only (R62). -/
def osMemRead (s : State) (a : Word) : Except Fault (Word × State) :=
  match device a with
  | .rom =>
    match romWord s.config a with
    | some w => .ok (w, s)
    | none => .error .unmappedAccess
  | .io =>
    match ioPort a with
    | some p => .ok (uartValue s, recordEvent (uartAdvance s) (.read p (uartValue s)))
    | none => .error .unmappedAccess
  | .ram => .ok (Memory.read s.mem a.toNat, s)

/-- OS `MemWrite(a, v)` (`20_memory.md` R64). -/
def osMemWrite (s : State) (a v : Word) : Except Fault State :=
  match device a with
  | .rom => .error .storeToRom
  | .io =>
    match ioPort a with
    | some p => .ok (recordEvent s (.write p v))
    | none => .error .unmappedAccess
  | .ram => .ok { s with mem := Memory.write s.mem a.toNat v }

/-! ## The software interrupt -/

/-- `IVT(k)` (`44_os_int_rti.md` R261): the listed entry, else the default `CODE_BASE + N_MAIN`. -/
def ivtEntry (c : Config) (k : Nat) : Word :=
  (c.ivt.lookup k).getD (c.codeBase + BitVec.ofNat 32 c.code.length)

/-- Trap entry (`44_os_int_rti.md` R261, `60_exceptions.md` R321): the return address `pc + 1` and the old `in_isr` are
pushed as one entry, `in_isr` is set, and the program counter becomes `IVT(k)`. -/
def trapEnter (k : Nat) (s : State) : State :=
  { s with
    returnStack := { ret := s.pc + 1#32, flag := s.inIsr } :: s.returnStack
    inIsr := true
    pc := ivtEntry s.config k }

/-- Trap return (`44_os_int_rti.md` R262, `60_exceptions.md` R322): the program counter and `in_isr` are restored from the
popped entry; an empty stack faults. -/
def trapReturn (s : State) : Except Fault State :=
  match s.returnStack with
  | [] => .error .returnStackEmpty
  | e :: rest => .ok { s with pc := e.ret, inIsr := e.flag, returnStack := rest }

/-! ## Fetch and commit -/

/-- The address lies in a range (with no wrap at the top of the address space). -/
def inRange (r : PcRange) (a : Word) : Bool :=
  decide (r.base.toNat ≤ a.toNat) && decide (a.toNat < r.base.toNat + r.len)

/-- `ValidPC(pc)` (`10_state.md` R40): TI `pc < N`; OS `CODE_BASE ≤ pc < CODE_BASE + N`, or in a range by which the
configuration widens the predicate (`20_memory.md` R67, log 9). It reads the configuration, never the live CS. -/
def validPC (s : State) : Bool :=
  match s.config.variant with
  | .ti => decide (s.pc.toNat < s.config.code.length)
  | .os =>
    (decide (s.config.codeBase.toNat ≤ s.pc.toNat) &&
      decide (s.pc.toNat < s.config.codeBase.toNat + (programWords s.config).length)) ||
    s.config.widenedPC.any (fun r => inRange r s.pc)

/-- `Fetch(pc)` (`20_memory.md` R67): TI, the program word, defined only where `ValidPC` holds (`step` fetches nowhere
else, and the padding word 0 is a reserved word there); OS, `MemRead(pc)` on the full program counter. -/
def fetch (s : State) : Except Fault (Word × State) :=
  match s.config.variant with
  | .ti => .ok (s.config.code.getD s.pc.toNat 0#32, s)
  | .os => osMemRead s s.pc

/-- What a completed step adds to the instruction's own writes (`45_step_and_interface.md` R281 step 6): OS, `I` receives
the fetched word; the status is `Running`. -/
def commit (w : Word) (t : State) : State :=
  match t.config.variant with
  | .ti => { t with status := .running }
  | .os => { t with fetchReg := w, status := .running }

/-! ## Placing a program word, for the host -/

/-- `ws` with the word at index `n` replaced by `w`; a shorter list is first filled up with `NOP`. -/
def setWordAt : List Word → Nat → Word → List Word
  | [], 0, w => [w]
  | [], n + 1, w => 0xC0000000#32 :: setWordAt [] n w
  | _ :: rest, 0, w => w :: rest
  | x :: rest, n + 1, w => x :: setWordAt rest n w

/-- The OS program with the word at ROM address `a` replaced by `w`: in the main program, or in the interrupt-service
routine where that is where `a` lies; a program that lies above `a` is replaced by the one word. -/
def placeRomWord (c : Config) (a w : Word) : Config :=
  let n := a.toNat - c.codeBase.toNat
  if a.toNat < c.codeBase.toNat then { c with codeBase := a, code := [w], isrCode := [] }
  else if n < c.code.length ∨ c.isrCode = [] then { c with code := setWordAt c.code n w }
  else { c with isrCode := setWordAt c.isrCode (n - c.code.length) w }

/-- The state with `w` standing for the load of a program that has it where the next step fetches (log 2): in the code
region at the program counter; in OS RAM, in the cell at the program counter, with `ValidPC` widened to it. A program
counter in the I/O window has nowhere to hold a word and the program is left alone. The status becomes `Running`. -/
def placeWord (s : State) (w : Word) : State :=
  match s.config.variant with
  | .ti => { s with config := { s.config with code := setWordAt s.config.code s.pc.toNat w }, status := .running }
  | .os =>
    match device s.pc with
    | .rom => { s with config := placeRomWord s.config s.pc w, status := .running }
    | .io => { s with status := .running }
    | .ram =>
      { s with
        mem := Memory.write s.mem s.pc.toNat w
        config := { s.config with widenedPC := { base := s.pc, len := 1 } :: s.config.widenedPC }
        status := .running }

end Sys2Proof.Machine
end

