-- ==== Sys2Proof/Machine/Operands.lean ====
section
/-! DEFINITION. How an operand is read: the signed and unsigned readings of a register, the two extensions of the operand
field, and the effective addresses (`00_scope.md` R8, R9, R13; `20_memory.md` R61, R66; `30_encoding.md` R94). -/

namespace Sys2Proof.Machine

/-- `wrap(z) = z mod 2^32` (`00_scope.md` R8). -/
def wrap (z : Int) : Word :=
  BitVec.ofInt 32 z

/-- `val(r)` (`00_scope.md` R9, `10_state.md` R24): PC is read unsigned, every other register as two's complement. -/
def val (s : State) (r : Reg) : Int :=
  if r = .pc then (s.pc.toNat : Int) else (readReg s r).toInt

/-- `simm = sext_IMMW(i)` (`00_scope.md` R8, R13): the sign-extended operand field. -/
def simm {n : Nat} (i : BitVec n) : Int :=
  i.toInt

/-- `uimm = zext_IMMW(i)` (`00_scope.md` R8, R13): the zero-extended operand field. -/
def uimm {n : Nat} (i : BitVec n) : Nat :=
  i.toNat

/-- TI `EA_direct(i) = zext_24(i)` (`20_memory.md` R61). -/
def eaDirectTi (i : BitVec 24) : Word :=
  i.setWidth 32

/-- OS `EA_direct(i) = x[DS][31:22] ++ i[21:0]` (`20_memory.md` R61): the DS fill. -/
def eaDirectOs (s : State) (i : BitVec 22) : Word :=
  slice s.ds 22 10 ++ i

/-- `EA_indexed(r, i) = wrap(x[r] + sext_IMMW(i))` (`20_memory.md` R66), of the word the base register holds. -/
def eaIndexed {n : Nat} (base : Word) (i : BitVec n) : Word :=
  wrap ((base.toNat : Int) + simm i)

end Sys2Proof.Machine
end

