-- ==== Sys2Proof/Machine/Flags.lean ====
section
/-! DEFINITION. The machine has no flags register, no carry and no overflow bit (`10_state.md` R29). The three "flags" the
spec names are the bits of a JUMP's condition mask, tested against ACC when the JUMP executes. -/

namespace Sys2Proof.Machine

/-- `cond(C, acc)` (`43_jump.md` R240): exactly one bit of the mask matches the sign of ACC; bit 2 stands for `ACC < 0`,
bit 1 for `ACC = 0`, bit 0 for `ACC > 0`, ACC read as two's complement. -/
def condHolds (c : BitVec 3) (acc : Word) : Bool :=
  if acc.toInt < 0 then c.getLsbD 2
  else if acc = 0#32 then c.getLsbD 1
  else c.getLsbD 0

end Sys2Proof.Machine
end

