-- ==== Sys2Proof/Machine/Alu.lean ====
section
/-! DEFINITION. The functions of COMPUTE (`40_compute.md` R153) and the shared shapes of the COMPUTE, LOAD, STORE, MOVE and
JUMP instructions, which the meanings in the family files give their operands. -/

namespace Sys2Proof.Machine

/-- The outcome of an instruction or a step, as the host reads it. -/
abbrev Result := Host.Outcome State Fault Refusal

/-- `wrap(fn(a, b))` (`40_compute.md` R153): the operands are integers, the result exact and then reduced. DIV rounds its
quotient toward zero and MOD has the sign of `a`; a zero divisor faults (R158). The bitwise functions work on the 32-bit
patterns (R159). -/
def aluApply (f : AluFn) (a b : Int) : Except Fault Word :=
  match f with
  | .sub => .ok (wrap (a - b))
  | .add => .ok (wrap (a + b))
  | .xnor => .ok (~~~(wrap a ^^^ wrap b))
  | .or => .ok (wrap a ||| wrap b)
  | .and => .ok (wrap a &&& wrap b)
  | .mul => .ok (wrap (a * b))
  | .div => if b = 0 then .error .divideByZero else .ok (wrap (Int.tdiv a b))
  | .mod => if b = 0 then .error .divideByZero else .ok (wrap (a - b * Int.tdiv a b))

/-- COMPUTE with the operand `b` already read (`40_compute.md` R150): the destination is also the first source. -/
def compute (f : AluFn) (d : Reg) (b : Int) (s : State) : Result :=
  match aluApply f (val s d) b with
  | .ok r => .next (writeBack d r s)
  | .error e => .fault e

/-- TI COMPUTE with a memory operand (`40_compute.md` R151). -/
def computeTiMem (f : AluFn) (d : Reg) (i : BitVec 24) (s : State) : Result :=
  compute f d (tiMemRead s (eaDirectTi i)).toInt s

/-- OS COMPUTE with a memory operand (`40_compute.md` R152): a fault of the read comes before a zero divisor (R160). -/
def computeOsMem (f : AluFn) (d : Reg) (i : BitVec 22) (s : State) : Result :=
  match osMemRead s (eaDirectOs s i) with
  | .ok (m, s1) => compute f d m.toInt s1
  | .error e => .fault e

/-- OS COMPUTE with a register operand (`40_compute.md` R152): PC is read unsigned. -/
def computeOsReg (f : AluFn) (d r : Reg) (s : State) : Result :=
  compute f d (val s r) s

/-- An OS load of the cell at `a` into `d` (`41_load.md` R200, R206). -/
def loadOs (d : Reg) (a : Word) (s : State) : Result :=
  match osMemRead s a with
  | .ok (v, s1) => .next (writeBack d v s1)
  | .error e => .fault e

/-- A TI load of the cell at `a` into `d` (`41_load.md` R200, R206). -/
def loadTi (d : Reg) (a : Word) (s : State) : Result :=
  .next (writeBack d (tiMemRead s a) s)

/-- An OS store of `v` to the cell at `a` (`42_store_move.md` R220): the program counter advances by one. -/
def storeOs (a v : Word) (s : State) : Result :=
  match osMemWrite s a v with
  | .ok s1 => .next (nextPc s1)
  | .error e => .fault e

/-- A TI store of ACC to the cell at `a` (`42_store_move.md` R220, R221). -/
def storeTi (a : Word) (s : State) : Result :=
  .next (nextPc (tiMemWrite s a s.acc))

/-- MOVE (`42_store_move.md` R226, R227): the pattern is copied, with no memory access. -/
def moveReg (r d : Reg) (s : State) : Result :=
  .next (writeBack d (readReg s r) s)

/-- JUMP with condition mask `c` (`43_jump.md` R241): the displacement is added to the address of the JUMP itself, or the
program counter advances by one; nothing else is written (R250). -/
def jump {n : Nat} (c : BitVec 3) (i : BitVec n) (s : State) : Result :=
  if condHolds c s.acc then .next { s with pc := wrap ((s.pc.toNat : Int) + simm i) } else .next (nextPc s)

end Sys2Proof.Machine
end

