-- ==== Sys2Proof/Machine/Compute.lean ====
section
/-! DEFINITION. The COMPUTE instructions of both variants (`40_compute.md`): each meaning gives its function, its destination
and its operand to one of the shared shapes of `Machine/Alu.lean`. -/

namespace Sys2Proof.Machine

/-- `SUBI D i` (TI): `val(D)` and the sign-extended immediate through SUB. `40_compute.md` R161. -/
def execTiSubi (d : Reg) (i : BitVec 24) (s : State) : Result :=
  compute .sub d (simm i) s

/-- `ADDI D i` (TI): `val(D)` and the sign-extended immediate through ADD. `40_compute.md` R162. -/
def execTiAddi (d : Reg) (i : BitVec 24) (s : State) : Result :=
  compute .add d (simm i) s

/-- `XNORI D i` (TI): `val(D)` and the sign-extended immediate through XNOR. `40_compute.md` R163. -/
def execTiXnori (d : Reg) (i : BitVec 24) (s : State) : Result :=
  compute .xnor d (simm i) s

/-- `ORI D i` (TI): `val(D)` and the sign-extended immediate through OR. `40_compute.md` R164. -/
def execTiOri (d : Reg) (i : BitVec 24) (s : State) : Result :=
  compute .or d (simm i) s

/-- `ANDI D i` (TI): `val(D)` and the sign-extended immediate through AND. `40_compute.md` R165. -/
def execTiAndi (d : Reg) (i : BitVec 24) (s : State) : Result :=
  compute .and d (simm i) s

/-- `SUB D i` (TI): `val(D)` and the cell at `EA_direct(i)`, read signed, through SUB. `40_compute.md` R166. -/
def execTiSub (d : Reg) (i : BitVec 24) (s : State) : Result :=
  computeTiMem .sub d i s

/-- `ADD D i` (TI): `val(D)` and the cell at `EA_direct(i)`, read signed, through ADD. `40_compute.md` R167. -/
def execTiAdd (d : Reg) (i : BitVec 24) (s : State) : Result :=
  computeTiMem .add d i s

/-- `XNOR D i` (TI): `val(D)` and the cell at `EA_direct(i)`, read signed, through XNOR. `40_compute.md` R168. -/
def execTiXnor (d : Reg) (i : BitVec 24) (s : State) : Result :=
  computeTiMem .xnor d i s

/-- `OR D i` (TI): `val(D)` and the cell at `EA_direct(i)`, read signed, through OR. `40_compute.md` R169. -/
def execTiOr (d : Reg) (i : BitVec 24) (s : State) : Result :=
  computeTiMem .or d i s

/-- `AND D i` (TI): `val(D)` and the cell at `EA_direct(i)`, read signed, through AND. `40_compute.md` R170. -/
def execTiAnd (d : Reg) (i : BitVec 24) (s : State) : Result :=
  computeTiMem .and d i s

/-- `MULI D i` (OS): `val(D)` and the sign-extended immediate through MUL. `40_compute.md` R171. -/
def execOsMuli (d : Reg) (i : BitVec 22) (s : State) : Result :=
  compute .mul d (simm i) s

/-- `DIVI D i` (OS): `val(D)` and the sign-extended immediate through DIV. `40_compute.md` R172. -/
def execOsDivi (d : Reg) (i : BitVec 22) (s : State) : Result :=
  compute .div d (simm i) s

/-- `SUBI D i` (OS): `val(D)` and the sign-extended immediate through SUB. `40_compute.md` R161. -/
def execOsSubi (d : Reg) (i : BitVec 22) (s : State) : Result :=
  compute .sub d (simm i) s

/-- `ADDI D i` (OS): `val(D)` and the sign-extended immediate through ADD. `40_compute.md` R162. -/
def execOsAddi (d : Reg) (i : BitVec 22) (s : State) : Result :=
  compute .add d (simm i) s

/-- `XNORI D i` (OS): `val(D)` and the sign-extended immediate through XNOR. `40_compute.md` R163. -/
def execOsXnori (d : Reg) (i : BitVec 22) (s : State) : Result :=
  compute .xnor d (simm i) s

/-- `ORI D i` (OS): `val(D)` and the sign-extended immediate through OR. `40_compute.md` R164. -/
def execOsOri (d : Reg) (i : BitVec 22) (s : State) : Result :=
  compute .or d (simm i) s

/-- `ANDI D i` (OS): `val(D)` and the sign-extended immediate through AND. `40_compute.md` R165. -/
def execOsAndi (d : Reg) (i : BitVec 22) (s : State) : Result :=
  compute .and d (simm i) s

/-- `MODI D i` (OS): `val(D)` and the sign-extended immediate through MOD. `40_compute.md` R173. -/
def execOsModi (d : Reg) (i : BitVec 22) (s : State) : Result :=
  compute .mod d (simm i) s

/-- `MUL D i` (OS): `val(D)` and the cell at `EA_direct(i)`, read signed, through MUL. `40_compute.md` R174. -/
def execOsMul (d : Reg) (i : BitVec 22) (s : State) : Result :=
  computeOsMem .mul d i s

/-- `DIV D i` (OS): `val(D)` and the cell at `EA_direct(i)`, read signed, through DIV. `40_compute.md` R175. -/
def execOsDiv (d : Reg) (i : BitVec 22) (s : State) : Result :=
  computeOsMem .div d i s

/-- `SUB D i` (OS): `val(D)` and the cell at `EA_direct(i)`, read signed, through SUB. `40_compute.md` R166. -/
def execOsSub (d : Reg) (i : BitVec 22) (s : State) : Result :=
  computeOsMem .sub d i s

/-- `ADD D i` (OS): `val(D)` and the cell at `EA_direct(i)`, read signed, through ADD. `40_compute.md` R167. -/
def execOsAdd (d : Reg) (i : BitVec 22) (s : State) : Result :=
  computeOsMem .add d i s

/-- `XNOR D i` (OS): `val(D)` and the cell at `EA_direct(i)`, read signed, through XNOR. `40_compute.md` R168. -/
def execOsXnor (d : Reg) (i : BitVec 22) (s : State) : Result :=
  computeOsMem .xnor d i s

/-- `OR D i` (OS): `val(D)` and the cell at `EA_direct(i)`, read signed, through OR. `40_compute.md` R169. -/
def execOsOr (d : Reg) (i : BitVec 22) (s : State) : Result :=
  computeOsMem .or d i s

/-- `AND D i` (OS): `val(D)` and the cell at `EA_direct(i)`, read signed, through AND. `40_compute.md` R170. -/
def execOsAnd (d : Reg) (i : BitVec 22) (s : State) : Result :=
  computeOsMem .and d i s

/-- `MOD D i` (OS): `val(D)` and the cell at `EA_direct(i)`, read signed, through MOD. `40_compute.md` R176. -/
def execOsMod (d : Reg) (i : BitVec 22) (s : State) : Result :=
  computeOsMem .mod d i s

/-- `MUL D S` (OS): `val(D)` and `val(S)` through MUL. `40_compute.md` R182. -/
def execOsMulReg (d : Reg) (r : Reg) (s : State) : Result :=
  computeOsReg .mul d r s

/-- `DIV D S` (OS): `val(D)` and `val(S)` through DIV. `40_compute.md` R183. -/
def execOsDivReg (d : Reg) (r : Reg) (s : State) : Result :=
  computeOsReg .div d r s

/-- `SUB D S` (OS): `val(D)` and `val(S)` through SUB. `40_compute.md` R177. -/
def execOsSubReg (d : Reg) (r : Reg) (s : State) : Result :=
  computeOsReg .sub d r s

/-- `ADD D S` (OS): `val(D)` and `val(S)` through ADD. `40_compute.md` R178. -/
def execOsAddReg (d : Reg) (r : Reg) (s : State) : Result :=
  computeOsReg .add d r s

/-- `XNOR D S` (OS): `val(D)` and `val(S)` through XNOR. `40_compute.md` R179. -/
def execOsXnorReg (d : Reg) (r : Reg) (s : State) : Result :=
  computeOsReg .xnor d r s

/-- `OR D S` (OS): `val(D)` and `val(S)` through OR. `40_compute.md` R180. -/
def execOsOrReg (d : Reg) (r : Reg) (s : State) : Result :=
  computeOsReg .or d r s

/-- `AND D S` (OS): `val(D)` and `val(S)` through AND. `40_compute.md` R181. -/
def execOsAndReg (d : Reg) (r : Reg) (s : State) : Result :=
  computeOsReg .and d r s

/-- `MOD D S` (OS): `val(D)` and `val(S)` through MOD. `40_compute.md` R184. -/
def execOsModReg (d : Reg) (r : Reg) (s : State) : Result :=
  computeOsReg .mod d r s

end Sys2Proof.Machine
end

