-- ==== Sys2Proof/Machine/Jump.lean ====
section
/-! DEFINITION. NOP and the seven JUMPs of both variants (`43_jump.md`), each with its condition mask `C` (`30_encoding.md` R102). -/

namespace Sys2Proof.Machine

/-- `NOP` (TI): ACC is not read. `43_jump.md` R242. -/
def execTiNop (s : State) : Result :=
  .next (nextPc s)

/-- `JUMP> i` (TI): jumps when `s(ACC) > 0`. `43_jump.md` R243. -/
def execTiJumpGt (i : BitVec 24) (s : State) : Result :=
  jump 0b001#3 i s

/-- `JUMP= i` (TI): jumps when `ACC = 0`. `43_jump.md` R244. -/
def execTiJumpEq (i : BitVec 24) (s : State) : Result :=
  jump 0b010#3 i s

/-- `JUMP>= i` (TI): jumps when `s(ACC) ≥ 0`. `43_jump.md` R245. -/
def execTiJumpGe (i : BitVec 24) (s : State) : Result :=
  jump 0b011#3 i s

/-- `JUMP< i` (TI): jumps when `s(ACC) < 0`. `43_jump.md` R246. -/
def execTiJumpLt (i : BitVec 24) (s : State) : Result :=
  jump 0b100#3 i s

/-- `JUMP!= i` (TI): jumps when `ACC ≠ 0`. `43_jump.md` R247. -/
def execTiJumpNe (i : BitVec 24) (s : State) : Result :=
  jump 0b101#3 i s

/-- `JUMP<= i` (TI): jumps when `s(ACC) ≤ 0`. `43_jump.md` R248. -/
def execTiJumpLe (i : BitVec 24) (s : State) : Result :=
  jump 0b110#3 i s

/-- `JUMP i` (TI): always jumps. `43_jump.md` R249. -/
def execTiJump (i : BitVec 24) (s : State) : Result :=
  jump 0b111#3 i s

/-- `NOP` (OS): ACC is not read. `43_jump.md` R242. -/
def execOsNop (s : State) : Result :=
  .next (nextPc s)

/-- `JUMP> i` (OS): jumps when `s(ACC) > 0`. `43_jump.md` R243. -/
def execOsJumpGt (i : BitVec 22) (s : State) : Result :=
  jump 0b001#3 i s

/-- `JUMP= i` (OS): jumps when `ACC = 0`. `43_jump.md` R244. -/
def execOsJumpEq (i : BitVec 22) (s : State) : Result :=
  jump 0b010#3 i s

/-- `JUMP>= i` (OS): jumps when `s(ACC) ≥ 0`. `43_jump.md` R245. -/
def execOsJumpGe (i : BitVec 22) (s : State) : Result :=
  jump 0b011#3 i s

/-- `JUMP< i` (OS): jumps when `s(ACC) < 0`. `43_jump.md` R246. -/
def execOsJumpLt (i : BitVec 22) (s : State) : Result :=
  jump 0b100#3 i s

/-- `JUMP!= i` (OS): jumps when `ACC ≠ 0`. `43_jump.md` R247. -/
def execOsJumpNe (i : BitVec 22) (s : State) : Result :=
  jump 0b101#3 i s

/-- `JUMP<= i` (OS): jumps when `s(ACC) ≤ 0`. `43_jump.md` R248. -/
def execOsJumpLe (i : BitVec 22) (s : State) : Result :=
  jump 0b110#3 i s

/-- `JUMP i` (OS): always jumps. `43_jump.md` R249. -/
def execOsJump (i : BitVec 22) (s : State) : Result :=
  jump 0b111#3 i s

end Sys2Proof.Machine
end

