-- ==== Sys2Proof/Machine/Load.lean ====
section
/-! DEFINITION. The LOAD instructions of both variants (`41_load.md`). The address and the cell are read from the state before the
step, so the destination may be the base register (R200). -/

namespace Sys2Proof.Machine

/-- `LOAD D i` (TI): the cell at `EA_direct(i)`. `41_load.md` R201. -/
def execTiLoad (d : Reg) (i : BitVec 24) (s : State) : Result :=
  loadTi d (eaDirectTi i) s

/-- `LOADIN1 D i` (TI): the cell at `IN1 + simm`. `41_load.md` R202. -/
def execTiLoadin1 (d : Reg) (i : BitVec 24) (s : State) : Result :=
  loadTi d (eaIndexed s.in1 i) s

/-- `LOADIN2 D i` (TI): the cell at `IN2 + simm`. `41_load.md` R203. -/
def execTiLoadin2 (d : Reg) (i : BitVec 24) (s : State) : Result :=
  loadTi d (eaIndexed s.in2 i) s

/-- `LOADI D i` (TI): the sign-extended immediate. `41_load.md` R205. -/
def execTiLoadi (d : Reg) (i : BitVec 24) (s : State) : Result :=
  .next (writeBack d (wrap (simm i)) s)

/-- `LOAD D i` (OS): the cell at `EA_direct(i)`. `41_load.md` R201. -/
def execOsLoad (d : Reg) (i : BitVec 22) (s : State) : Result :=
  loadOs d (eaDirectOs s i) s

/-- `LOADIN S D i` (OS): the cell at `x[S] + simm`, with no DS fill. `41_load.md` R204. -/
def execOsLoadin (r : Reg) (d : Reg) (i : BitVec 22) (s : State) : Result :=
  loadOs d (eaIndexed (readReg s r) i) s

/-- `LOADI D i` (OS): the sign-extended immediate. `41_load.md` R205. -/
def execOsLoadi (d : Reg) (i : BitVec 22) (s : State) : Result :=
  .next (writeBack d (wrap (simm i)) s)

end Sys2Proof.Machine
end

