-- ==== Sys2Proof/Machine/Store.lean ====
section
/-! DEFINITION. The STORE and MOVE instructions of both variants (`42_store_move.md`). Address and value are both read from the
state before the step (R220). -/

namespace Sys2Proof.Machine

/-- `STORE i` (TI): ACC to the cell at `EA_direct(i)`. `42_store_move.md` R221. -/
def execTiStore (i : BitVec 24) (s : State) : Result :=
  storeTi (eaDirectTi i) s

/-- `STOREIN1 i` (TI): ACC to the cell at `IN1 + simm`. `42_store_move.md` R222. -/
def execTiStorein1 (i : BitVec 24) (s : State) : Result :=
  storeTi (eaIndexed s.in1 i) s

/-- `STOREIN2 i` (TI): ACC to the cell at `IN2 + simm`. `42_store_move.md` R223. -/
def execTiStorein2 (i : BitVec 24) (s : State) : Result :=
  storeTi (eaIndexed s.in2 i) s

/-- `MOVE S D` (TI). `42_store_move.md` R226. -/
def execTiMove (r : Reg) (d : Reg) (s : State) : Result :=
  moveReg r d s

/-- `STORE S i` (OS): `x[S]` to the cell at `EA_direct(i)`. `42_store_move.md` R224. -/
def execOsStore (r : Reg) (i : BitVec 22) (s : State) : Result :=
  storeOs (eaDirectOs s i) (readReg s r) s

/-- `STOREIN D S i` (OS): `x[S]` to the cell at `x[D] + simm`, with no DS fill. `42_store_move.md` R225. -/
def execOsStorein (d : Reg) (r : Reg) (i : BitVec 22) (s : State) : Result :=
  storeOs (eaIndexed (readReg s d) i) (readReg s r) s

/-- `MOVE S D` (OS). `42_store_move.md` R227. -/
def execOsMove (r : Reg) (d : Reg) (s : State) : Result :=
  moveReg r d s

end Sys2Proof.Machine
end

