-- ==== Sys2Proof/Machine/System.lean ====
section
/-! DEFINITION. The OS software interrupt and the return from it (`44_os_int_rti.md`): no privilege is needed and no memory is
touched (R260). -/

namespace Sys2Proof.Machine

/-- `INT i` (OS): trap through vector `uimm`. `44_os_int_rti.md` R261. -/
def execOsInt (i : BitVec 22) (s : State) : Result :=
  .next (trapEnter (uimm i) s)

/-- `RTI` (OS): trap return. `44_os_int_rti.md` R262. -/
def execOsRti (s : State) : Result :=
  match trapReturn s with
  | .ok t => .next t
  | .error e => .fault e

end Sys2Proof.Machine
end

