-- ==== Sys2Proof/Machine/Dispatch.lean ====
section
/-! DEFINITION. Dispatch (`45_step_and_interface.md` R282): the decoded record selects the meaning. -/

namespace Sys2Proof.Machine
open Sys2Proof

def exec (i : Instr) (s : State) : Host.Outcome State Fault Refusal :=
  match i with
  | .tiSubi d imm => Sys2Proof.Machine.execTiSubi d imm s
  | .tiAddi d imm => Sys2Proof.Machine.execTiAddi d imm s
  | .tiXnori d imm => Sys2Proof.Machine.execTiXnori d imm s
  | .tiOri d imm => Sys2Proof.Machine.execTiOri d imm s
  | .tiAndi d imm => Sys2Proof.Machine.execTiAndi d imm s
  | .tiSub d imm => Sys2Proof.Machine.execTiSub d imm s
  | .tiAdd d imm => Sys2Proof.Machine.execTiAdd d imm s
  | .tiXnor d imm => Sys2Proof.Machine.execTiXnor d imm s
  | .tiOr d imm => Sys2Proof.Machine.execTiOr d imm s
  | .tiAnd d imm => Sys2Proof.Machine.execTiAnd d imm s
  | .tiLoad d imm => Sys2Proof.Machine.execTiLoad d imm s
  | .tiLoadin1 d imm => Sys2Proof.Machine.execTiLoadin1 d imm s
  | .tiLoadin2 d imm => Sys2Proof.Machine.execTiLoadin2 d imm s
  | .tiLoadi d imm => Sys2Proof.Machine.execTiLoadi d imm s
  | .tiStore imm => Sys2Proof.Machine.execTiStore imm s
  | .tiStorein1 imm => Sys2Proof.Machine.execTiStorein1 imm s
  | .tiStorein2 imm => Sys2Proof.Machine.execTiStorein2 imm s
  | .tiMove r d => Sys2Proof.Machine.execTiMove r d s
  | .tiNop => Sys2Proof.Machine.execTiNop s
  | .tiJumpGt imm => Sys2Proof.Machine.execTiJumpGt imm s
  | .tiJumpEq imm => Sys2Proof.Machine.execTiJumpEq imm s
  | .tiJumpGe imm => Sys2Proof.Machine.execTiJumpGe imm s
  | .tiJumpLt imm => Sys2Proof.Machine.execTiJumpLt imm s
  | .tiJumpNe imm => Sys2Proof.Machine.execTiJumpNe imm s
  | .tiJumpLe imm => Sys2Proof.Machine.execTiJumpLe imm s
  | .tiJump imm => Sys2Proof.Machine.execTiJump imm s
  | .osMuli d imm => Sys2Proof.Machine.execOsMuli d imm s
  | .osDivi d imm => Sys2Proof.Machine.execOsDivi d imm s
  | .osSubi d imm => Sys2Proof.Machine.execOsSubi d imm s
  | .osAddi d imm => Sys2Proof.Machine.execOsAddi d imm s
  | .osXnori d imm => Sys2Proof.Machine.execOsXnori d imm s
  | .osOri d imm => Sys2Proof.Machine.execOsOri d imm s
  | .osAndi d imm => Sys2Proof.Machine.execOsAndi d imm s
  | .osModi d imm => Sys2Proof.Machine.execOsModi d imm s
  | .osMul d imm => Sys2Proof.Machine.execOsMul d imm s
  | .osDiv d imm => Sys2Proof.Machine.execOsDiv d imm s
  | .osSub d imm => Sys2Proof.Machine.execOsSub d imm s
  | .osAdd d imm => Sys2Proof.Machine.execOsAdd d imm s
  | .osXnor d imm => Sys2Proof.Machine.execOsXnor d imm s
  | .osOr d imm => Sys2Proof.Machine.execOsOr d imm s
  | .osAnd d imm => Sys2Proof.Machine.execOsAnd d imm s
  | .osMod d imm => Sys2Proof.Machine.execOsMod d imm s
  | .osMulReg d r => Sys2Proof.Machine.execOsMulReg d r s
  | .osDivReg d r => Sys2Proof.Machine.execOsDivReg d r s
  | .osSubReg d r => Sys2Proof.Machine.execOsSubReg d r s
  | .osAddReg d r => Sys2Proof.Machine.execOsAddReg d r s
  | .osXnorReg d r => Sys2Proof.Machine.execOsXnorReg d r s
  | .osOrReg d r => Sys2Proof.Machine.execOsOrReg d r s
  | .osAndReg d r => Sys2Proof.Machine.execOsAndReg d r s
  | .osModReg d r => Sys2Proof.Machine.execOsModReg d r s
  | .osLoad d imm => Sys2Proof.Machine.execOsLoad d imm s
  | .osLoadin r d imm => Sys2Proof.Machine.execOsLoadin r d imm s
  | .osLoadi d imm => Sys2Proof.Machine.execOsLoadi d imm s
  | .osStore r imm => Sys2Proof.Machine.execOsStore r imm s
  | .osStorein d r imm => Sys2Proof.Machine.execOsStorein d r imm s
  | .osMove r d => Sys2Proof.Machine.execOsMove r d s
  | .osNop => Sys2Proof.Machine.execOsNop s
  | .osJumpGt imm => Sys2Proof.Machine.execOsJumpGt imm s
  | .osJumpEq imm => Sys2Proof.Machine.execOsJumpEq imm s
  | .osJumpGe imm => Sys2Proof.Machine.execOsJumpGe imm s
  | .osJumpLt imm => Sys2Proof.Machine.execOsJumpLt imm s
  | .osJumpNe imm => Sys2Proof.Machine.execOsJumpNe imm s
  | .osJumpLe imm => Sys2Proof.Machine.execOsJumpLe imm s
  | .osJump imm => Sys2Proof.Machine.execOsJump imm s
  | .osInt imm => Sys2Proof.Machine.execOsInt imm s
  | .osRti => Sys2Proof.Machine.execOsRti s

end Sys2Proof.Machine
end

