-- ==== Sys2Proof/Machine/Step.lean ====
section
/-! DEFINITION. The step relation (`45_step_and_interface.md` R281). -/

namespace Sys2Proof.Machine

/-- `step()` (`45_step_and_interface.md` R281). A `Faulted` core returns its fault again (step 1). A program counter
outside the valid code range gives the outcome `Terminated`, which is not an error: it is a next state that differs in
`status` only (step 2, log 6). Otherwise one instruction is fetched, decoded and run (steps 3 to 5); its writes are
committed together with register `I` (step 6), or a fault discards them all (step 7, log 7). -/
def step (s : State) : Host.Outcome State Fault Refusal :=
  match s.status with
  | .faulted c => .fault c
  | _ =>
    if validPC s then
      match fetch s with
      | .error e => .fault e
      | .ok (w, s1) =>
        match decode s.config.variant w with
        | .error _ => .fault .illegalInstruction
        | .ok i =>
          match exec i s1 with
          | .next t => .next (commit w t)
          | .fault e => .fault e
          | .refused r => .refused r
    else .next { s with status := .terminated }

/-- `s` with an instruction whose bits are `w`, the bits from `nbits` up zero, where the next step fetches: it stands for
the load of a program (log 2). -/
def State.withFetchWord (s : State) (nbits w : Nat) : State :=
  placeWord s (BitVec.ofNat 32 (w % 2 ^ nbits))

end Sys2Proof.Machine
end

