-- ==== Sys2Proof/Machine/Text.lean ====
section
/-! DEFINITION. The characters of the text form (`30_encoding.md` R111 to R114): a line and its tokens, upper case, register
names, and numeric literals read and written. Text is a list of characters. -/

namespace Sys2Proof.Machine

/-- A line of text, or one token of it. -/
abbrev Text := List Char

/-! ## Lines and tokens -/

/-- White space between tokens (`30_encoding.md` R111). DESIGN CHOICE (log 16): space and the control characters tab,
line feed, vertical tab, form feed, carriage return. -/
def isSpace (c : Char) : Bool :=
  c.toNat == 32 || (decide (9 ≤ c.toNat) && decide (c.toNat ≤ 13))

/-- The part of a line before the comment delimiter (`30_encoding.md` R111). -/
def stripComment (delimiter : Char) : Text → Text
  | [] => []
  | c :: rest => if c = delimiter then [] else c :: stripComment delimiter rest

/-- A token put before others, unless it is empty. -/
def consToken (token : Text) (tokens : List Text) : List Text :=
  match token with
  | [] => tokens
  | c :: rest => (c :: rest) :: tokens

/-- The characters before the first white space, and the tokens after it: together a line split on white space. -/
def splitAux : Text → Text × List Text
  | [] => ([], [])
  | c :: rest =>
    if isSpace c then ([], consToken (splitAux rest).1 (splitAux rest).2)
    else (c :: (splitAux rest).1, (splitAux rest).2)

/-- The tokens of a line: it is split "on whitespace" (`30_encoding.md` R111); no token is empty. -/
def splitTokens (line : Text) : List Text :=
  consToken (splitAux line).1 (splitAux line).2

/-- An ASCII letter in upper case, any other character unchanged (`30_encoding.md` R112). -/
def upperChar (c : Char) : Char :=
  if 97 ≤ c.toNat ∧ c.toNat ≤ 122 then Char.ofNat (c.toNat - 32) else c

/-- A token in upper case (`30_encoding.md` R112). -/
def upper (t : Text) : Text :=
  t.map upperChar

/-! ## Register names -/

/-- The name of a register (`30_encoding.md` R113). -/
def regName (r : Reg) : Text :=
  match r with
  | .pc => "PC".toList
  | .in1 => "IN1".toList
  | .in2 => "IN2".toList
  | .acc => "ACC".toList
  | .sp => "SP".toList
  | .baf => "BAF".toList
  | .cs => "CS".toList
  | .ds => "DS".toList

/-- The registers of a variant, in the order of their numbers (`10_state.md` R21). -/
def regsOf (v : Variant) : List Reg :=
  match v with
  | .ti => [.pc, .in1, .in2, .acc]
  | .os => [.pc, .in1, .in2, .acc, .sp, .baf, .cs, .ds]

/-- A register operand: one of the names of the variant (`30_encoding.md` R113). `I` is no register name. -/
def parseReg (v : Variant) (t : Text) : Option Reg :=
  (regsOf v).find? (fun r => regName r == t)

/-- The host's mapping from a register name to its accessor index (`45_step_and_interface.md` R290): the names of R113, and
`I` for index 8 in the OS variant. DESIGN CHOICE (log 22): the name is upper-cased first, as R112 does for the tokens of
`encode`; R290 does not say whether case counts here. -/
def indexOfName (v : Variant) (t : Text) : Option Nat :=
  match parseReg v (upper t) with
  | some r => some r.code3.toNat
  | none => if v = .os ∧ upper t = "I".toList then some 8 else none

/-! ## Numeric literals -/

/-- The value of an upper-case digit, up to 15. -/
def digitValue (c : Char) : Option Nat :=
  if 48 ≤ c.toNat ∧ c.toNat ≤ 57 then some (c.toNat - 48)
  else if 65 ≤ c.toNat ∧ c.toNat ≤ 70 then some (c.toNat - 55)
  else none

/-- The digits of `t` in a base, read after the value `acc`; none where a character is no digit of the base. -/
def digitsValue (base : Nat) : Text → Nat → Option Nat
  | [], acc => some acc
  | c :: rest, acc =>
    match digitValue c with
    | some d => if d < base then digitsValue base rest (acc * base + d) else none
    | none => none

/-- One digit or more in a base (the grammar's `[…]+`). -/
def parseDigits (base : Nat) (t : Text) : Option Nat :=
  match t with
  | [] => none
  | c :: rest => digitsValue base (c :: rest) 0

/-- `decimal | hex | binary` of `30_encoding.md` R114, on upper-cased text. -/
def parseUnsigned (t : Text) : Option Nat :=
  match t with
  | '0' :: 'X' :: rest => parseDigits 16 rest
  | '0' :: 'B' :: rest => parseDigits 2 rest
  | t => parseDigits 10 t

/-- `number` of `30_encoding.md` R114: the integer a literal denotes, of any size. -/
def parseNumber (t : Text) : Option Int :=
  match t with
  | '+' :: rest => (parseUnsigned rest).map Int.ofNat
  | '-' :: rest => (parseUnsigned rest).map (fun n => -Int.ofNat n)
  | t => (parseUnsigned t).map Int.ofNat

/-- The decimal digits of `n`, written before `acc`; `fuel` bounds their number. -/
def decimalAux : Nat → Nat → Text → Text
  | 0, _, acc => acc
  | fuel + 1, n, acc =>
    let more := Char.ofNat (48 + n % 10) :: acc
    if n / 10 = 0 then more else decimalAux fuel (n / 10) more

/-- A natural number in decimal (`30_encoding.md` R109: `<uimm>` is never negative). -/
def decimal (n : Nat) : Text :=
  decimalAux (n + 1) n []

/-- An integer in decimal, with a leading `-` when negative (`30_encoding.md` R109: `<simm>`). -/
def signedDecimal (z : Int) : Text :=
  match z with
  | .ofNat n => decimal n
  | .negSucc n => '-' :: decimal (n + 1)

end Sys2Proof.Machine
end

