-- ==== Sys2Proof/Machine/Assembler.lean ====
section
/-! DEFINITION. `encode` of the codec (`30_encoding.md` R115 to R120): from the tokens of a line to a status and a word, and
the line form it is fed from (R111). -/

namespace Sys2Proof.Machine

/-- The statuses of `30_encoding.md` R119. -/
inductive EncodeStatus where
  | ok
  | errUnknownMnemonic
  | errOperandCount
  | errBadRegister
  | errBadNumber
deriving DecidableEq, Repr

/-- What `encode` returns (`30_encoding.md` R118, R119): no word on a failure. The text of the message is not fixed; the
model leaves it empty (log 15). -/
structure EncodeResult where
  status : EncodeStatus
  word : Option Word
  message : Text
deriving DecidableEq, Repr

/-- The operands a mnemonic takes, in text order, and the instruction they make (`30_encoding.md` R115, R116). `n` is the
width of the operand field. -/
inductive TextForm (n : Nat) where
  /-- `D:reg i:num`. -/
  | regNum (make : Reg → BitVec n → Instr)
  /-- `D:reg i:num`, or `D:reg S:reg` when the second operand is a register name (OS, R116). -/
  | regNumOrReg (makeNum : Reg → BitVec n → Instr) (makeReg : Reg → Reg → Instr)
  /-- `reg reg`. -/
  | regReg (make : Reg → Reg → Instr)
  /-- `reg reg num`. -/
  | regRegNum (make : Reg → Reg → BitVec n → Instr)
  /-- `num`. -/
  | num (make : BitVec n → Instr)
  /-- No operand. -/
  | none (make : Instr)

/-- The condition suffixes of a JUMP after upper-casing (`30_encoding.md` R117), each with the instruction it selects among
the seven given. -/
def jumpSpellings {n : Nat} (gt eq ge lt ne le always : BitVec n → Instr) : List (Text × TextForm n) :=
  [("JUMP>".toList, .num gt), ("JUMPGT".toList, .num gt),
   ("JUMP=".toList, .num eq), ("JUMPEQ".toList, .num eq),
   ("JUMP>=".toList, .num ge), ("JUMPGEQ".toList, .num ge), ("JUMP≥".toList, .num ge),
   ("JUMP<".toList, .num lt), ("JUMPLT".toList, .num lt),
   ("JUMP!=".toList, .num ne), ("JUMPNEQ".toList, .num ne), ("JUMP≠".toList, .num ne),
   ("JUMP<=".toList, .num le), ("JUMPLEQ".toList, .num le), ("JUMP≤".toList, .num le),
   ("JUMP".toList, .num always)]

/-- The mnemonic table of the TI variant (`30_encoding.md` R115). -/
def tiForms : List (Text × TextForm 24) :=
  [("SUBI".toList, .regNum .tiSubi), ("ADDI".toList, .regNum .tiAddi), ("XNORI".toList, .regNum .tiXnori),
   ("ORI".toList, .regNum .tiOri), ("ANDI".toList, .regNum .tiAndi),
   ("SUB".toList, .regNum .tiSub), ("ADD".toList, .regNum .tiAdd), ("XNOR".toList, .regNum .tiXnor),
   ("OR".toList, .regNum .tiOr), ("AND".toList, .regNum .tiAnd),
   ("LOAD".toList, .regNum .tiLoad), ("LOADIN1".toList, .regNum .tiLoadin1),
   ("LOADIN2".toList, .regNum .tiLoadin2), ("LOADI".toList, .regNum .tiLoadi),
   ("STORE".toList, .num .tiStore), ("STOREIN1".toList, .num .tiStorein1),
   ("STOREIN2".toList, .num .tiStorein2), ("MOVE".toList, .regReg .tiMove),
   ("NOP".toList, .none .tiNop)] ++
  jumpSpellings .tiJumpGt .tiJumpEq .tiJumpGe .tiJumpLt .tiJumpNe .tiJumpLe .tiJump

/-- The mnemonic table of the OS variant (`30_encoding.md` R116). -/
def osForms : List (Text × TextForm 22) :=
  [("MULI".toList, .regNum .osMuli), ("DIVI".toList, .regNum .osDivi), ("SUBI".toList, .regNum .osSubi),
   ("ADDI".toList, .regNum .osAddi), ("XNORI".toList, .regNum .osXnori), ("ORI".toList, .regNum .osOri),
   ("ANDI".toList, .regNum .osAndi), ("MODI".toList, .regNum .osModi),
   ("MUL".toList, .regNumOrReg .osMul .osMulReg), ("DIV".toList, .regNumOrReg .osDiv .osDivReg),
   ("SUB".toList, .regNumOrReg .osSub .osSubReg), ("ADD".toList, .regNumOrReg .osAdd .osAddReg),
   ("XNOR".toList, .regNumOrReg .osXnor .osXnorReg), ("OR".toList, .regNumOrReg .osOr .osOrReg),
   ("AND".toList, .regNumOrReg .osAnd .osAndReg), ("MOD".toList, .regNumOrReg .osMod .osModReg),
   ("LOAD".toList, .regNum .osLoad), ("LOADIN".toList, .regRegNum .osLoadin), ("LOADI".toList, .regNum .osLoadi),
   ("STORE".toList, .regNum .osStore), ("STOREIN".toList, .regRegNum .osStorein), ("MOVE".toList, .regReg .osMove),
   ("NOP".toList, .none .osNop), ("INT".toList, .num .osInt), ("RTI".toList, .none .osRti)] ++
  jumpSpellings .osJumpGt .osJumpEq .osJumpGe .osJumpLt .osJumpNe .osJumpLe .osJump

/-- A register operand, or the status of `30_encoding.md` R118 step 5. -/
def regOperand (v : Variant) (t : Text) : Except EncodeStatus Reg :=
  match parseReg v t with
  | some r => .ok r
  | none => .error .errBadRegister

/-- A numeric operand as a field value: a number of any size is accepted and reduced modulo `2^IMMW`
(`30_encoding.md` R120). -/
def numOperand (n : Nat) (t : Text) : Except EncodeStatus (BitVec n) :=
  match parseNumber t with
  | some z => .ok (BitVec.ofInt n z)
  | none => .error .errBadNumber

/-- The operands of a form, checked left to right (`30_encoding.md` R118 step 5); a count that is not the form's fails
first (step 4). -/
def buildInstr {n : Nat} (v : Variant) (f : TextForm n) (operands : List Text) : Except EncodeStatus Instr :=
  match f, operands with
  | .regNum make, [a, b] =>
    match regOperand v a with
    | .error e => .error e
    | .ok d =>
      match numOperand n b with
      | .error e => .error e
      | .ok i => .ok (make d i)
  | .regNumOrReg makeNum makeReg, [a, b] =>
    match regOperand v a with
    | .error e => .error e
    | .ok d =>
      match parseReg v b with
      | some s => .ok (makeReg d s)
      | none =>
        match numOperand n b with
        | .error e => .error e
        | .ok i => .ok (makeNum d i)
  | .regReg make, [a, b] =>
    match regOperand v a with
    | .error e => .error e
    | .ok r =>
      match regOperand v b with
      | .error e => .error e
      | .ok d => .ok (make r d)
  | .regRegNum make, [a, b, c] =>
    match regOperand v a with
    | .error e => .error e
    | .ok r =>
      match regOperand v b with
      | .error e => .error e
      | .ok d =>
        match numOperand n c with
        | .error e => .error e
        | .ok i => .ok (make r d i)
  | .num make, [a] =>
    match numOperand n a with
    | .error e => .error e
    | .ok i => .ok (make i)
  | .none make, [] => .ok make
  | _, _ => .error .errOperandCount

/-- Steps 3 to 6 of `30_encoding.md` R118 with the table of one variant: the first failing check decides the status. -/
def encodeWith {n : Nat} (v : Variant) (forms : List (Text × TextForm n)) (tokens : List Text) : EncodeResult :=
  match tokens with
  | [] => { status := .errUnknownMnemonic, word := none, message := [] }
  | mnemonic :: operands =>
    match forms.lookup mnemonic with
    | none => { status := .errUnknownMnemonic, word := none, message := [] }
    | some f =>
      match buildInstr v f operands with
      | .ok i => { status := .ok, word := some (encode i), message := [] }
      | .error e => { status := e, word := none, message := [] }

/-- `encode(VARIANT, tokens)` (`30_encoding.md` R118): every token is upper-cased first (step 2). -/
def encodeTokens (v : Variant) (tokens : List Text) : EncodeResult :=
  match v with
  | .ti => encodeWith .ti tiForms (tokens.map upper)
  | .os => encodeWith .os osForms (tokens.map upper)

/-- One line of source text (`30_encoding.md` R111): the comment is stripped, the rest split on white space; an empty or
comment-only line is not passed to `encode`. -/
def encodeLine (v : Variant) (delimiter : Char) (line : Text) : Option EncodeResult :=
  match splitTokens (stripComment delimiter line) with
  | [] => none
  | t :: rest => some (encodeTokens v (t :: rest))

end Sys2Proof.Machine
end

