-- ==== Sys2Proof/Machine/Disassembler.lean ====
section
/-! DEFINITION. `decode` of the codec as the host sees it (`30_encoding.md` R109, R110): the canonical text of a word, and
its record. -/

namespace Sys2Proof.Machine

/-- The one canonical mnemonic of an instruction (`30_encoding.md` R109, R122). -/
def mnemonic (i : Instr) : Text :=
  match i with
  | .tiSubi _ _ => "SUBI".toList
  | .tiAddi _ _ => "ADDI".toList
  | .tiXnori _ _ => "XNORI".toList
  | .tiOri _ _ => "ORI".toList
  | .tiAndi _ _ => "ANDI".toList
  | .tiSub _ _ => "SUB".toList
  | .tiAdd _ _ => "ADD".toList
  | .tiXnor _ _ => "XNOR".toList
  | .tiOr _ _ => "OR".toList
  | .tiAnd _ _ => "AND".toList
  | .tiLoad _ _ => "LOAD".toList
  | .tiLoadin1 _ _ => "LOADIN1".toList
  | .tiLoadin2 _ _ => "LOADIN2".toList
  | .tiLoadi _ _ => "LOADI".toList
  | .tiStore _ => "STORE".toList
  | .tiStorein1 _ => "STOREIN1".toList
  | .tiStorein2 _ => "STOREIN2".toList
  | .tiMove _ _ => "MOVE".toList
  | .tiNop => "NOP".toList
  | .tiJumpGt _ => "JUMP>".toList
  | .tiJumpEq _ => "JUMP=".toList
  | .tiJumpGe _ => "JUMP>=".toList
  | .tiJumpLt _ => "JUMP<".toList
  | .tiJumpNe _ => "JUMP!=".toList
  | .tiJumpLe _ => "JUMP<=".toList
  | .tiJump _ => "JUMP".toList
  | .osMuli _ _ => "MULI".toList
  | .osDivi _ _ => "DIVI".toList
  | .osSubi _ _ => "SUBI".toList
  | .osAddi _ _ => "ADDI".toList
  | .osXnori _ _ => "XNORI".toList
  | .osOri _ _ => "ORI".toList
  | .osAndi _ _ => "ANDI".toList
  | .osModi _ _ => "MODI".toList
  | .osMul _ _ => "MUL".toList
  | .osDiv _ _ => "DIV".toList
  | .osSub _ _ => "SUB".toList
  | .osAdd _ _ => "ADD".toList
  | .osXnor _ _ => "XNOR".toList
  | .osOr _ _ => "OR".toList
  | .osAnd _ _ => "AND".toList
  | .osMod _ _ => "MOD".toList
  | .osMulReg _ _ => "MUL".toList
  | .osDivReg _ _ => "DIV".toList
  | .osSubReg _ _ => "SUB".toList
  | .osAddReg _ _ => "ADD".toList
  | .osXnorReg _ _ => "XNOR".toList
  | .osOrReg _ _ => "OR".toList
  | .osAndReg _ _ => "AND".toList
  | .osModReg _ _ => "MOD".toList
  | .osLoad _ _ => "LOAD".toList
  | .osLoadin _ _ _ => "LOADIN".toList
  | .osLoadi _ _ => "LOADI".toList
  | .osStore _ _ => "STORE".toList
  | .osStorein _ _ _ => "STOREIN".toList
  | .osMove _ _ => "MOVE".toList
  | .osNop => "NOP".toList
  | .osJumpGt _ => "JUMP>".toList
  | .osJumpEq _ => "JUMP=".toList
  | .osJumpGe _ => "JUMP>=".toList
  | .osJumpLt _ => "JUMP<".toList
  | .osJumpNe _ => "JUMP!=".toList
  | .osJumpLe _ => "JUMP<=".toList
  | .osJump _ => "JUMP".toList
  | .osInt _ => "INT".toList
  | .osRti => "RTI".toList

/-- The operand texts of an instruction (`30_encoding.md` R109): register names, immediates, offsets and displacements
signed, direct addresses and vector numbers unsigned. -/
def operandTexts (i : Instr) : List Text :=
  match i with
  | .tiSubi d n => [regName d, signedDecimal (simm n)]
  | .tiAddi d n => [regName d, signedDecimal (simm n)]
  | .tiXnori d n => [regName d, signedDecimal (simm n)]
  | .tiOri d n => [regName d, signedDecimal (simm n)]
  | .tiAndi d n => [regName d, signedDecimal (simm n)]
  | .tiSub d n => [regName d, decimal (uimm n)]
  | .tiAdd d n => [regName d, decimal (uimm n)]
  | .tiXnor d n => [regName d, decimal (uimm n)]
  | .tiOr d n => [regName d, decimal (uimm n)]
  | .tiAnd d n => [regName d, decimal (uimm n)]
  | .tiLoad d n => [regName d, decimal (uimm n)]
  | .tiLoadin1 d n => [regName d, signedDecimal (simm n)]
  | .tiLoadin2 d n => [regName d, signedDecimal (simm n)]
  | .tiLoadi d n => [regName d, signedDecimal (simm n)]
  | .tiStore n => [decimal (uimm n)]
  | .tiStorein1 n => [signedDecimal (simm n)]
  | .tiStorein2 n => [signedDecimal (simm n)]
  | .tiMove r d => [regName r, regName d]
  | .tiNop => []
  | .tiJumpGt n => [signedDecimal (simm n)]
  | .tiJumpEq n => [signedDecimal (simm n)]
  | .tiJumpGe n => [signedDecimal (simm n)]
  | .tiJumpLt n => [signedDecimal (simm n)]
  | .tiJumpNe n => [signedDecimal (simm n)]
  | .tiJumpLe n => [signedDecimal (simm n)]
  | .tiJump n => [signedDecimal (simm n)]
  | .osMuli d n => [regName d, signedDecimal (simm n)]
  | .osDivi d n => [regName d, signedDecimal (simm n)]
  | .osSubi d n => [regName d, signedDecimal (simm n)]
  | .osAddi d n => [regName d, signedDecimal (simm n)]
  | .osXnori d n => [regName d, signedDecimal (simm n)]
  | .osOri d n => [regName d, signedDecimal (simm n)]
  | .osAndi d n => [regName d, signedDecimal (simm n)]
  | .osModi d n => [regName d, signedDecimal (simm n)]
  | .osMul d n => [regName d, decimal (uimm n)]
  | .osDiv d n => [regName d, decimal (uimm n)]
  | .osSub d n => [regName d, decimal (uimm n)]
  | .osAdd d n => [regName d, decimal (uimm n)]
  | .osXnor d n => [regName d, decimal (uimm n)]
  | .osOr d n => [regName d, decimal (uimm n)]
  | .osAnd d n => [regName d, decimal (uimm n)]
  | .osMod d n => [regName d, decimal (uimm n)]
  | .osMulReg d r => [regName d, regName r]
  | .osDivReg d r => [regName d, regName r]
  | .osSubReg d r => [regName d, regName r]
  | .osAddReg d r => [regName d, regName r]
  | .osXnorReg d r => [regName d, regName r]
  | .osOrReg d r => [regName d, regName r]
  | .osAndReg d r => [regName d, regName r]
  | .osModReg d r => [regName d, regName r]
  | .osLoad d n => [regName d, decimal (uimm n)]
  | .osLoadin r d n => [regName r, regName d, signedDecimal (simm n)]
  | .osLoadi d n => [regName d, signedDecimal (simm n)]
  | .osStore r n => [regName r, decimal (uimm n)]
  | .osStorein d r n => [regName d, regName r, signedDecimal (simm n)]
  | .osMove r d => [regName r, regName d]
  | .osNop => []
  | .osJumpGt n => [signedDecimal (simm n)]
  | .osJumpEq n => [signedDecimal (simm n)]
  | .osJumpGe n => [signedDecimal (simm n)]
  | .osJumpLt n => [signedDecimal (simm n)]
  | .osJumpNe n => [signedDecimal (simm n)]
  | .osJumpLe n => [signedDecimal (simm n)]
  | .osJump n => [signedDecimal (simm n)]
  | .osInt n => [decimal (uimm n)]
  | .osRti => []

/-- The tokens of the canonical line. -/
def instrTokens (i : Instr) : List Text :=
  mnemonic i :: operandTexts i

/-- Tokens separated by one space (`30_encoding.md` R109). -/
def joinTokens : List Text → Text
  | [] => []
  | [t] => t
  | t :: u :: rest => t ++ ' ' :: joinTokens (u :: rest)

/-- The canonical line of an instruction (`30_encoding.md` R109). -/
def instrText (i : Instr) : Text :=
  joinTokens (instrTokens i)

/-- The marker string of a reserved word (`30_encoding.md` R110). -/
def invalidMarker : Text :=
  "invalid instruction".toList

/-- `decode(word).text` (`30_encoding.md` R109, R110): it never fails. -/
def decodeText (v : Variant) (w : Word) : Text :=
  match decode v w with
  | .ok i => instrText i
  | .error _ => invalidMarker

/-- `decode(VARIANT, word) → (text, fields)` (`30_encoding.md` R109): `fields` is the record of R107 or R108, none for a
reserved word. -/
def decodeResult (v : Variant) (w : Word) : Text × Option Instr :=
  (decodeText v w,
    match decode v w with
    | .ok i => some i
    | .error _ => none)

end Sys2Proof.Machine
end

