-- ==== Sys2Proof/Machine/Interface.lean ====
section
/-! DEFINITION. The operations the block offers its host (`45_step_and_interface.md` R285 to R297): building a core, one
step with its outcome and the state it leaves, the register and memory accessors, and call introspection. -/

namespace Sys2Proof.Machine

/-! ## Construction -/

/-- The constraints of `00_scope.md` R6 and `20_memory.md` R75 on a configuration: OS, `CODE_BASE` in ROM,
`CODE_BASE + N ≤ 2^30`, and the initial data segment wholly in RAM (log 13). A TI segment must have a cell for each of its
words (log 14). -/
def configValid (c : Config) : Bool :=
  match c.variant with
  | .ti => decide (c.initData.length ≤ 2 ^ 32)
  | .os =>
    decide (slice c.codeBase 30 2 = 0b00#2) &&
    decide (c.codeBase.toNat + (programWords c).length ≤ 2 ^ 30) &&
    decide (2 ^ 31 ≤ c.dsReset.toNat) &&
    decide (c.dsReset.toNat + c.initData.length ≤ 2 ^ 32)

/-- The reset state of a configuration (`10_state.md` R45, `20_memory.md` R75). Registers the TI variant does not have
hold zero there (log 4). -/
def State.resetWith (c : Config) : State :=
  match c.variant with
  | .ti =>
    { State.reset with
      config := c
      ds := 0x00000000#32
      mem := Memory.load [] 0 c.initData }
  | .os =>
    { State.reset with
      config := c
      pc := c.codeBase
      sp := c.spReset
      baf := c.bafReset
      cs := c.codeBase
      ds := c.dsReset
      mem := Memory.load [] c.dsReset.toNat c.initData }

/-- `construct` (`45_step_and_interface.md` R286): the only reset; a configuration that breaks a constraint is refused. -/
def construct (c : Config) : Option State :=
  if configValid c then some (State.resetWith c) else none

/-! ## The shapes of instructions -/

/-- How an instruction may redirect the program counter, as R296 sorts it: a JUMP with its mask and displacement, a MOVE
with its registers, a COMPUTE with its function, destination and operand, or none of these. -/
inductive CallShape where
  | jump (c : BitVec 3) (displacement : Int)
  | move (r d : Reg)
  | computeImm (f : AluFn) (d : Reg) (b : Int)
  | computeTiMem (f : AluFn) (d : Reg) (i : BitVec 24)
  | computeOsMem (f : AluFn) (d : Reg) (i : BitVec 22)
  | computeReg (f : AluFn) (d r : Reg)
  | other
deriving DecidableEq, Repr

/-- The shape of an instruction for R296 and R297: NOP, the LOADs, the STOREs, INT and RTI are `other`. -/
def callShape (i : Instr) : CallShape :=
  match i with
  | .tiSubi d n => .computeImm .sub d (simm n)
  | .tiAddi d n => .computeImm .add d (simm n)
  | .tiXnori d n => .computeImm .xnor d (simm n)
  | .tiOri d n => .computeImm .or d (simm n)
  | .tiAndi d n => .computeImm .and d (simm n)
  | .tiSub d n => .computeTiMem .sub d n
  | .tiAdd d n => .computeTiMem .add d n
  | .tiXnor d n => .computeTiMem .xnor d n
  | .tiOr d n => .computeTiMem .or d n
  | .tiAnd d n => .computeTiMem .and d n
  | .tiLoad _ _ => .other
  | .tiLoadin1 _ _ => .other
  | .tiLoadin2 _ _ => .other
  | .tiLoadi _ _ => .other
  | .tiStore _ => .other
  | .tiStorein1 _ => .other
  | .tiStorein2 _ => .other
  | .tiMove r d => .move r d
  | .tiNop => .other
  | .tiJumpGt n => .jump 0b001#3 (simm n)
  | .tiJumpEq n => .jump 0b010#3 (simm n)
  | .tiJumpGe n => .jump 0b011#3 (simm n)
  | .tiJumpLt n => .jump 0b100#3 (simm n)
  | .tiJumpNe n => .jump 0b101#3 (simm n)
  | .tiJumpLe n => .jump 0b110#3 (simm n)
  | .tiJump n => .jump 0b111#3 (simm n)
  | .osMuli d n => .computeImm .mul d (simm n)
  | .osDivi d n => .computeImm .div d (simm n)
  | .osSubi d n => .computeImm .sub d (simm n)
  | .osAddi d n => .computeImm .add d (simm n)
  | .osXnori d n => .computeImm .xnor d (simm n)
  | .osOri d n => .computeImm .or d (simm n)
  | .osAndi d n => .computeImm .and d (simm n)
  | .osModi d n => .computeImm .mod d (simm n)
  | .osMul d n => .computeOsMem .mul d n
  | .osDiv d n => .computeOsMem .div d n
  | .osSub d n => .computeOsMem .sub d n
  | .osAdd d n => .computeOsMem .add d n
  | .osXnor d n => .computeOsMem .xnor d n
  | .osOr d n => .computeOsMem .or d n
  | .osAnd d n => .computeOsMem .and d n
  | .osMod d n => .computeOsMem .mod d n
  | .osMulReg d r => .computeReg .mul d r
  | .osDivReg d r => .computeReg .div d r
  | .osSubReg d r => .computeReg .sub d r
  | .osAddReg d r => .computeReg .add d r
  | .osXnorReg d r => .computeReg .xnor d r
  | .osOrReg d r => .computeReg .or d r
  | .osAndReg d r => .computeReg .and d r
  | .osModReg d r => .computeReg .mod d r
  | .osLoad _ _ => .other
  | .osLoadin _ _ _ => .other
  | .osLoadi _ _ => .other
  | .osStore _ _ => .other
  | .osStorein _ _ _ => .other
  | .osMove r d => .move r d
  | .osNop => .other
  | .osJumpGt n => .jump 0b001#3 (simm n)
  | .osJumpEq n => .jump 0b010#3 (simm n)
  | .osJumpGe n => .jump 0b011#3 (simm n)
  | .osJumpLt n => .jump 0b100#3 (simm n)
  | .osJumpNe n => .jump 0b101#3 (simm n)
  | .osJumpLe n => .jump 0b110#3 (simm n)
  | .osJump n => .jump 0b111#3 (simm n)
  | .osInt _ => .other
  | .osRti => .other

/-! ## The step with its outcome -/

/-- The three outcomes of a step (`00_scope.md` R11), without the state. -/
inductive StepOutcome where
  | next
  | terminated
  | fault (cause : Fault)
  /-- The model has no meaning for the instruction; never returned, since every instruction has one. -/
  | refused (reason : Refusal)
deriving DecidableEq, Repr

/-- What one call of `step()` returns to the host (`45_step_and_interface.md` R285, R287). -/
def stepOutcome (s : State) : StepOutcome :=
  match step s with
  | .next t => if t.status = .terminated then .terminated else .next
  | .fault c => .fault c
  | .refused r => .refused r

/-- The state after the operand read of `i`, for the instructions that may still fault after it: the OS COMPUTE forms with a
memory operand (`40_compute.md` R152, R160). Where the read faults, and for every other instruction, it is `s`. -/
def afterOperandRead (i : Instr) (s : State) : State :=
  match callShape i with
  | .computeOsMem _ _ n =>
    match osMemRead s (eaDirectOs s n) with
    | .ok (_, s1) => s1
    | .error _ => s
  | .jump _ _ => s
  | .move _ _ => s
  | .computeImm _ _ _ => s
  | .computeTiMem _ _ _ => s
  | .computeReg _ _ _ => s
  | .other => s

/-- The state after the reads of a step, its fetch and the operand read of its instruction, before any write
(`45_step_and_interface.md` R281 steps 3 to 5): `s` where the step makes no read. -/
def afterReads (s : State) : State :=
  match s.status with
  | .faulted _ => s
  | _ =>
    if validPC s then
      match fetch s with
      | .error _ => s
      | .ok (w, s1) =>
        match decode s.config.variant w with
        | .error _ => s1
        | .ok i => afterOperandRead i s1
    else s

/-- The state a fault leaves (`60_exceptions.md` R317): every write of the step is discarded, an I/O event included, and the
status becomes `Faulted`. The values its reads drew from the environment, those of the state `r` after the reads, have still
been drawn (`40_compute.md` R160); they belong to the environment and are no state of the core (`10_state.md` R44, log 7). -/
def faulted (c : Fault) (s r : State) : State :=
  { s with status := .faulted c, uartInput := r.uartInput, uartDraws := r.uartDraws }

/-- The state the core is in after one call of `step()` (`45_step_and_interface.md` R281 steps 6 and 7): a fault commits
nothing but `status` (`60_exceptions.md` R317), and what its reads drew stays drawn (`40_compute.md` R160, log 7). -/
def afterStep (s : State) : State :=
  match step s with
  | .next t => t
  | .fault c => faulted c s (afterReads s)
  | .refused _ => s

/-- The state after `n` calls of `step()`, whatever their outcomes (`45_step_and_interface.md` R284). -/
def afterSteps : Nat → State → State
  | 0, s => s
  | n + 1, s => afterSteps n (afterStep s)

/-! ## Register accessors -/

/-- The register an index names (`10_state.md` R21), register `I` apart. -/
def regOfIndex (k : Nat) : Option Reg :=
  match k with
  | 0 => some .pc
  | 1 => some .in1
  | 2 => some .in2
  | 3 => some .acc
  | 4 => some .sp
  | 5 => some .baf
  | 6 => some .cs
  | 7 => some .ds
  | _ => none

/-- The register index domain (`45_step_and_interface.md` R290): TI `0 .. 3`, OS `0 .. 8`. -/
def indexInDomain (v : Variant) (k : Nat) : Bool :=
  match v with
  | .ti => decide (k ≤ 3)
  | .os => decide (k ≤ 8)

/-- `getRegister(index)` (`45_step_and_interface.md` R288): PC unsigned, every other register as two's complement; none
outside the domain. -/
def getRegister (s : State) (k : Nat) : Option Int :=
  if indexInDomain s.config.variant k then
    match regOfIndex k with
    | some r => some (val s r)
    | none => some s.fetchReg.toInt
  else none

/-- `setRegister(index, value)` (`45_step_and_interface.md` R289): the register receives `wrap(value)` and nothing else
changes; outside the domain nothing does. -/
def setRegister (s : State) (k : Nat) (value : Int) : State :=
  if indexInDomain s.config.variant k then
    match regOfIndex k with
    | some r => writeReg s r (wrap value)
    | none => { s with fetchReg := wrap value }
  else s

/-! ## Memory accessors -/

/-- `readMem(address)` (`45_step_and_interface.md` R291): TI, the data cell; OS, the RAM cell or the program word, and none
for any other address, the whole I/O window included. -/
def readMem (s : State) (address : Nat) : Option Word :=
  if address < 2 ^ 32 then
    match s.config.variant with
    | .ti => some (Memory.read s.mem address)
    | .os =>
      match device (BitVec.ofNat 32 address) with
      | .rom => romWord s.config (BitVec.ofNat 32 address)
      | .io => none
      | .ram => some (Memory.read s.mem address)
  else none

/-- `writeMem(address, word)` (`45_step_and_interface.md` R292): the state after, or none where the write is refused (OS
ROM and I/O window; an address that is none). -/
def writeMem (s : State) (address : Nat) (w : Word) : Option State :=
  if address < 2 ^ 32 then
    match s.config.variant with
    | .ti => some { s with mem := Memory.write s.mem address w }
    | .os =>
      match device (BitVec.ofNat 32 address) with
      | .rom => none
      | .io => none
      | .ram => some { s with mem := Memory.write s.mem address w }
  else none

/-! ## Call introspection -/

/-- The instruction at the program counter, read without executing it and without drawing anything: none when the core is
faulted, the program counter is outside the valid code range, the word is not there to read, or it is reserved
(`45_step_and_interface.md` R296, log 17). -/
def currentInstr (s : State) : Option Instr :=
  match s.status with
  | .faulted _ => none
  | _ =>
    if validPC s then
      let w := match s.config.variant with
        | .ti => some (s.config.code.getD s.pc.toNat 0#32)
        | .os => readMem s s.pc.toNat
      match w with
      | some w =>
        match decode s.config.variant w with
        | .ok i => some i
        | .error _ => none
      | none => none
    else none

/-- `isCallInstruction()` (`45_step_and_interface.md` R296): a JUMP whose condition holds on the current ACC and whose
target is not the next address, or a MOVE or COMPUTE with destination PC. -/
def isCallInstruction (s : State) : Bool :=
  match currentInstr s with
  | none => false
  | some i =>
    match callShape i with
    | .jump c n => condHolds c s.acc && decide (wrap ((s.pc.toNat : Int) + n) ≠ s.pc + 1#32)
    | .move _ d => decide (d = .pc)
    | .computeImm _ d _ => decide (d = .pc)
    | .computeTiMem _ d _ => decide (d = .pc)
    | .computeOsMem _ d _ => decide (d = .pc)
    | .computeReg _ d _ => decide (d = .pc)
    | .other => false

/-- The value a COMPUTE on PC would write, none where it would fault. -/
def computeTarget (s : State) (f : AluFn) (b : Int) : Option Word :=
  match aluApply f (val s .pc) b with
  | .ok r => some r
  | .error _ => none

/-- `callTarget()` (`45_step_and_interface.md` R297): the value the instruction's rule would write to PC; none when
`isCallInstruction()` is false, when the COMPUTE would fault, or when its memory operand lies in the OS I/O window. -/
def callTarget (s : State) : Option Word :=
  if isCallInstruction s then
    match currentInstr s with
    | none => none
    | some i =>
      match callShape i with
      | .jump _ n => some (wrap ((s.pc.toNat : Int) + n))
      | .move r _ => some (readReg s r)
      | .computeImm f _ b => computeTarget s f b
      | .computeTiMem f _ i => computeTarget s f (tiMemRead s (eaDirectTi i)).toInt
      | .computeOsMem f _ i =>
        match device (eaDirectOs s i), osMemRead s (eaDirectOs s i) with
        | .io, _ => none
        | _, .ok (m, _) => computeTarget s f m.toInt
        | _, .error _ => none
      | .computeReg f _ r => computeTarget s f (val s r)
      | .other => none
  else none

end Sys2Proof.Machine
end

