-- ==== Sys2Proof/Safety.lean ====
section
/-! DEFINITION. The terms claims are written in: what an instruction leaves unchanged, what it means that it completes, and
the invariant of the core. -/

namespace Sys2Proof.Machine

/-! ## Frames -/

/-- Nothing outside memory and the I/O record changed but the program counter and the registers listed: the other registers
of the register file, register `I`, the return stack, `in_isr`, `status` and the parameters are as before. -/
def SameBut (written : List Reg) (s t : State) : Prop :=
  (∀ r, r ≠ .pc → r ∉ written → readReg t r = readReg s r) ∧
  t.fetchReg = s.fetchReg ∧ t.returnStack = s.returnStack ∧ t.inIsr = s.inIsr ∧
  t.status = s.status ∧ t.config = s.config

/-- Every memory cell reads as before. -/
def SameMem (s t : State) : Prop :=
  ∀ a, Memory.read t.mem a = Memory.read s.mem a

/-- No I/O event, and no value drawn from the environment. -/
def SameIo (s t : State) : Prop :=
  t.ioHistory = s.ioHistory ∧ t.uartInput = s.uartInput ∧ t.uartDraws = s.uartDraws

/-- From `s` to `t`, register `d` received `v` and nothing else changed but the program counter, which advanced by one unless
`d` is the program counter itself (`10_state.md` R27). -/
def WritesReg (d : Reg) (v : Word) (s t : State) : Prop :=
  readReg t d = v ∧ (d ≠ .pc → t.pc = s.pc + 1#32) ∧ SameBut [d] s t ∧ SameMem s t ∧ SameIo s t

/-- As `WritesReg d v s t`, for an OS instruction that reads a cell first: the I/O record is that of `s1`, the state after
the read (`20_memory.md` R62, R63). -/
def WritesRegIo (d : Reg) (v : Word) (s s1 t : State) : Prop :=
  readReg t d = v ∧ (d ≠ .pc → t.pc = s.pc + 1#32) ∧ SameBut [d] s t ∧ SameMem s t ∧ SameIo s1 t

/-- From `s` to `t`, the program counter became `target` and nothing else changed. -/
def MovesPc (target : Word) (s t : State) : Prop :=
  t.pc = target ∧ SameBut [] s t ∧ SameMem s t ∧ SameIo s t

/-- From `s` to `t`, the memory cell `a` received `v`, the program counter advanced by one, and nothing else changed. -/
def WritesCell (a : Nat) (v : Word) (s t : State) : Prop :=
  Memory.read t.mem a = v ∧ (∀ b, b ≠ a → Memory.read t.mem b = Memory.read s.mem b) ∧
  t.pc = s.pc + 1#32 ∧ SameBut [] s t ∧ SameIo s t

/-- From `s` to `t`, the event `e` was appended to the I/O history, the program counter advanced by one, and nothing else
changed. -/
def WritesPort (e : IoEvent) (s t : State) : Prop :=
  t.ioHistory = s.ioHistory ++ [e] ∧ t.uartInput = s.uartInput ∧ t.uartDraws = s.uartDraws ∧
  t.pc = s.pc + 1#32 ∧ SameBut [] s t ∧ SameMem s t

/-- `q` and `m` are the quotient and the remainder of `a` by `b` as `40_compute.md` R158 describes them: `a = b * q + m`,
`m` smaller than `b` in size, and `m` zero or of the sign of `a`. -/
def TruncDiv (a b q m : Int) : Prop :=
  a = b * q + m ∧ m.natAbs < b.natAbs ∧ (m = 0 ∨ m.sign = a.sign)

/-- The instruction completes, in a state of which `P` holds. -/
def Completes (i : Instr) (s : State) (P : State → Prop) : Prop :=
  ∃ t, exec i s = .next t ∧ P t

/-- A result with its next state, if any, changed by `f`. -/
def mapNext (f : State → State) (r : Result) : Result :=
  match r with
  | .next t => .next (f t)
  | .fault e => .fault e
  | .refused e => .refused e

/-! ## The invariant -/

/-- `in_isr` and the flags of the return stack agree (`44_os_int_rti.md` R261, R262): `in_isr` is set exactly while an entry
is on the stack, and an entry saved a set flag exactly when another entry lies below it. -/
def stackCoherent : Bool → List ReturnEntry → Bool
  | flag, [] => !flag
  | flag, e :: rest => flag && stackCoherent e.flag rest

/-- Memory lists cells of the variant's data space only: the TI data region, the OS RAM (`20_memory.md` R55, R60). -/
def memInSpace (v : Variant) (m : Memory) : Bool :=
  match v with
  | .ti => m.all (fun c => decide (c.1 < 2 ^ 32))
  | .os => m.all (fun c => decide (2 ^ 31 ≤ c.1) && decide (c.1 < 2 ^ 32))

/-- The state the TI variant does not have is at its reset value (`10_state.md` R45, "not present"; log 4). -/
def tiAbsentState (s : State) : Bool :=
  match s.config.variant with
  | .ti =>
    decide (s.sp = 0#32) && decide (s.baf = 0#32) && decide (s.cs = 0#32) && decide (s.ds = 0#32) &&
    decide (s.fetchReg = 0#32) && s.returnStack.isEmpty && !s.inIsr && s.ioHistory.isEmpty
  | .os => true

/-- The invariant of the core: memory is in canonical form and in the data space, the configuration is one `construct`
accepts, the in-interrupt flag agrees with the return stack, and a TI core has no OS state. -/
def Inv (s : State) : Prop :=
  Memory.wf s.mem = true ∧ memInSpace s.config.variant s.mem = true ∧ configValid s.config = true ∧
  stackCoherent s.inIsr s.returnStack = true ∧ tiAbsentState s = true

/-! ## Safe runs -/

/-- The next `n` calls of `step()` all complete or report termination: none faults. -/
def SafeFor : Nat → State → Prop
  | 0, _ => True
  | n + 1, s => ∃ t, step s = .next t ∧ SafeFor n t

end Sys2Proof.Machine
end

