-- ==== Sys2Proof/Certificates/Slice0/Obligations.lean ====
section
/-! DEFINITION. The statements for the provers, each a closed proposition about the model. Where a clause rests on a choice
the spec marks as its own (`92_eei_decisions.md`), the docstring names the decision. -/

open Sys2Proof Sys2Proof.Machine

/-! ## Encoding and text -/

/-- Decoding the word of a well-formed instruction gives the instruction back, with every operand at every value
(`30_encoding.md` R92, R93, R98 to R103, R107, R108). -/
def Obligations.DecodeEncode : Prop :=
  ∀ i : Instr, i.wellFormed = true → decode i.variant (encode i) = .ok i

/-- A word that decodes is, with its unused bits cleared, the word of the decoded instruction, which is a well-formed
instruction of the variant (`30_encoding.md` R97). The list of unused bits is the spec's decision D12. -/
def Obligations.EncodeDecode : Prop :=
  ∀ (v : Variant) (w : Word) (i : Instr), decode v w = .ok i → i.wellFormedIn v = true ∧ encode i = canon v w

/-- The reserved words are exactly those of the table of `30_encoding.md` R104 (the reading is the spec's decision D13). -/
def Obligations.ReservedWords : Prop :=
  ∀ w : Word,
    (decode .ti w = .error .tiComputeF000 ↔ w &&& 0xDC000000#32 = 0x00000000#32) ∧
    (decode .ti w = .error .tiComputeF001 ↔ w &&& 0xDC000000#32 = 0x04000000#32) ∧
    (decode .ti w = .error .tiComputeF111 ↔ w &&& 0xDC000000#32 = 0x1C000000#32) ∧
    (decode .os w = .error .osComputeKind11 ↔ w &&& 0xF0000000#32 = 0x30000000#32) ∧
    (decode .os w = .error .osLoadMode10 ↔ w &&& 0xF0000000#32 = 0x60000000#32) ∧
    (decode .os w = .error .osStoreMode10 ↔ w &&& 0xF0000000#32 = 0xA0000000#32) ∧
    (decode .os w = .error .osJumpJ11 ↔ w &&& 0xC6000000#32 = 0xC6000000#32) ∧
    (∀ e, decode .ti w = .error e → e = .tiComputeF000 ∨ e = .tiComputeF001 ∨ e = .tiComputeF111) ∧
    (∀ e, decode .os w = .error e →
      e = .osComputeKind11 ∨ e = .osLoadMode10 ∨ e = .osStoreMode10 ∨ e = .osJumpJ11)

/-- A decoded word stands on the opcode-table row of its instruction, and on no other row of its variant (`30_encoding.md` R98
to R103; `spec/opcode_table.json`). Every word of a COMPUTE, LOAD, OS STORE, STOREIN, INT or RTI row decodes to that row's
instruction, with each operand from the bits of the word that the formats of R92 and R93 give it; those of the TI STOREs, MOVE
and the JUMPs are in other statements. The register numbers are the spec's decision D7, the places
of the fields and the codes D1 to D6, D9 and D10. -/
def Obligations.OpcodeRows : Prop :=
  (∀ (v : Variant) (w : Word) (i : Instr), decode v w = .ok i →
    w &&& i.opcodeRow.1 = i.opcodeRow.2 ∧
    ∀ j : Instr, j.variant = v → w &&& j.opcodeRow.1 = j.opcodeRow.2 → j.opcodeRow = i.opcodeRow) ∧
  (∀ w : Word,
    (∀ p ∈ [(0x28000000#32, Instr.tiSubi), (0x2C000000#32, Instr.tiAddi), (0x30000000#32, Instr.tiXnori),
            (0x34000000#32, Instr.tiOri), (0x38000000#32, Instr.tiAndi), (0x08000000#32, Instr.tiSub),
            (0x0C000000#32, Instr.tiAdd), (0x10000000#32, Instr.tiXnor), (0x14000000#32, Instr.tiOr),
            (0x18000000#32, Instr.tiAnd)],
      w &&& 0xFC000000#32 = p.1 → decode .ti w = .ok (p.2 (Reg.ofCode2 (slice w 24 2)) (slice w 0 24))) ∧
    (∀ p ∈ [(0x40000000#32, Instr.tiLoad), (0x50000000#32, Instr.tiLoadin1), (0x60000000#32, Instr.tiLoadin2),
            (0x70000000#32, Instr.tiLoadi)],
      w &&& 0xF0000000#32 = p.1 → decode .ti w = .ok (p.2 (Reg.ofCode2 (slice w 24 2)) (slice w 0 24))) ∧
    (∀ p ∈ [(0x20000000#32, Instr.osMuli), (0x22000000#32, Instr.osDivi), (0x24000000#32, Instr.osSubi),
            (0x26000000#32, Instr.osAddi), (0x28000000#32, Instr.osXnori), (0x2A000000#32, Instr.osOri),
            (0x2C000000#32, Instr.osAndi), (0x2E000000#32, Instr.osModi), (0x00000000#32, Instr.osMul),
            (0x02000000#32, Instr.osDiv), (0x04000000#32, Instr.osSub), (0x06000000#32, Instr.osAdd),
            (0x08000000#32, Instr.osXnor), (0x0A000000#32, Instr.osOr), (0x0C000000#32, Instr.osAnd),
            (0x0E000000#32, Instr.osMod)],
      w &&& 0xFE000000#32 = p.1 → decode .os w = .ok (p.2 (Reg.ofCode3 (slice w 22 3)) (slice w 0 22))) ∧
    (∀ p ∈ [(0x10000000#32, Instr.osMulReg), (0x12000000#32, Instr.osDivReg), (0x14000000#32, Instr.osSubReg),
            (0x16000000#32, Instr.osAddReg), (0x18000000#32, Instr.osXnorReg), (0x1A000000#32, Instr.osOrReg),
            (0x1C000000#32, Instr.osAndReg), (0x1E000000#32, Instr.osModReg)],
      w &&& 0xFE000000#32 = p.1 →
        decode .os w = .ok (p.2 (Reg.ofCode3 (slice w 22 3)) (Reg.ofCode3 (slice w 19 3)))) ∧
    (∀ p ∈ [(0x40000000#32, Instr.osLoad), (0x70000000#32, Instr.osLoadi)],
      w &&& 0xF0000000#32 = p.1 → decode .os w = .ok (p.2 (Reg.ofCode3 (slice w 22 3)) (slice w 0 22))) ∧
    (w &&& 0xF0000000#32 = 0x50000000#32 → decode .os w =
      .ok (.osLoadin (Reg.ofCode3 (slice w 25 3)) (Reg.ofCode3 (slice w 22 3)) (slice w 0 22))) ∧
    (w &&& 0xF0000000#32 = 0x80000000#32 → decode .os w =
      .ok (.osStore (Reg.ofCode3 (slice w 25 3)) (slice w 0 22))) ∧
    (w &&& 0xF0000000#32 = 0x90000000#32 → decode .os w =
      .ok (.osStorein (Reg.ofCode3 (slice w 22 3)) (Reg.ofCode3 (slice w 25 3)) (slice w 0 22))) ∧
    (w &&& 0xC6000000#32 = 0xC2000000#32 → decode .os w = .ok (.osInt (slice w 0 22))) ∧
    (w &&& 0xC6000000#32 = 0xC4000000#32 → decode .os w = .ok .osRti)) ∧
  (∀ p ∈ [(0, Reg.pc), (1, .in1), (2, .in2), (3, .acc)], Reg.ofCode2 (BitVec.ofNat 2 p.1) = p.2) ∧
  ∀ p ∈ [(0, Reg.pc), (1, .in1), (2, .in2), (3, .acc), (4, .sp), (5, .baf), (6, .cs), (7, .ds)],
    Reg.ofCode3 (BitVec.ofNat 3 p.1) = p.2

/-- A word and its canonical word are the same instruction, clearing is done once, and the encoder produces canonical words
only (`30_encoding.md` R97). The list of unused bits is the spec's decision D12. -/
def Obligations.CanonicalWords : Prop :=
  (∀ (v : Variant) (w : Word), decode v (canon v w) = decode v w ∧ canon v (canon v w) = canon v w) ∧
  (∀ i : Instr, i.wellFormed = true → isCanonical i.variant (encode i) = true)

/-- Words written out from the encodings of the spec decode to the instructions they stand for: the examples of
`40_compute.md` R161, R167, R173, R178, `41_load.md` R202, R204, `42_store_move.md` R223, R225, R226, `43_jump.md` R247 and
`44_os_int_rti.md` R261, R262. -/
def Obligations.DecodeSamples : Prop :=
  decode .ti 0x2B000001#32 = .ok (.tiSubi .acc 1#24) ∧
  decode .ti 0x0DFFFFFF#32 = .ok (.tiAdd .in1 0xFFFFFF#24) ∧
  decode .ti 0x53FFFFFF#32 = .ok (.tiLoadin1 .acc 0xFFFFFF#24) ∧
  decode .ti 0xA0FFFFFD#32 = .ok (.tiStorein2 0xFFFFFD#24) ∧
  decode .ti 0xBD123456#32 = .ok (.tiMove .acc .in1) ∧
  decode .ti 0xE8000005#32 = .ok (.tiJumpNe 5#24) ∧
  decode .os 0x2E000004#32 = .ok (.osModi .pc 4#22) ∧
  decode .os 0x16C80000#32 = .ok (.osAddReg .acc .in1) ∧
  decode .os 0x5A7FFFFE#32 = .ok (.osLoadin .baf .in1 0x3FFFFE#22) ∧
  decode .os 0x957FFFFF#32 = .ok (.osStorein .baf .in2 0x3FFFFF#22) ∧
  decode .os 0xFA000005#32 = .ok (.osInt 5#22) ∧
  decode .os 0xFDFFFFFF#32 = .ok .osRti

/-- The canonical text of a word, split into tokens and encoded, is the canonical word (`30_encoding.md` R123). The form of
the text is the spec's decision D18; that a space separates tokens in a split line is log 16. -/
def Obligations.TextRoundTrip : Prop :=
  ∀ (v : Variant) (w : Word) (i : Instr), decode v w = .ok i →
    encodeTokens v (splitTokens (decodeText v w)) = { status := .ok, word := some (canon v w), message := [] }

/-- A numeric operand is reduced modulo the field's `2^IMMW` and accepted whatever its size (`30_encoding.md` R120, the spec's
decision D14), for every mnemonic that takes one, in both variants, and every register operand beside it. The operand is any
token the grammar reads as the number `z` (R114, D15), or the decimal literal of any integer `z`. -/
def Obligations.NumbersAnySize : Prop :=
  ∀ (t : Text) (z : Int), parseNumber (upper t) = some z ∨ t = signedDecimal z →
    (∀ p ∈ [("SUBI", Instr.tiSubi), ("ADDI", Instr.tiAddi), ("XNORI", Instr.tiXnori), ("ORI", Instr.tiOri),
            ("ANDI", Instr.tiAndi), ("SUB", Instr.tiSub), ("ADD", Instr.tiAdd), ("XNOR", Instr.tiXnor),
            ("OR", Instr.tiOr), ("AND", Instr.tiAnd), ("LOAD", Instr.tiLoad), ("LOADIN1", Instr.tiLoadin1),
            ("LOADIN2", Instr.tiLoadin2), ("LOADI", Instr.tiLoadi)],
      ∀ d ∈ regsOf .ti, (encodeTokens .ti [p.1.toList, regName d, t]).status = .ok ∧
        (encodeTokens .ti [p.1.toList, regName d, t]).word = some (encode (p.2 d (BitVec.ofInt 24 z)))) ∧
    (∀ p ∈ [("STORE", Instr.tiStore), ("STOREIN1", Instr.tiStorein1), ("STOREIN2", Instr.tiStorein2),
            ("JUMP>", Instr.tiJumpGt), ("JUMPGT", Instr.tiJumpGt), ("JUMP=", Instr.tiJumpEq),
            ("JUMPEQ", Instr.tiJumpEq), ("JUMP>=", Instr.tiJumpGe), ("JUMPGEQ", Instr.tiJumpGe),
            ("JUMP≥", Instr.tiJumpGe), ("JUMP<", Instr.tiJumpLt), ("JUMPLT", Instr.tiJumpLt),
            ("JUMP!=", Instr.tiJumpNe), ("JUMPNEQ", Instr.tiJumpNe), ("JUMP≠", Instr.tiJumpNe),
            ("JUMP<=", Instr.tiJumpLe), ("JUMPLEQ", Instr.tiJumpLe), ("JUMP≤", Instr.tiJumpLe),
            ("JUMP", Instr.tiJump)],
      (encodeTokens .ti [p.1.toList, t]).status = .ok ∧
        (encodeTokens .ti [p.1.toList, t]).word = some (encode (p.2 (BitVec.ofInt 24 z)))) ∧
    (∀ p ∈ [("MULI", Instr.osMuli), ("DIVI", Instr.osDivi), ("SUBI", Instr.osSubi), ("ADDI", Instr.osAddi),
            ("XNORI", Instr.osXnori), ("ORI", Instr.osOri), ("ANDI", Instr.osAndi), ("MODI", Instr.osModi),
            ("MUL", Instr.osMul), ("DIV", Instr.osDiv), ("SUB", Instr.osSub), ("ADD", Instr.osAdd),
            ("XNOR", Instr.osXnor), ("OR", Instr.osOr), ("AND", Instr.osAnd), ("MOD", Instr.osMod),
            ("LOAD", Instr.osLoad), ("LOADI", Instr.osLoadi), ("STORE", Instr.osStore)],
      ∀ d ∈ regsOf .os, (encodeTokens .os [p.1.toList, regName d, t]).status = .ok ∧
        (encodeTokens .os [p.1.toList, regName d, t]).word = some (encode (p.2 d (BitVec.ofInt 22 z)))) ∧
    (∀ p ∈ [("LOADIN", Instr.osLoadin), ("STOREIN", Instr.osStorein)],
      ∀ b ∈ regsOf .os, ∀ r ∈ regsOf .os,
        (encodeTokens .os [p.1.toList, regName b, regName r, t]).status = .ok ∧
        (encodeTokens .os [p.1.toList, regName b, regName r, t]).word =
          some (encode (p.2 b r (BitVec.ofInt 22 z)))) ∧
    ∀ p ∈ [("INT", Instr.osInt),
           ("JUMP>", Instr.osJumpGt), ("JUMPGT", Instr.osJumpGt), ("JUMP=", Instr.osJumpEq),
           ("JUMPEQ", Instr.osJumpEq), ("JUMP>=", Instr.osJumpGe), ("JUMPGEQ", Instr.osJumpGe),
           ("JUMP≥", Instr.osJumpGe), ("JUMP<", Instr.osJumpLt), ("JUMPLT", Instr.osJumpLt),
           ("JUMP!=", Instr.osJumpNe), ("JUMPNEQ", Instr.osJumpNe), ("JUMP≠", Instr.osJumpNe),
           ("JUMP<=", Instr.osJumpLe), ("JUMPLEQ", Instr.osJumpLe), ("JUMP≤", Instr.osJumpLe),
           ("JUMP", Instr.osJump)],
      (encodeTokens .os [p.1.toList, t]).status = .ok ∧
        (encodeTokens .os [p.1.toList, t]).word = some (encode (p.2 (BitVec.ofInt 22 z)))

/-- Upper-casing the tokens changes nothing that `encode` returns (`30_encoding.md` R112). -/
def Obligations.EncodeCaseInsensitive : Prop :=
  ∀ (v : Variant) (tokens : List Text), encodeTokens v (tokens.map upper) = encodeTokens v tokens

/-- A word is returned exactly on success, and it is a canonical word that decodes to an instruction of the variant
(`30_encoding.md` R97, R119). The unused bits are the spec's decision D12, the statuses D17. -/
def Obligations.EncodeWordOnSuccess : Prop :=
  ∀ (v : Variant) (tokens : List Text),
    ((encodeTokens v tokens).status = .ok ↔ (encodeTokens v tokens).word.isSome = true) ∧
    ∀ w, (encodeTokens v tokens).word = some w → isCanonical v w = true ∧ ∃ i, decode v w = .ok i

/-- Decoding never fails (`30_encoding.md` R110): a word is an instruction, printed by its line, or reserved, and then its text
is the marker string, which does not assemble. -/
def Obligations.DecodeNeverFails : Prop :=
  (∀ (v : Variant) (w : Word),
    (∃ i, decode v w = .ok i ∧ decodeResult v w = (instrText i, some i)) ∨
    ((∃ e, decode v w = .error e) ∧ decodeResult v w = ("invalid instruction".toList, none))) ∧
  ∀ v : Variant, (encodeTokens v (splitTokens "invalid instruction".toList)).status = .errUnknownMnemonic

/-- The spellings of the conditions select the masks of the table of `30_encoding.md` R117: here each spelling of each JUMP
with displacement 5, in both variants. -/
def Obligations.JumpSpellings : Prop :=
  ∀ v ∈ [Variant.ti, Variant.os],
    (∀ m ∈ ["JUMP>", "jumpgt"], (encodeTokens v [m.toList, "5".toList]).word = some 0xC8000005#32) ∧
    (∀ m ∈ ["JUMP=", "JumpEq"], (encodeTokens v [m.toList, "5".toList]).word = some 0xD0000005#32) ∧
    (∀ m ∈ ["JUMP>=", "JUMPgeq", "JUMP≥"], (encodeTokens v [m.toList, "5".toList]).word = some 0xD8000005#32) ∧
    (∀ m ∈ ["JUMP<", "JUMPlt"], (encodeTokens v [m.toList, "5".toList]).word = some 0xE0000005#32) ∧
    (∀ m ∈ ["JUMP!=", "JUMPneq", "JUMP≠"], (encodeTokens v [m.toList, "5".toList]).word = some 0xE8000005#32) ∧
    (∀ m ∈ ["JUMP<=", "JUMPleq", "JUMP≤"], (encodeTokens v [m.toList, "5".toList]).word = some 0xF0000005#32) ∧
    (encodeTokens v ["JUMP".toList, "5".toList]).word = some 0xF8000005#32

/-! ## COMPUTE -/

/-- TI COMPUTE with an immediate: the sign-extended field is the second operand, and nothing changes but `D` and the program
counter (`40_compute.md` R150, R161 to R165). With `D = PC` the result is the next program counter, with no increment: the
spec's decision D31; that the third function is exclusive-nor is its decision D36. -/
def Obligations.TiComputeImmediate : Prop :=
  ∀ (s : State) (d : Reg) (i : BitVec 24),
    Completes (.tiSubi d i) s (WritesReg d (readReg s d - i.signExtend 32) s) ∧
    Completes (.tiAddi d i) s (WritesReg d (readReg s d + i.signExtend 32) s) ∧
    Completes (.tiXnori d i) s (WritesReg d (~~~(readReg s d ^^^ i.signExtend 32)) s) ∧
    Completes (.tiOri d i) s (WritesReg d (readReg s d ||| i.signExtend 32) s) ∧
    Completes (.tiAndi d i) s (WritesReg d (readReg s d &&& i.signExtend 32) s)

/-- TI COMPUTE with a memory operand: the second operand is the data cell at the field's value read unsigned
(`40_compute.md` R151, R166 to R170). `D = PC`: the spec's decision D31; exclusive-nor: D36. -/
def Obligations.TiComputeMemory : Prop :=
  ∀ (s : State) (d : Reg) (i : BitVec 24),
    Completes (.tiSub d i) s (WritesReg d (readReg s d - Memory.read s.mem i.toNat) s) ∧
    Completes (.tiAdd d i) s (WritesReg d (readReg s d + Memory.read s.mem i.toNat) s) ∧
    Completes (.tiXnor d i) s (WritesReg d (~~~(readReg s d ^^^ Memory.read s.mem i.toNat)) s) ∧
    Completes (.tiOr d i) s (WritesReg d (readReg s d ||| Memory.read s.mem i.toNat) s) ∧
    Completes (.tiAnd d i) s (WritesReg d (readReg s d &&& Memory.read s.mem i.toNat) s)

/-- OS COMPUTE with an immediate, DIVI and MODI apart (`40_compute.md` R161 to R165, R171). `D = PC`: the spec's decision D31;
exclusive-nor: D36; the product reduced to 32 bits: D35. -/
def Obligations.OsComputeImmediate : Prop :=
  ∀ (s : State) (d : Reg) (i : BitVec 22),
    Completes (.osMuli d i) s (WritesReg d (readReg s d * i.signExtend 32) s) ∧
    Completes (.osSubi d i) s (WritesReg d (readReg s d - i.signExtend 32) s) ∧
    Completes (.osAddi d i) s (WritesReg d (readReg s d + i.signExtend 32) s) ∧
    Completes (.osXnori d i) s (WritesReg d (~~~(readReg s d ^^^ i.signExtend 32)) s) ∧
    Completes (.osOri d i) s (WritesReg d (readReg s d ||| i.signExtend 32) s) ∧
    Completes (.osAndi d i) s (WritesReg d (readReg s d &&& i.signExtend 32) s)

/-- DIVI and MODI (`40_compute.md` R172, R173): quotient and remainder of the reading of `D` (signed, PC unsigned) by the
sign-extended field, reduced to 32 bits; a zero field faults. The laws are the spec's decisions D32 (truncation), D33 (the
fault), D34 (the quotient that wraps) and D31 (`D = PC`). -/
def Obligations.OsDivModImmediate : Prop :=
  ∀ (s : State) (d : Reg) (i : BitVec 22),
    (i ≠ 0#22 → ∃ q m : Int, TruncDiv (val s d) i.toInt q m ∧
      Completes (.osDivi d i) s (WritesReg d (BitVec.ofInt 32 q) s) ∧
      Completes (.osModi d i) s (WritesReg d (BitVec.ofInt 32 m) s)) ∧
    (i = 0#22 →
      exec (.osDivi d i) s = .fault .divideByZero ∧ exec (.osModi d i) s = .fault .divideByZero)

/-- OS COMPUTE with a memory operand, DIV and MOD apart (`40_compute.md` R152, R166 to R170, R174): the operand `m` is the
word read at `EA_direct(i)`, and a read of the I/O window leaves its event. `D = PC`: the spec's decision D31; exclusive-nor:
D36; the product reduced: D35. -/
def Obligations.OsComputeMemory : Prop :=
  ∀ (s s1 : State) (d : Reg) (i : BitVec 22) (m : Word), osMemRead s (eaDirectOs s i) = .ok (m, s1) →
    Completes (.osMul d i) s (WritesRegIo d (readReg s d * m) s s1) ∧
    Completes (.osSub d i) s (WritesRegIo d (readReg s d - m) s s1) ∧
    Completes (.osAdd d i) s (WritesRegIo d (readReg s d + m) s s1) ∧
    Completes (.osXnor d i) s (WritesRegIo d (~~~(readReg s d ^^^ m)) s s1) ∧
    Completes (.osOr d i) s (WritesRegIo d (readReg s d ||| m) s s1) ∧
    Completes (.osAnd d i) s (WritesRegIo d (readReg s d &&& m) s s1)

/-- DIV and MOD with a memory operand (`40_compute.md` R175, R176): the operand is read signed; zero faults. The spec's
decisions D31 to D34. -/
def Obligations.OsDivModMemory : Prop :=
  ∀ (s s1 : State) (d : Reg) (i : BitVec 22) (w : Word), osMemRead s (eaDirectOs s i) = .ok (w, s1) →
    (w ≠ 0#32 → ∃ q m : Int, TruncDiv (val s d) w.toInt q m ∧
      Completes (.osDiv d i) s (WritesRegIo d (BitVec.ofInt 32 q) s s1) ∧
      Completes (.osMod d i) s (WritesRegIo d (BitVec.ofInt 32 m) s s1)) ∧
    (w = 0#32 →
      exec (.osDiv d i) s = .fault .divideByZero ∧ exec (.osMod d i) s = .fault .divideByZero)

/-- The eight OS COMPUTE instructions with a memory operand fault when the operand cannot be read, before any divisor is
looked at (`40_compute.md` R160; the fault and the order are the spec's decisions D25 and D43). -/
def Obligations.OsComputeUnmapped : Prop :=
  ∀ (s : State) (d : Reg) (i : BitVec 22) (e : Fault), osMemRead s (eaDirectOs s i) = .error e →
    e = .unmappedAccess ∧
    ∀ j ∈ [Instr.osMul d i, .osDiv d i, .osSub d i, .osAdd d i, .osXnor d i, .osOr d i, .osAnd d i, .osMod d i],
      exec j s = .fault .unmappedAccess

/-- OS COMPUTE with a register operand, DIV and MOD apart (`40_compute.md` R177 to R182): both registers are read before the
write, so `S = D` uses the old value twice and `S = PC` is the address of the instruction. `D = PC`: the spec's decision D31;
exclusive-nor: D36; the product reduced: D35. -/
def Obligations.OsComputeRegister : Prop :=
  ∀ (s : State) (d r : Reg),
    Completes (.osMulReg d r) s (WritesReg d (readReg s d * readReg s r) s) ∧
    Completes (.osSubReg d r) s (WritesReg d (readReg s d - readReg s r) s) ∧
    Completes (.osAddReg d r) s (WritesReg d (readReg s d + readReg s r) s) ∧
    Completes (.osXnorReg d r) s (WritesReg d (~~~(readReg s d ^^^ readReg s r)) s) ∧
    Completes (.osOrReg d r) s (WritesReg d (readReg s d ||| readReg s r) s) ∧
    Completes (.osAndReg d r) s (WritesReg d (readReg s d &&& readReg s r) s)

/-- DIV and MOD with a register operand (`40_compute.md` R183, R184): both registers are read signed, PC unsigned; a zero
second register faults. The spec's decisions D31 to D34. -/
def Obligations.OsDivModRegister : Prop :=
  ∀ (s : State) (d r : Reg),
    (readReg s r ≠ 0#32 → ∃ q m : Int, TruncDiv (val s d) (val s r) q m ∧
      Completes (.osDivReg d r) s (WritesReg d (BitVec.ofInt 32 q) s) ∧
      Completes (.osModReg d r) s (WritesReg d (BitVec.ofInt 32 m) s)) ∧
    (readReg s r = 0#32 →
      exec (.osDivReg d r) s = .fault .divideByZero ∧ exec (.osModReg d r) s = .fault .divideByZero)

/-! ## LOAD, STORE, MOVE -/

/-- The TI loads: direct, indexed by IN1 and IN2, immediate (`41_load.md` R200 to R203, R205). `D = PC`: the spec's decision
D31. -/
def Obligations.TiLoads : Prop :=
  ∀ (s : State) (d : Reg) (i : BitVec 24),
    Completes (.tiLoad d i) s (WritesReg d (Memory.read s.mem i.toNat) s) ∧
    Completes (.tiLoadin1 d i) s (WritesReg d (Memory.read s.mem (s.in1 + i.signExtend 32).toNat) s) ∧
    Completes (.tiLoadin2 d i) s (WritesReg d (Memory.read s.mem (s.in2 + i.signExtend 32).toNat) s) ∧
    Completes (.tiLoadi d i) s (WritesReg d (i.signExtend 32) s)

/-- The OS loads: direct at `EA_direct(i)`, indexed at `x[S] + simm`, immediate; a cell that cannot be read faults
(`41_load.md` R200, R201, R204, R205). `D = PC`: the spec's decision D31; the fault: D25. -/
def Obligations.OsLoads : Prop :=
  ∀ (s : State) (r d : Reg) (i : BitVec 22),
    (∀ v s1, osMemRead s (eaDirectOs s i) = .ok (v, s1) → Completes (.osLoad d i) s (WritesRegIo d v s s1)) ∧
    (∀ e, osMemRead s (eaDirectOs s i) = .error e → exec (.osLoad d i) s = .fault .unmappedAccess) ∧
    (∀ v s1, osMemRead s (readReg s r + i.signExtend 32) = .ok (v, s1) →
      Completes (.osLoadin r d i) s (WritesRegIo d v s s1)) ∧
    (∀ e, osMemRead s (readReg s r + i.signExtend 32) = .error e →
      exec (.osLoadin r d i) s = .fault .unmappedAccess) ∧
    Completes (.osLoadi d i) s (WritesReg d (i.signExtend 32) s)

/-- The TI stores (`42_store_move.md` R221 to R223): the word of each, its unused bits ignored, gives the address field or the
offset; ACC goes to one data cell, direct or indexed by IN1 or IN2, and nothing else changes but the program counter. In OS the
third mode is reserved. -/
def Obligations.TiStores : Prop :=
  (∀ w : Word,
    (slice w 28 4 = 0b1000#4 → decode .ti w = .ok (.tiStore (slice w 0 24))) ∧
    (slice w 28 4 = 0b1001#4 → decode .ti w = .ok (.tiStorein1 (slice w 0 24))) ∧
    (slice w 28 4 = 0b1010#4 → decode .ti w = .ok (.tiStorein2 (slice w 0 24)) ∧
      decode .os w = .error .osStoreMode10)) ∧
  (∀ i : BitVec 24,
    encode (.tiStore i) = 0x80000000#32 ||| i.setWidth 32 ∧ encode (.tiStorein1 i) = 0x90000000#32 ||| i.setWidth 32 ∧
    encode (.tiStorein2 i) = 0xA0000000#32 ||| i.setWidth 32) ∧
  ∀ (s : State) (i : BitVec 24), Memory.wf s.mem = true →
    Completes (.tiStore i) s (WritesCell i.toNat s.acc s) ∧
    Completes (.tiStorein1 i) s (WritesCell (s.in1 + i.signExtend 32).toNat s.acc s) ∧
    Completes (.tiStorein2 i) s (WritesCell (s.in2 + i.signExtend 32).toNat s.acc s)

/-- The OS stores to RAM write one cell, at `EA_direct(i)` or at `x[D] + simm`, and change nothing else
(`42_store_move.md` R220, R224, R225). That RAM is where bit 31 is set is the spec's decision D22. -/
def Obligations.OsStoresRam : Prop :=
  ∀ (s : State) (d r : Reg) (i : BitVec 22), Memory.wf s.mem = true →
    (2 ^ 31 ≤ (eaDirectOs s i).toNat →
      Completes (.osStore r i) s (WritesCell (eaDirectOs s i).toNat (readReg s r) s)) ∧
    (2 ^ 31 ≤ (readReg s d + i.signExtend 32).toNat →
      Completes (.osStorein d r i) s (WritesCell (readReg s d + i.signExtend 32).toNat (readReg s r) s))

/-- The OS stores outside RAM: a mapped port of the I/O window records the event and nothing else; a ROM address and the rest
of the window fault (`42_store_move.md` R224, R225; `20_memory.md` R62, R64). The map, the ports and the faults are the
spec's decisions D22, D24 and D25. -/
def Obligations.OsStoresDevices : Prop :=
  ∀ (s : State) (d r : Reg) (i : BitVec 22),
    (∀ p, device (eaDirectOs s i) = .io → ioPort (eaDirectOs s i) = some p →
      Completes (.osStore r i) s (WritesPort (.write p (readReg s r)) s)) ∧
    (∀ p, device (readReg s d + i.signExtend 32) = .io → ioPort (readReg s d + i.signExtend 32) = some p →
      Completes (.osStorein d r i) s (WritesPort (.write p (readReg s r)) s)) ∧
    ((eaDirectOs s i).toNat < 2 ^ 30 → exec (.osStore r i) s = .fault .storeToRom) ∧
    ((readReg s d + i.signExtend 32).toNat < 2 ^ 30 → exec (.osStorein d r i) s = .fault .storeToRom) ∧
    (2 ^ 30 + 3 ≤ (eaDirectOs s i).toNat → (eaDirectOs s i).toNat < 2 ^ 31 →
      exec (.osStore r i) s = .fault .unmappedAccess) ∧
    (2 ^ 30 + 3 ≤ (readReg s d + i.signExtend 32).toNat → (readReg s d + i.signExtend 32).toNat < 2 ^ 31 →
      exec (.osStorein d r i) s = .fault .unmappedAccess)

/-- MOVE: the word gives the two registers and its operand bits are ignored; the pattern is copied, with no memory access,
and the program counter advances unless it is the destination (`42_store_move.md` R226, R227). -/
def Obligations.MoveCopies : Prop :=
  (∀ w : Word, slice w 28 4 = 0b1011#4 →
    decode .ti w = .ok (.tiMove (Reg.ofCode2 (slice w 26 2)) (Reg.ofCode2 (slice w 24 2))) ∧
    decode .os w = .ok (.osMove (Reg.ofCode3 (slice w 25 3)) (Reg.ofCode3 (slice w 22 3)))) ∧
  ∀ (s : State) (r d : Reg),
    Completes (.tiMove r d) s (WritesReg d (readReg s r) s) ∧
    Completes (.osMove r d) s (WritesReg d (readReg s r) s)

/-! ## JUMP, NOP, INT, RTI -/

/-- The seven JUMPs of both variants (`43_jump.md` R243 to R249): the word of each, and its effect. The displacement is added
to the address of the JUMP itself when the condition holds of ACC, else the program counter advances by one; nothing else
changes (R241, R250). -/
def Obligations.Jumps : Prop :=
  (∀ i : BitVec 24,
    encode (.tiJumpGt i) = 0xC8000000#32 ||| i.setWidth 32 ∧
    encode (.tiJumpEq i) = 0xD0000000#32 ||| i.setWidth 32 ∧
    encode (.tiJumpGe i) = 0xD8000000#32 ||| i.setWidth 32 ∧
    encode (.tiJumpLt i) = 0xE0000000#32 ||| i.setWidth 32 ∧
    encode (.tiJumpNe i) = 0xE8000000#32 ||| i.setWidth 32 ∧
    encode (.tiJumpLe i) = 0xF0000000#32 ||| i.setWidth 32 ∧
    encode (.tiJump i) = 0xF8000000#32 ||| i.setWidth 32) ∧
  (∀ i : BitVec 22,
    encode (.osJumpGt i) = 0xC8000000#32 ||| i.setWidth 32 ∧
    encode (.osJumpEq i) = 0xD0000000#32 ||| i.setWidth 32 ∧
    encode (.osJumpGe i) = 0xD8000000#32 ||| i.setWidth 32 ∧
    encode (.osJumpLt i) = 0xE0000000#32 ||| i.setWidth 32 ∧
    encode (.osJumpNe i) = 0xE8000000#32 ||| i.setWidth 32 ∧
    encode (.osJumpLe i) = 0xF0000000#32 ||| i.setWidth 32 ∧
    encode (.osJump i) = 0xF8000000#32 ||| i.setWidth 32) ∧
  (∀ (s : State) (i : BitVec 24),
    Completes (.tiJumpGt i) s (MovesPc (if 0 < s.acc.toInt then s.pc + i.signExtend 32 else s.pc + 1#32) s) ∧
    Completes (.tiJumpEq i) s (MovesPc (if s.acc = 0#32 then s.pc + i.signExtend 32 else s.pc + 1#32) s) ∧
    Completes (.tiJumpGe i) s (MovesPc (if 0 ≤ s.acc.toInt then s.pc + i.signExtend 32 else s.pc + 1#32) s) ∧
    Completes (.tiJumpLt i) s (MovesPc (if s.acc.toInt < 0 then s.pc + i.signExtend 32 else s.pc + 1#32) s) ∧
    Completes (.tiJumpNe i) s (MovesPc (if s.acc ≠ 0#32 then s.pc + i.signExtend 32 else s.pc + 1#32) s) ∧
    Completes (.tiJumpLe i) s (MovesPc (if s.acc.toInt ≤ 0 then s.pc + i.signExtend 32 else s.pc + 1#32) s) ∧
    Completes (.tiJump i) s (MovesPc (s.pc + i.signExtend 32) s)) ∧
  ∀ (s : State) (i : BitVec 22),
    Completes (.osJumpGt i) s (MovesPc (if 0 < s.acc.toInt then s.pc + i.signExtend 32 else s.pc + 1#32) s) ∧
    Completes (.osJumpEq i) s (MovesPc (if s.acc = 0#32 then s.pc + i.signExtend 32 else s.pc + 1#32) s) ∧
    Completes (.osJumpGe i) s (MovesPc (if 0 ≤ s.acc.toInt then s.pc + i.signExtend 32 else s.pc + 1#32) s) ∧
    Completes (.osJumpLt i) s (MovesPc (if s.acc.toInt < 0 then s.pc + i.signExtend 32 else s.pc + 1#32) s) ∧
    Completes (.osJumpNe i) s (MovesPc (if s.acc ≠ 0#32 then s.pc + i.signExtend 32 else s.pc + 1#32) s) ∧
    Completes (.osJumpLe i) s (MovesPc (if s.acc.toInt ≤ 0 then s.pc + i.signExtend 32 else s.pc + 1#32) s) ∧
    Completes (.osJump i) s (MovesPc (s.pc + i.signExtend 32) s)

/-- From the word to its effect: a word of the JUMP class (OS, with `J = 00`) jumps exactly when the bit of its mask that
matches the sign of ACC is set (`43_jump.md` R240). Mask 000 is NOP and mask 111 always jumps. -/
def Obligations.JumpCondition : Prop :=
  ∀ (v : Variant) (w : Word) (s : State), slice w 30 2 = 0b11#2 → (v = .os → slice w 25 2 = 0b00#2) →
    ∃ i, decode v w = .ok i ∧
      Completes i s (MovesPc
        (if (w.getLsbD 29 = true ∧ s.acc.toInt < 0) ∨ (w.getLsbD 28 = true ∧ s.acc = 0#32) ∨
            (w.getLsbD 27 = true ∧ 0 < s.acc.toInt) then
          s.pc + (match v with
            | .ti => (slice w 0 24).signExtend 32
            | .os => (slice w 0 22).signExtend 32)
        else s.pc + 1#32) s)

/-- NOP: any operand bits are accepted, the encoder writes them as zero, and the instruction advances the program counter and
does nothing else (`43_jump.md` R242). -/
def Obligations.NopAdvances : Prop :=
  (∀ w : Word, w &&& 0xF8000000#32 = 0xC0000000#32 → decode .ti w = .ok .tiNop) ∧
  (∀ w : Word, w &&& 0xFE000000#32 = 0xC0000000#32 → decode .os w = .ok .osNop) ∧
  encode .tiNop = 0xC0000000#32 ∧ encode .osNop = 0xC0000000#32 ∧
  ∀ s : State, Completes .tiNop s (MovesPc (s.pc + 1#32) s) ∧ Completes .osNop s (MovesPc (s.pc + 1#32) s)

/-- INT takes the trap: the return address and the old flag are pushed as one entry, the flag is set, the program counter
becomes the vector's address, and nothing else changes (`44_os_int_rti.md` R261). What is saved, the vector number and the
default table are the spec's decisions D37 to D40; the list form of the table is log 8. -/
def Obligations.IntTakesTrap : Prop :=
  (∀ (s : State) (i : BitVec 22),
    exec (.osInt i) s = .next { s with
      returnStack := { ret := s.pc + 1#32, flag := s.inIsr } :: s.returnStack
      inIsr := true
      pc := ivtEntry s.config i.toNat }) ∧
  (∀ (c : Config) (k : Nat), c.ivt.lookup k = none → ivtEntry c k = c.codeBase + BitVec.ofNat 32 c.code.length) ∧
  ∀ (c : Config) (k : Nat) (a : Word), c.ivt.lookup k = some a → ivtEntry c k = a

/-- RTI pops one entry and restores the program counter and the flag from it, and nothing else changes; with nothing to pop
it faults (`44_os_int_rti.md` R262; the fault is the spec's decision D40). -/
def Obligations.RtiReturns : Prop :=
  ∀ (s : State) (e : ReturnEntry) (rest : List ReturnEntry),
    (s.returnStack = e :: rest →
      exec .osRti s = .next { s with pc := e.ret, inIsr := e.flag, returnStack := rest }) ∧
    (s.returnStack = [] → exec .osRti s = .fault .returnStackEmpty)

/-- Each RTI undoes one INT (`60_exceptions.md` R322): INT completes, and RTI in any later state whose return stack is again
the one INT left restores the program counter after the INT, the flag and the stack as they were, and nothing else; so
nested traps return last in, first out. -/
def Obligations.RtiUndoesInt : Prop :=
  ∀ (s : State) (i : BitVec 22), Completes (.osInt i) s fun t =>
    t.inIsr = true ∧
    ∀ h : State, h.returnStack = t.returnStack →
      exec .osRti h = .next { h with pc := s.pc + 1#32, inIsr := s.inIsr, returnStack := s.returnStack }

/-! ## Memory -/

/-- The TI data region: a write is read back, every other cell and the program are untouched, and a cell never written and not
in the initial data segment reads zero, here in a freshly built core (`20_memory.md` R56, R57). That the segment starts at cell
0 is the spec's decision D28; the canonical form of memory is the model's own (log 3). -/
def Obligations.TiMemory : Prop :=
  (∀ (s : State) (a v : Word), Memory.wf s.mem = true →
    tiMemRead (tiMemWrite s a v) a = v ∧
    (∀ b, b ≠ a → tiMemRead (tiMemWrite s a v) b = tiMemRead s b) ∧
    (tiMemWrite s a v).config = s.config ∧ Memory.wf (tiMemWrite s a v).mem = true) ∧
  ∀ (c : Config) (s : State) (a : Word), c.variant = .ti → construct c = some s → c.initData.length ≤ a.toNat →
    tiMemRead s a = 0#32

/-- OS `MemRead` by address ranges (`20_memory.md` R63): the loaded program in ROM, the three ports, RAM, and the fault
everywhere else. A port read returns the value drawn from the environment and records it; that all ports draw from one stream,
with a free value where it is empty, is log 5. The map, the ports and the fault are the spec's decisions D22, D24 and D25. -/
def Obligations.OsMemoryRead : Prop :=
  ∀ (s : State) (a : Word),
    (a.toNat < 2 ^ 30 → s.config.codeBase.toNat ≤ a.toNat →
      a.toNat < s.config.codeBase.toNat + (programWords s.config).length →
      ∃ w, (programWords s.config)[a.toNat - s.config.codeBase.toNat]? = some w ∧ osMemRead s a = .ok (w, s)) ∧
    (a.toNat < 2 ^ 30 →
      a.toNat < s.config.codeBase.toNat ∨ s.config.codeBase.toNat + (programWords s.config).length ≤ a.toNat →
      osMemRead s a = .error .unmappedAccess) ∧
    (a = 0x40000000#32 →
      osMemRead s a = .ok (uartValue s, recordEvent (uartAdvance s) (.read .transmit (uartValue s)))) ∧
    (a = 0x40000001#32 →
      osMemRead s a = .ok (uartValue s, recordEvent (uartAdvance s) (.read .receive (uartValue s)))) ∧
    (a = 0x40000002#32 →
      osMemRead s a = .ok (uartValue s, recordEvent (uartAdvance s) (.read .status (uartValue s)))) ∧
    (2 ^ 30 + 3 ≤ a.toNat → a.toNat < 2 ^ 31 → osMemRead s a = .error .unmappedAccess) ∧
    (2 ^ 31 ≤ a.toNat → osMemRead s a = .ok (Memory.read s.mem a.toNat, s))

/-- OS `MemWrite` by address ranges (`20_memory.md` R64): RAM, the three ports, and the faults. The fault on ROM is the spec's
decision D25. -/
def Obligations.OsMemoryWrite : Prop :=
  ∀ (s : State) (a v : Word),
    (a.toNat < 2 ^ 30 → osMemWrite s a v = .error .storeToRom) ∧
    (a = 0x40000000#32 → osMemWrite s a v = .ok (recordEvent s (.write .transmit v))) ∧
    (a = 0x40000001#32 → osMemWrite s a v = .ok (recordEvent s (.write .receive v))) ∧
    (a = 0x40000002#32 → osMemWrite s a v = .ok (recordEvent s (.write .status v))) ∧
    (2 ^ 30 + 3 ≤ a.toNat → a.toNat < 2 ^ 31 → osMemWrite s a v = .error .unmappedAccess) ∧
    (2 ^ 31 ≤ a.toNat → Memory.wf s.mem = true →
      ∃ t, osMemWrite s a v = .ok t ∧ osMemRead t a = .ok (v, t) ∧
        (∀ b, b ≠ a.toNat → Memory.read t.mem b = Memory.read s.mem b) ∧
        (∀ r, readReg t r = readReg s r) ∧ SameBut [] s t ∧ SameIo s t)

/-- Effective addresses: the TI field as it stands, the OS field under the ten high bits of DS, and the indexed sum modulo
`2^32` (`20_memory.md` R61, R66; the DS fill is the spec's decision D23, the wrap D21). -/
def Obligations.EffectiveAddresses : Prop :=
  (∀ i : BitVec 24, (eaDirectTi i).toNat = i.toNat) ∧
  (∀ (s : State) (i : BitVec 22), (eaDirectOs s i).toNat = s.ds.toNat / 2 ^ 22 * 2 ^ 22 + i.toNat) ∧
  (∀ (base : Word) (i : BitVec 24), ((eaIndexed base i).toNat : Int) = (base.toNat + i.toInt) % 2 ^ 32) ∧
  ∀ (base : Word) (i : BitVec 22), ((eaIndexed base i).toNat : Int) = (base.toNat + i.toInt) % 2 ^ 32

/-- TI: a load at the address of the store just before it returns the stored word, whichever of the three address forms
each of the two takes (`20_memory.md` R70). -/
def Obligations.TiStoreThenLoad : Prop :=
  ∀ (s : State) (d : Reg) (i j : BitVec 24), Memory.wf s.mem = true →
    ∀ p ∈ [(Instr.tiStore i, eaDirectTi i), (.tiStorein1 i, s.in1 + i.signExtend 32),
           (.tiStorein2 i, s.in2 + i.signExtend 32)],
    ∀ q ∈ [(Instr.tiLoad d j, eaDirectTi j), (.tiLoadin1 d j, s.in1 + j.signExtend 32),
           (.tiLoadin2 d j, s.in2 + j.signExtend 32)],
      p.2 = q.2 → Completes p.1 s fun t => Completes q.1 t fun u => readReg u d = s.acc

/-- OS: a load at the RAM address of the store just before it returns the stored word, in direct and indexed form
(`20_memory.md` R70). The base register of the second instruction is read after the first, so PC has moved on. -/
def Obligations.OsStoreThenLoad : Prop :=
  ∀ (s : State) (b c d r : Reg) (i j : BitVec 22), Memory.wf s.mem = true →
    ∀ p ∈ [(Instr.osStore r i, eaDirectOs s i), (.osStorein b r i, readReg s b + i.signExtend 32)],
      2 ^ 31 ≤ p.2.toNat →
      Completes p.1 s fun t =>
        (eaDirectOs t j = p.2 → Completes (.osLoad d j) t fun u => readReg u d = readReg s r) ∧
        (readReg t c + j.signExtend 32 = p.2 → Completes (.osLoadin c d j) t fun u => readReg u d = readReg s r)

/-! ## The step -/

/-- A step runs the decoded instruction: where the word fetched decodes to `i`, the step is `exec i` on the state after the
fetch, with the commit of step 6 of `45_step_and_interface.md` R281 on a next state: the status becomes Running and, in OS,
register `I` receives the word (the spec's decision D45). -/
def Obligations.StepRunsDecoded : Prop :=
  ∀ (s s1 : State) (w : Word) (i : Instr), (∀ c, s.status ≠ .faulted c) → validPC s = true →
    fetch s = .ok (w, s1) → decode s.config.variant w = .ok i →
    step s = mapNext (fun t => match t.config.variant with
      | .ti => { t with status := .running }
      | .os => { t with fetchReg := w, status := .running }) (exec i s1)

/-- Termination (`60_exceptions.md` R326, `45_step_and_interface.md` R281 step 2): at a program counter outside the valid code
range a step has the outcome Terminated, which is no fault and changes the status only, however often it is taken. That the
outcome is a next state with the status terminated is the model's choice (log 6). -/
def Obligations.Termination : Prop :=
  ∀ s : State, (∀ c, s.status ≠ .faulted c) → validPC s = false →
    step s = .next { s with status := .terminated } ∧ stepOutcome s = .terminated ∧
    ∀ n, afterSteps (n + 1) s = { s with status := .terminated }

/-- A reserved word at the program counter faults, before any access of its operands (`60_exceptions.md` R312; that it faults
rather than do nothing is the spec's decision D13). The state after it is the state before, but for the status and, where the
fetch itself read a port, the value drawn (log 7). -/
def Obligations.ReservedWordFaults : Prop :=
  ∀ (s s1 : State) (w : Word) (e : Reserved), (∀ c, s.status ≠ .faulted c) → validPC s = true →
    fetch s = .ok (w, s1) → decode s.config.variant w = .error e →
    step s = .fault .illegalInstruction ∧
    afterStep s = { s with
      status := .faulted .illegalInstruction, uartInput := s1.uartInput, uartDraws := s1.uartDraws }

/-- A faulted core answers its fault and stays as it is; a step that faults commits nothing but the status, and the core stays
so for ever; no host write clears the fault (`60_exceptions.md` R317, `45_step_and_interface.md` R281 steps 1 and 7, R294; the
spec's decision D43). A DIV or MOD that reads a zero faults after the read, and what the read drew from the I/O window stays
drawn, without an event (`40_compute.md` R160, log 7); with the default code range nothing else draws before a fault, so the
state is then exactly the state before, the status apart. -/
def Obligations.FaultAbsorbing : Prop :=
  (∀ (s : State) (c : Fault), s.status = .faulted c → step s = .fault c ∧ afterStep s = s) ∧
  (∀ (s : State) (c : Fault), step s = .fault c →
    (∃ inputs draws, afterStep s = { s with status := .faulted c, uartInput := inputs, uartDraws := draws }) ∧
    (∀ n, afterSteps (n + 1) s = afterStep s) ∧
    (∀ k z, step (setRegister (afterStep s) k z) = .fault c) ∧
    ∀ a w t, writeMem (afterStep s) a w = some t → step t = .fault c) ∧
  (∀ (s s1 s2 : State) (w : Word) (d : Reg) (n : BitVec 22), ∀ i ∈ [Instr.osDiv d n, .osMod d n],
    (∀ c, s.status ≠ .faulted c) → validPC s = true → fetch s = .ok (w, s1) →
    decode s.config.variant w = .ok i → osMemRead s1 (eaDirectOs s1 n) = .ok (0#32, s2) →
    step s = .fault .divideByZero ∧
    afterStep s = { s with status := .faulted .divideByZero, uartInput := s2.uartInput, uartDraws := s2.uartDraws }) ∧
  ∀ (s : State) (c : Fault), configValid s.config = true → s.config.widenedPC = [] → step s = .fault c →
    (c = .divideByZero → device s.ds ≠ .io) → afterStep s = { s with status := .faulted c }

/-- OS: a completed step leaves the word it fetched in register `I`, and a terminated one leaves `I` alone; in TI the field
never changes (`10_state.md` R35; the spec's decision D45). -/
def Obligations.FetchRegister : Prop :=
  ∀ s t : State, step s = .next t →
    (s.config.variant = .ti → t.fetchReg = s.fetchReg) ∧
    (s.config.variant = .os →
      (t.status = .running ∧ ∃ s1, fetch s = .ok (t.fetchReg, s1)) ∨
      (t.status = .terminated ∧ t.fetchReg = s.fetchReg))

/-- The variant is fixed at construction (`00_scope.md` R2), and with it every other parameter: a core has those it was built
with, and no step and no host write changes one (`10_state.md` R44). -/
def Obligations.ParametersFixed : Prop :=
  (∀ (c : Config) (s : State), construct c = some s → s.config = c) ∧
  (∀ (s : State) (n : Nat), (afterSteps n s).config = s.config) ∧
  (∀ (s : State) (k : Nat) (z : Int), (setRegister s k z).config = s.config) ∧
  ∀ (s t : State) (a : Nat) (w : Word), writeMem s a w = some t → t.config = s.config

/-- A TI core faults with IllegalInstruction only (`60_exceptions.md` R311; the spec's decision D43). -/
def Obligations.TiFaultsIllegalOnly : Prop :=
  ∀ (s : State) (c : Fault), s.config.variant = .ti → (∀ e, s.status ≠ .faulted e) → step s = .fault c →
    c = .illegalInstruction ∧ ∃ w s1 e, fetch s = .ok (w, s1) ∧ decode .ti w = .error e

/-- With an accepted configuration and the default code range, a fetch at a valid program counter reads the program word
standing there, cannot fault and changes nothing (`20_memory.md` R67). -/
def Obligations.FetchReadsProgram : Prop :=
  ∀ s : State, configValid s.config = true → s.config.widenedPC = [] → validPC s = true →
    (s.config.variant = .ti → ∃ w, s.config.code[s.pc.toNat]? = some w ∧ fetch s = .ok (w, s)) ∧
    (s.config.variant = .os → ∃ w, (programWords s.config)[s.pc.toNat - s.config.codeBase.toNat]? = some w ∧
      fetch s = .ok (w, s))

/-- Every step keeps the invariant of the core: memory in canonical form and in its space, an accepted configuration, the
in-interrupt flag in agreement with the return stack, no OS state in a TI core (`10_state.md` R36, R37, R41, R42;
`20_memory.md` R55, R60; log 3, log 4). -/
def Obligations.InvariantStep : Prop :=
  ∀ s t : State, Inv s → step s = .next t → Inv t

/-- The reset state meets the invariant. -/
def Obligations.InvariantReset : Prop :=
  Inv State.reset

/-- Every core that `construct` builds meets the invariant, and every host write keeps it
(`45_step_and_interface.md` R286, R289, R292). -/
def Obligations.InvariantHost : Prop :=
  (∀ (c : Config) (s : State), construct c = some s → Inv s) ∧
  (∀ (s : State) (k : Nat) (z : Int), Inv s → Inv (setRegister s k z)) ∧
  ∀ (s t : State) (a : Nat) (w : Word), Inv s → writeMem s a w = some t → Inv t

/-- One step adds at most one event to the I/O history and takes none away, with the default code range
(`10_state.md` R43, `20_memory.md` R53; the history is the spec's decision D24). -/
def Obligations.OneEventPerStep : Prop :=
  ∀ s t : State, configValid s.config = true → s.config.widenedPC = [] → step s = .next t →
    t.ioHistory = s.ioHistory ∨ ∃ e, t.ioHistory = s.ioHistory ++ [e]

/-- The in-interrupt flag gates nothing: every instruction but INT and RTI, which save and restore it, runs identically with
the flag set and clear (`60_exceptions.md` R325; the spec's decision D41). -/
def Obligations.FlagGatesNothing : Prop :=
  ∀ (i : Instr) (s : State) (b : Bool), (∀ k, i ≠ .osInt k) → i ≠ .osRti →
    exec i { s with inIsr := b } = mapNext (fun t => { t with inIsr := b }) (exec i s)

/-- A TI step does not depend on what the environment would supply (`45_step_and_interface.md` R283). -/
def Obligations.TiIgnoresEnvironment : Prop :=
  ∀ (s : State) (inputs : List Word) (n : Nat), s.config.variant = .ti →
    step { s with uartInput := inputs, uartDraws := n } =
      mapNext (fun t => { t with uartInput := inputs, uartDraws := n }) (step s)

/-- The model's stand-in for a program load (log 2): the word given stands where the next step fetches it, and the registers
and the program counter are as before. A program counter in the OS I/O window is left out: no word can stand there. -/
def Obligations.FetchWordPlaced : Prop :=
  ∀ (s : State) (nbits w : Nat), Memory.wf s.mem = true → (s.config.variant = .os → device s.pc ≠ .io) →
    validPC (s.withFetchWord nbits w) = true ∧
    fetch (s.withFetchWord nbits w) = .ok (BitVec.ofNat 32 (w % 2 ^ nbits), s.withFetchWord nbits w) ∧
    (s.withFetchWord nbits w).status = .running ∧
    ∀ r, readReg (s.withFetchWord nbits w) r = readReg s r

/-! ## The host interface -/

/-- `getRegister` and `setRegister` (`45_step_and_interface.md` R288, R289): the index is the register's number, the value read
is the signed reading of that register, PC unsigned, and the value written is reduced to 32 bits and read back the same way;
nothing else changes; outside the domain there is no value and no effect; and what the host writes to register `I` the next
completed step overwrites. The numbers are the spec's decision D7, the domain D49, register `I` D45. -/
def Obligations.RegisterAccessors : Prop :=
  ∀ (s : State) (k : Nat) (z : Int),
    (indexInDomain s.config.variant k = true →
      (∀ p ∈ [(0, Reg.pc), (1, .in1), (2, .in2), (3, .acc), (4, .sp), (5, .baf), (6, .cs), (7, .ds)], p.1 = k →
        getRegister s k = some (if k = 0 then (s.pc.toNat : Int) else (readReg s p.2).toInt) ∧
        readReg (setRegister s k z) p.2 = BitVec.ofInt 32 z ∧
        (∀ q, q ≠ p.2 → readReg (setRegister s k z) q = readReg s q) ∧
        (setRegister s k z).fetchReg = s.fetchReg) ∧
      (k = 8 →
        getRegister s k = some s.fetchReg.toInt ∧
        (setRegister s k z).fetchReg = BitVec.ofInt 32 z ∧
        ∀ q, readReg (setRegister s k z) q = readReg s q) ∧
      getRegister (setRegister s k z) k = some (if k = 0 then z % 2 ^ 32 else Int.bmod z (2 ^ 32)) ∧
      (∀ j, j ≠ k → getRegister (setRegister s k z) j = getRegister s j) ∧
      (setRegister s k z).mem = s.mem ∧ (setRegister s k z).returnStack = s.returnStack ∧
      (setRegister s k z).inIsr = s.inIsr ∧ (setRegister s k z).status = s.status ∧
      (setRegister s k z).config = s.config ∧ SameIo s (setRegister s k z)) ∧
    (indexInDomain s.config.variant k = true ↔ k < 4 ∨ s.config.variant = .os ∧ k < 9) ∧
    (indexInDomain s.config.variant k = false → getRegister s k = none ∧ setRegister s k z = s) ∧
    (s.config.variant = .os → (∀ c, s.status ≠ .faulted c) → validPC s = true → step (setRegister s 8 z) = step s)

/-- `readMem` and `writeMem` (`45_step_and_interface.md` R291, R292; the spec's decision D48): the data cells of TI and the
RAM of OS are read and written, the loaded program of OS is read, and everything else has no value and is refused. A write
changes its cell alone: every register, the return stack, the flag, the status, the parameters and the I/O record are as before. -/
def Obligations.MemoryAccessors : Prop :=
  ∀ (s : State) (a : Nat) (w : Word), Memory.wf s.mem = true → a < 2 ^ 32 →
    (s.config.variant = .ti ∨ 2 ^ 31 ≤ a →
      readMem s a = some (Memory.read s.mem a) ∧
      ∃ t, writeMem s a w = some t ∧ readMem t a = some w ∧ (∀ b, b ≠ a → readMem t b = readMem s b) ∧
        (∀ r, readReg t r = readReg s r) ∧ SameBut [] s t ∧ SameIo s t) ∧
    (s.config.variant = .os → a < 2 ^ 31 → writeMem s a w = none) ∧
    (s.config.variant = .os → 2 ^ 30 ≤ a → a < 2 ^ 31 → readMem s a = none) ∧
    (s.config.variant = .os → a < 2 ^ 30 → readMem s a =
      if s.config.codeBase.toNat ≤ a then (programWords s.config)[a - s.config.codeBase.toNat]? else none)

/-- Where `callTarget` gives an address, the core is at a call-like instruction, and the next step completes with the program
counter at that address (`45_step_and_interface.md` R297; the spec's decision D44). -/
def Obligations.CallTargetIsNextPc : Prop :=
  ∀ (s : State) (a : Word), callTarget s = some a →
    isCallInstruction s = true ∧ ∃ t, step s = .next t ∧ t.status = .running ∧ t.pc = a

/-- `construct` refuses exactly the configurations that break a constraint (`45_step_and_interface.md` R286, `00_scope.md` R6,
`20_memory.md` R75; the constraints are the spec's decisions D27 and D28, read literally for an empty segment: log 13; that
a TI segment must fit its data region: log 14). -/
def Obligations.ConstructRefuses : Prop :=
  ∀ c : Config,
    (c.variant = .ti → ((construct c).isSome = true ↔ c.initData.length ≤ 2 ^ 32)) ∧
    (c.variant = .os → ((construct c).isSome = true ↔
      c.codeBase.toNat < 2 ^ 30 ∧ c.codeBase.toNat + (c.code.length + c.isrCode.length) ≤ 2 ^ 30 ∧
      2 ^ 31 ≤ c.dsReset.toNat ∧ c.dsReset.toNat + c.initData.length ≤ 2 ^ 32))

/-- The state of a freshly built core (`10_state.md` R45, `20_memory.md` R75): the registers, the hidden state, and memory
with the initial data segment in place. The reset values are the spec's decision D46, the place of the segment D28; what a TI
core holds in the registers it does not have is log 4. -/
def Obligations.ConstructState : Prop :=
  ∀ (c : Config) (s : State), construct c = some s →
    s.config = c ∧ s.status = .running ∧ s.in1 = 0#32 ∧ s.in2 = 0#32 ∧ s.acc = 0#32 ∧ s.fetchReg = 0#32 ∧
    s.returnStack = [] ∧ s.inIsr = false ∧ s.ioHistory = [] ∧
    (c.variant = .ti → s.pc = 0#32 ∧ ∀ a, Memory.read s.mem a = (c.initData[a]?).getD 0#32) ∧
    (c.variant = .os → s.pc = c.codeBase ∧ s.cs = c.codeBase ∧ s.ds = c.dsReset ∧ s.sp = c.spReset ∧
      s.baf = c.bafReset ∧
      ∀ a, Memory.read s.mem a =
        if c.dsReset.toNat ≤ a then (c.initData[a - c.dsReset.toNat]?).getD 0#32 else 0#32)

/-- The reset state is the state of a freshly built OS core with the default parameters and no program: PC and CS at the code
base, DS at the first RAM address, everything else zero or empty (`70_reset_and_hazards.md` R341; the values are the spec's
decision D46, the variant and the empty program log 1 and log 2). -/
def Obligations.ResetState : Prop :=
  construct (Config.default .os) = some State.reset ∧
  State.reset.pc = 0#32 ∧ State.reset.cs = 0#32 ∧ State.reset.ds = 0x80000000#32 ∧
  (∀ r, r ≠ .ds → readReg State.reset r = 0#32) ∧ (∀ a, Memory.read State.reset.mem a = 0#32) ∧
  stepOutcome State.reset = .terminated
end

