-- ==== Sys2Proof/Laws/Decode.lean ====
section
/-! SUPPORT. Bit fields of words: a slice of a placed field, and register numbers. -/

namespace Sys2Proof

theorem slice_or (a b : Word) (lo n : Nat) : slice (a ||| b) lo n = slice a lo n ||| slice b lo n := by
  apply BitVec.eq_of_getLsbD_eq
  intro k hk
  simp [slice, hk]

theorem slice_and (a b : Word) (lo n : Nat) : slice (a &&& b) lo n = slice a lo n &&& slice b lo n := by
  apply BitVec.eq_of_getLsbD_eq
  intro k hk
  simp [slice, hk]

theorem getLsbD_field {n : Nat} (x : BitVec n) (lo k : Nat) :
    (field x lo).getLsbD k = (decide (k < 32) && decide (lo ≤ k) && x.getLsbD (k - lo)) := by
  unfold field
  rw [BitVec.getLsbD_shiftLeft, BitVec.getLsbD_setWidth]
  by_cases h1 : k < 32
  · have h3 : k - lo < 32 := by omega
    by_cases h2 : lo ≤ k <;> simp [h1, h2, h3]
  · simp [h1]

theorem getLsbD_slice (w : Word) (lo len k : Nat) :
    (slice w lo len).getLsbD k = (decide (k < len) && w.getLsbD (lo + k)) :=
  BitVec.getLsbD_extractLsb' ..

theorem slice_field_same {n : Nat} (x : BitVec n) (lo : Nat) (h : lo + n ≤ 32) : slice (field x lo) lo n = x := by
  apply BitVec.eq_of_getLsbD_eq
  intro k hk
  have h1 : lo + k < 32 := by omega
  rw [getLsbD_slice, getLsbD_field]
  simp [hk, h1]

theorem slice_field_disjoint {n : Nat} (x : BitVec n) (lo start len : Nat) (h : start + len ≤ lo ∨ lo + n ≤ start) :
    slice (field x lo) start len = 0#len := by
  apply BitVec.eq_of_getLsbD_eq
  intro k hk
  have hx : ¬ lo ≤ start + k ∨ x.getLsbD (start + k - lo) = false := by
    rcases h with h | h
    · left; omega
    · right; exact BitVec.getLsbD_of_ge _ _ (by omega)
  rw [getLsbD_slice, getLsbD_field]
  rcases hx with hx | hx <;> simp [hx]

/-- A placed field meets a mask that is clear where the field stands in no bit. -/
theorem field_and_eq_zero {n : Nat} (x : BitVec n) (lo : Nat) (m : Word) (h : slice m lo n = 0#n) :
    field x lo &&& m = 0#32 := by
  apply BitVec.eq_of_getLsbD_eq
  intro k hk
  rw [BitVec.getLsbD_and, getLsbD_field]
  by_cases h1 : lo ≤ k ∧ k - lo < n
  · have h2 : (slice m lo n).getLsbD (k - lo) = false := by rw [h]; simp
    rw [getLsbD_slice, Nat.add_sub_cancel' h1.1] at h2
    simp only [h1.2, decide_true, Bool.true_and] at h2
    simp [h2]
  · have h2 : ¬ lo ≤ k ∨ x.getLsbD (k - lo) = false := by
      by_cases h3 : lo ≤ k
      · right; exact BitVec.getLsbD_of_ge _ _ (by omega)
      · left; exact h3
    rcases h2 with h2 | h2 <;> simp [h2]

@[simp] theorem ofCode3_code3 (r : Reg) : Reg.ofCode3 r.code3 = r := by
  cases r <;> decide

theorem ofCode2_code2 (r : Reg) (h : Reg.inVariant .ti r = true) : Reg.ofCode2 r.code2 = r := by
  cases r <;> first | decide | exact absurd h (by decide)

@[simp] theorem code3_ofCode3 (c : BitVec 3) : (Reg.ofCode3 c).code3 = c := by
  revert c; decide

@[simp] theorem code2_ofCode2 (c : BitVec 2) : (Reg.ofCode2 c).code2 = c := by
  revert c; decide

@[simp] theorem ofCode2_inVariant (v : Variant) (c : BitVec 2) : Reg.inVariant v (Reg.ofCode2 c) = true := by
  revert c; cases v <;> decide

/-- What `decodeTi` answers is a TI instruction. -/
theorem decodeTi_variant (w : Word) (i : Instr) (h : decodeTi w = .ok i) : i.variant = .ti := by
  unfold decodeTi at h
  repeat' split at h
  all_goals cases h
  all_goals rfl

/-- What `decodeOs` answers is an OS instruction. -/
theorem decodeOs_variant (w : Word) (i : Instr) (h : decodeOs w = .ok i) : i.variant = .os := by
  unfold decodeOs at h
  repeat' split at h
  all_goals cases h
  all_goals rfl

theorem decode_variant (v : Variant) (w : Word) (i : Instr) (h : decode v w = .ok i) : i.variant = v := by
  cases v
  · exact decodeTi_variant w i h
  · exact decodeOs_variant w i h

end Sys2Proof
end

