-- ==== Sys2Proof/Laws/Memory.lean ====
section
/-! SUPPORT. Memory as a map: a read after a write, and the canonical form every operation keeps. -/

namespace Sys2Proof.Machine

@[simp] theorem memory_read_nil (a : Nat) : Memory.read [] a = Memory.blank := rfl

theorem memory_wf_cons (a : Nat) (v : Word) (m : Memory) :
    Memory.wf ((a, v) :: m) = true ↔ v ≠ Memory.blank ∧ (∀ c ∈ m, a < c.1) ∧ Memory.wf m = true := by
  simp [Memory.wf, List.all_eq_true, and_assoc]

/-- A cell below every listed address is not listed. -/
theorem memory_read_below (m : Memory) (a : Nat) (h : ∀ c ∈ m, a < c.1) : Memory.read m a = Memory.blank := by
  induction m with
  | nil => rfl
  | cons c rest ih =>
    have hc := h c (by simp)
    simp only [Memory.read]
    rw [if_neg (by omega)]
    exact ih fun x hx => h x (by simp [hx])

theorem memory_read_write_same (m : Memory) (h : Memory.wf m = true) (a : Nat) (v : Word) :
    Memory.read (Memory.write m a v) a = v := by
  induction m with
  | nil => by_cases hv : v = Memory.blank <;> simp [Memory.write, Memory.read, hv]
  | cons c rest ih =>
    obtain ⟨b, u⟩ := c
    obtain ⟨-, hlt, hrest⟩ := (memory_wf_cons b u rest).1 h
    have below (hab : a ≤ b) : Memory.read rest a = Memory.blank :=
      memory_read_below rest a fun c hc => lt_of_le_of_lt hab (hlt c hc)
    simp only [Memory.write]
    split
    next hab =>
      by_cases hv : v = Memory.blank
      · simp [hv, Memory.read, Nat.ne_of_lt hab, below (Nat.le_of_lt hab)]
      · simp [hv, Memory.read]
    next hab =>
      split
      next heq =>
        by_cases hv : v = Memory.blank
        · simp [hv, below (Nat.le_of_eq heq)]
        · simp [hv, Memory.read]
      next hne => simp [Memory.read, hne, ih hrest]

/-- A write leaves every other cell alone. -/
theorem memory_read_write_other (m : Memory) (a b : Nat) (v : Word) (h : b ≠ a) :
    Memory.read (Memory.write m a v) b = Memory.read m b := by
  induction m with
  | nil => by_cases hv : v = Memory.blank <;> simp [Memory.write, Memory.read, hv, h]
  | cons c rest ih =>
    obtain ⟨x, u⟩ := c
    simp only [Memory.write]
    split
    · split <;> simp [Memory.read, h]
    · split
      next heq =>
        subst heq
        split <;> simp [Memory.read, h]
      next => simp [Memory.read, ih]

theorem memory_mem_write (m : Memory) (a : Nat) (v : Word) (c : Nat × Word) (h : c ∈ Memory.write m a v) :
    c = (a, v) ∨ c ∈ m := by
  induction m with
  | nil => by_cases hv : v = Memory.blank <;> simp_all [Memory.write]
  | cons x rest ih =>
    obtain ⟨b, u⟩ := x
    simp only [Memory.write] at h
    split at h
    · split at h <;> simp_all
    · split at h
      next heq =>
        subst heq
        split at h
        · exact Or.inr (by simp [h])
        · rcases List.mem_cons.1 h with h | h
          · exact Or.inl h
          · exact Or.inr (by simp [h])
      · rcases List.mem_cons.1 h with h | h
        · exact Or.inr (by simp [h])
        · rcases ih h with h | h
          · exact Or.inl h
          · exact Or.inr (by simp [h])

/-- A write keeps the canonical form. -/
theorem memory_write_wf (m : Memory) (h : Memory.wf m = true) (a : Nat) (v : Word) :
    Memory.wf (Memory.write m a v) = true := by
  induction m with
  | nil => by_cases hv : v = Memory.blank <;> simp_all [Memory.write, Memory.wf]
  | cons c rest ih =>
    obtain ⟨b, u⟩ := c
    obtain ⟨hu, hlt, hrest⟩ := (memory_wf_cons b u rest).1 h
    simp only [Memory.write]
    split
    next hab =>
      split
      · exact h
      next hv =>
        refine (memory_wf_cons a v _).2 ⟨hv, ?_, h⟩
        intro c hc
        rcases List.mem_cons.1 hc with rfl | hc
        · exact hab
        · exact lt_trans hab (hlt c hc)
    next hab =>
      split
      next heq =>
        subst heq
        split
        · exact hrest
        next hv => exact (memory_wf_cons a v rest).2 ⟨hv, hlt, hrest⟩
      next hne =>
        refine (memory_wf_cons b u _).2 ⟨hu, ?_, ih hrest⟩
        intro c hc
        rcases memory_mem_write rest a v c hc with rfl | hc
        · simp only; omega
        · exact hlt c hc

theorem memory_load_wf (ws : List Word) : ∀ (m : Memory) (a : Nat), Memory.wf m = true →
    Memory.wf (Memory.load m a ws) = true := by
  induction ws with
  | nil => intro m a h; exact h
  | cons w rest ih => intro m a h; exact ih _ _ (memory_write_wf m h a w)

theorem reset_mem_wf : Memory.wf State.reset.mem = true := rfl

theorem tiMemWrite_wf (s : State) (h : Memory.wf s.mem = true) (a v : Word) : Memory.wf (tiMemWrite s a v).mem = true :=
  memory_write_wf s.mem h a.toNat v

theorem osMemWrite_wf (s t : State) (h : Memory.wf s.mem = true) (a v : Word) (ht : osMemWrite s a v = .ok t) :
    Memory.wf t.mem = true := by
  unfold osMemWrite at ht
  split at ht
  · cases ht
  · split at ht <;> cases ht
    exact h
  · cases ht
    exact memory_write_wf s.mem h a.toNat v

theorem placeWord_wf (s : State) (h : Memory.wf s.mem = true) (w : Word) : Memory.wf (placeWord s w).mem = true := by
  unfold placeWord
  repeat' split
  all_goals first | exact h | exact memory_write_wf s.mem h s.pc.toNat w

/-- Equal contents make equal memories: the canonical form is canonical. -/
theorem memory_ext (m n : Memory) (hm : Memory.wf m = true) (hn : Memory.wf n = true)
    (h : ∀ a, Memory.read m a = Memory.read n a) : m = n := by
  induction m generalizing n with
  | nil =>
    cases n with
    | nil => rfl
    | cons c rest =>
      obtain ⟨b, u⟩ := c
      have := h b
      simp [Memory.read] at this
      exact absurd this.symm ((memory_wf_cons b u rest).1 hn).1
  | cons c rest ih =>
    obtain ⟨a, v⟩ := c
    obtain ⟨hv, hlt, hrest⟩ := (memory_wf_cons a v rest).1 hm
    cases n with
    | nil =>
      have := h a
      simp [Memory.read] at this
      exact absurd this hv
    | cons d rest' =>
      obtain ⟨b, u⟩ := d
      obtain ⟨hu, hlt', hrest'⟩ := (memory_wf_cons b u rest').1 hn
      have hab : a = b := by
        by_contra hne
        rcases Nat.lt_or_gt_of_ne hne with hl | hl
        · have h1 := h a
          rw [memory_read_below ((b, u) :: rest') a (by
            intro c hc
            rcases List.mem_cons.1 hc with rfl | hc
            · exact hl
            · exact lt_trans hl (hlt' c hc))] at h1
          simp [Memory.read] at h1
          exact hv h1
        · have h1 := h b
          rw [memory_read_below ((a, v) :: rest) b (by
            intro c hc
            rcases List.mem_cons.1 hc with rfl | hc
            · exact hl
            · exact lt_trans hl (hlt c hc))] at h1
          simp [Memory.read] at h1
          exact hu h1.symm
      subst hab
      have huv : v = u := by simpa [Memory.read] using h a
      subst huv
      congr 1
      apply ih rest' hrest hrest'
      intro x
      by_cases hx : x = a
      · subst hx
        rw [memory_read_below rest x hlt, memory_read_below rest' x hlt']
      · simpa [Memory.read, hx] using h x

end Sys2Proof.Machine
end

