-- ==== Sys2Proof/Laws/State.lean ====
section
/-! SUPPORT. One lemma for each field of State and each named update, so that no proof unfolds a record update. -/

namespace Sys2Proof.Machine

/-! ## nextPc -/

@[simp] theorem nextPc_pc (s : State) : (nextPc s).pc = s.pc + 1#32 := rfl
@[simp] theorem nextPc_config (s : State) : (nextPc s).config = s.config := rfl
@[simp] theorem nextPc_in1 (s : State) : (nextPc s).in1 = s.in1 := rfl
@[simp] theorem nextPc_in2 (s : State) : (nextPc s).in2 = s.in2 := rfl
@[simp] theorem nextPc_acc (s : State) : (nextPc s).acc = s.acc := rfl
@[simp] theorem nextPc_sp (s : State) : (nextPc s).sp = s.sp := rfl
@[simp] theorem nextPc_baf (s : State) : (nextPc s).baf = s.baf := rfl
@[simp] theorem nextPc_cs (s : State) : (nextPc s).cs = s.cs := rfl
@[simp] theorem nextPc_ds (s : State) : (nextPc s).ds = s.ds := rfl
@[simp] theorem nextPc_fetchReg (s : State) : (nextPc s).fetchReg = s.fetchReg := rfl
@[simp] theorem nextPc_returnStack (s : State) : (nextPc s).returnStack = s.returnStack := rfl
@[simp] theorem nextPc_inIsr (s : State) : (nextPc s).inIsr = s.inIsr := rfl
@[simp] theorem nextPc_status (s : State) : (nextPc s).status = s.status := rfl
@[simp] theorem nextPc_mem (s : State) : (nextPc s).mem = s.mem := rfl
@[simp] theorem nextPc_ioHistory (s : State) : (nextPc s).ioHistory = s.ioHistory := rfl
@[simp] theorem nextPc_uartInput (s : State) : (nextPc s).uartInput = s.uartInput := rfl
@[simp] theorem nextPc_uartDraws (s : State) : (nextPc s).uartDraws = s.uartDraws := rfl

/-! ## writeReg -/

@[simp] theorem writeReg_config (s : State) (r : Reg) (v : Word) : (writeReg s r v).config = s.config := by
  cases r <;> rfl
@[simp] theorem writeReg_fetchReg (s : State) (r : Reg) (v : Word) : (writeReg s r v).fetchReg = s.fetchReg := by
  cases r <;> rfl
@[simp] theorem writeReg_returnStack (s : State) (r : Reg) (v : Word) : (writeReg s r v).returnStack = s.returnStack := by
  cases r <;> rfl
@[simp] theorem writeReg_inIsr (s : State) (r : Reg) (v : Word) : (writeReg s r v).inIsr = s.inIsr := by
  cases r <;> rfl
@[simp] theorem writeReg_status (s : State) (r : Reg) (v : Word) : (writeReg s r v).status = s.status := by
  cases r <;> rfl
@[simp] theorem writeReg_mem (s : State) (r : Reg) (v : Word) : (writeReg s r v).mem = s.mem := by
  cases r <;> rfl
@[simp] theorem writeReg_ioHistory (s : State) (r : Reg) (v : Word) : (writeReg s r v).ioHistory = s.ioHistory := by
  cases r <;> rfl
@[simp] theorem writeReg_uartInput (s : State) (r : Reg) (v : Word) : (writeReg s r v).uartInput = s.uartInput := by
  cases r <;> rfl
@[simp] theorem writeReg_uartDraws (s : State) (r : Reg) (v : Word) : (writeReg s r v).uartDraws = s.uartDraws := by
  cases r <;> rfl
@[simp] theorem readReg_writeReg_same (s : State) (r : Reg) (v : Word) : readReg (writeReg s r v) r = v := by
  cases r <;> rfl
theorem readReg_writeReg_ne (s : State) (r q : Reg) (v : Word) (h : q ≠ r) :
    readReg (writeReg s r v) q = readReg s q := by
  cases r <;> cases q <;> first | rfl | exact absurd rfl h
theorem writeReg_pc_ne (s : State) (r : Reg) (v : Word) (h : r ≠ .pc) : (writeReg s r v).pc = s.pc :=
  readReg_writeReg_ne s r .pc v (Ne.symm h)
@[simp] theorem writeReg_pc_pc (s : State) (v : Word) : (writeReg s .pc v).pc = v := rfl
theorem readReg_nextPc (s : State) (r : Reg) (h : r ≠ .pc) : readReg (nextPc s) r = readReg s r := by
  cases r <;> first | rfl | exact absurd rfl h

/-! ## writeBack -/

@[simp] theorem writeBack_config (d : Reg) (v : Word) (s : State) : (writeBack d v s).config = s.config := by
  unfold writeBack; split <;> simp
@[simp] theorem writeBack_fetchReg (d : Reg) (v : Word) (s : State) : (writeBack d v s).fetchReg = s.fetchReg := by
  unfold writeBack; split <;> simp
@[simp] theorem writeBack_returnStack (d : Reg) (v : Word) (s : State) : (writeBack d v s).returnStack = s.returnStack := by
  unfold writeBack; split <;> simp
@[simp] theorem writeBack_inIsr (d : Reg) (v : Word) (s : State) : (writeBack d v s).inIsr = s.inIsr := by
  unfold writeBack; split <;> simp
@[simp] theorem writeBack_status (d : Reg) (v : Word) (s : State) : (writeBack d v s).status = s.status := by
  unfold writeBack; split <;> simp
@[simp] theorem writeBack_mem (d : Reg) (v : Word) (s : State) : (writeBack d v s).mem = s.mem := by
  unfold writeBack; split <;> simp
@[simp] theorem writeBack_ioHistory (d : Reg) (v : Word) (s : State) : (writeBack d v s).ioHistory = s.ioHistory := by
  unfold writeBack; split <;> simp
@[simp] theorem writeBack_uartInput (d : Reg) (v : Word) (s : State) : (writeBack d v s).uartInput = s.uartInput := by
  unfold writeBack; split <;> simp
@[simp] theorem writeBack_uartDraws (d : Reg) (v : Word) (s : State) : (writeBack d v s).uartDraws = s.uartDraws := by
  unfold writeBack; split <;> simp

/-! ## tiMemWrite -/

@[simp] theorem tiMemWrite_config (s : State) (a v : Word) : (tiMemWrite s a v).config = s.config := rfl
@[simp] theorem tiMemWrite_pc (s : State) (a v : Word) : (tiMemWrite s a v).pc = s.pc := rfl
@[simp] theorem tiMemWrite_in1 (s : State) (a v : Word) : (tiMemWrite s a v).in1 = s.in1 := rfl
@[simp] theorem tiMemWrite_in2 (s : State) (a v : Word) : (tiMemWrite s a v).in2 = s.in2 := rfl
@[simp] theorem tiMemWrite_acc (s : State) (a v : Word) : (tiMemWrite s a v).acc = s.acc := rfl
@[simp] theorem tiMemWrite_sp (s : State) (a v : Word) : (tiMemWrite s a v).sp = s.sp := rfl
@[simp] theorem tiMemWrite_baf (s : State) (a v : Word) : (tiMemWrite s a v).baf = s.baf := rfl
@[simp] theorem tiMemWrite_cs (s : State) (a v : Word) : (tiMemWrite s a v).cs = s.cs := rfl
@[simp] theorem tiMemWrite_ds (s : State) (a v : Word) : (tiMemWrite s a v).ds = s.ds := rfl
@[simp] theorem tiMemWrite_fetchReg (s : State) (a v : Word) : (tiMemWrite s a v).fetchReg = s.fetchReg := rfl
@[simp] theorem tiMemWrite_returnStack (s : State) (a v : Word) : (tiMemWrite s a v).returnStack = s.returnStack := rfl
@[simp] theorem tiMemWrite_inIsr (s : State) (a v : Word) : (tiMemWrite s a v).inIsr = s.inIsr := rfl
@[simp] theorem tiMemWrite_status (s : State) (a v : Word) : (tiMemWrite s a v).status = s.status := rfl
@[simp] theorem tiMemWrite_mem (s : State) (a v : Word) : (tiMemWrite s a v).mem = Memory.write s.mem a.toNat v := rfl
@[simp] theorem tiMemWrite_ioHistory (s : State) (a v : Word) : (tiMemWrite s a v).ioHistory = s.ioHistory := rfl
@[simp] theorem tiMemWrite_uartInput (s : State) (a v : Word) : (tiMemWrite s a v).uartInput = s.uartInput := rfl
@[simp] theorem tiMemWrite_uartDraws (s : State) (a v : Word) : (tiMemWrite s a v).uartDraws = s.uartDraws := rfl

/-! ## recordEvent -/

@[simp] theorem recordEvent_config (s : State) (e : IoEvent) : (recordEvent s e).config = s.config := rfl
@[simp] theorem recordEvent_pc (s : State) (e : IoEvent) : (recordEvent s e).pc = s.pc := rfl
@[simp] theorem recordEvent_in1 (s : State) (e : IoEvent) : (recordEvent s e).in1 = s.in1 := rfl
@[simp] theorem recordEvent_in2 (s : State) (e : IoEvent) : (recordEvent s e).in2 = s.in2 := rfl
@[simp] theorem recordEvent_acc (s : State) (e : IoEvent) : (recordEvent s e).acc = s.acc := rfl
@[simp] theorem recordEvent_sp (s : State) (e : IoEvent) : (recordEvent s e).sp = s.sp := rfl
@[simp] theorem recordEvent_baf (s : State) (e : IoEvent) : (recordEvent s e).baf = s.baf := rfl
@[simp] theorem recordEvent_cs (s : State) (e : IoEvent) : (recordEvent s e).cs = s.cs := rfl
@[simp] theorem recordEvent_ds (s : State) (e : IoEvent) : (recordEvent s e).ds = s.ds := rfl
@[simp] theorem recordEvent_fetchReg (s : State) (e : IoEvent) : (recordEvent s e).fetchReg = s.fetchReg := rfl
@[simp] theorem recordEvent_returnStack (s : State) (e : IoEvent) : (recordEvent s e).returnStack = s.returnStack := rfl
@[simp] theorem recordEvent_inIsr (s : State) (e : IoEvent) : (recordEvent s e).inIsr = s.inIsr := rfl
@[simp] theorem recordEvent_status (s : State) (e : IoEvent) : (recordEvent s e).status = s.status := rfl
@[simp] theorem recordEvent_mem (s : State) (e : IoEvent) : (recordEvent s e).mem = s.mem := rfl
@[simp] theorem recordEvent_ioHistory (s : State) (e : IoEvent) : (recordEvent s e).ioHistory = s.ioHistory ++ [e] := rfl
@[simp] theorem recordEvent_uartInput (s : State) (e : IoEvent) : (recordEvent s e).uartInput = s.uartInput := rfl
@[simp] theorem recordEvent_uartDraws (s : State) (e : IoEvent) : (recordEvent s e).uartDraws = s.uartDraws := rfl

/-! ## uartAdvance -/

@[simp] theorem uartAdvance_config (s : State) : (uartAdvance s).config = s.config := by
  unfold uartAdvance; split <;> rfl
@[simp] theorem uartAdvance_pc (s : State) : (uartAdvance s).pc = s.pc := by
  unfold uartAdvance; split <;> rfl
@[simp] theorem uartAdvance_in1 (s : State) : (uartAdvance s).in1 = s.in1 := by
  unfold uartAdvance; split <;> rfl
@[simp] theorem uartAdvance_in2 (s : State) : (uartAdvance s).in2 = s.in2 := by
  unfold uartAdvance; split <;> rfl
@[simp] theorem uartAdvance_acc (s : State) : (uartAdvance s).acc = s.acc := by
  unfold uartAdvance; split <;> rfl
@[simp] theorem uartAdvance_sp (s : State) : (uartAdvance s).sp = s.sp := by
  unfold uartAdvance; split <;> rfl
@[simp] theorem uartAdvance_baf (s : State) : (uartAdvance s).baf = s.baf := by
  unfold uartAdvance; split <;> rfl
@[simp] theorem uartAdvance_cs (s : State) : (uartAdvance s).cs = s.cs := by
  unfold uartAdvance; split <;> rfl
@[simp] theorem uartAdvance_ds (s : State) : (uartAdvance s).ds = s.ds := by
  unfold uartAdvance; split <;> rfl
@[simp] theorem uartAdvance_fetchReg (s : State) : (uartAdvance s).fetchReg = s.fetchReg := by
  unfold uartAdvance; split <;> rfl
@[simp] theorem uartAdvance_returnStack (s : State) : (uartAdvance s).returnStack = s.returnStack := by
  unfold uartAdvance; split <;> rfl
@[simp] theorem uartAdvance_inIsr (s : State) : (uartAdvance s).inIsr = s.inIsr := by
  unfold uartAdvance; split <;> rfl
@[simp] theorem uartAdvance_status (s : State) : (uartAdvance s).status = s.status := by
  unfold uartAdvance; split <;> rfl
@[simp] theorem uartAdvance_mem (s : State) : (uartAdvance s).mem = s.mem := by
  unfold uartAdvance; split <;> rfl
@[simp] theorem uartAdvance_ioHistory (s : State) : (uartAdvance s).ioHistory = s.ioHistory := by
  unfold uartAdvance; split <;> rfl

/-! ## trapEnter -/

@[simp] theorem trapEnter_config (k : Nat) (s : State) : (trapEnter k s).config = s.config := rfl
@[simp] theorem trapEnter_pc (k : Nat) (s : State) : (trapEnter k s).pc = ivtEntry s.config k := rfl
@[simp] theorem trapEnter_in1 (k : Nat) (s : State) : (trapEnter k s).in1 = s.in1 := rfl
@[simp] theorem trapEnter_in2 (k : Nat) (s : State) : (trapEnter k s).in2 = s.in2 := rfl
@[simp] theorem trapEnter_acc (k : Nat) (s : State) : (trapEnter k s).acc = s.acc := rfl
@[simp] theorem trapEnter_sp (k : Nat) (s : State) : (trapEnter k s).sp = s.sp := rfl
@[simp] theorem trapEnter_baf (k : Nat) (s : State) : (trapEnter k s).baf = s.baf := rfl
@[simp] theorem trapEnter_cs (k : Nat) (s : State) : (trapEnter k s).cs = s.cs := rfl
@[simp] theorem trapEnter_ds (k : Nat) (s : State) : (trapEnter k s).ds = s.ds := rfl
@[simp] theorem trapEnter_fetchReg (k : Nat) (s : State) : (trapEnter k s).fetchReg = s.fetchReg := rfl
@[simp] theorem trapEnter_returnStack (k : Nat) (s : State) : (trapEnter k s).returnStack = { ret := s.pc + 1#32, flag := s.inIsr } :: s.returnStack := rfl
@[simp] theorem trapEnter_inIsr (k : Nat) (s : State) : (trapEnter k s).inIsr = true := rfl
@[simp] theorem trapEnter_status (k : Nat) (s : State) : (trapEnter k s).status = s.status := rfl
@[simp] theorem trapEnter_mem (k : Nat) (s : State) : (trapEnter k s).mem = s.mem := rfl
@[simp] theorem trapEnter_ioHistory (k : Nat) (s : State) : (trapEnter k s).ioHistory = s.ioHistory := rfl
@[simp] theorem trapEnter_uartInput (k : Nat) (s : State) : (trapEnter k s).uartInput = s.uartInput := rfl
@[simp] theorem trapEnter_uartDraws (k : Nat) (s : State) : (trapEnter k s).uartDraws = s.uartDraws := rfl

/-! ## commit -/

@[simp] theorem commit_config (w : Word) (t : State) : (commit w t).config = t.config := by
  unfold commit; split <;> rfl
@[simp] theorem commit_pc (w : Word) (t : State) : (commit w t).pc = t.pc := by
  unfold commit; split <;> rfl
@[simp] theorem commit_in1 (w : Word) (t : State) : (commit w t).in1 = t.in1 := by
  unfold commit; split <;> rfl
@[simp] theorem commit_in2 (w : Word) (t : State) : (commit w t).in2 = t.in2 := by
  unfold commit; split <;> rfl
@[simp] theorem commit_acc (w : Word) (t : State) : (commit w t).acc = t.acc := by
  unfold commit; split <;> rfl
@[simp] theorem commit_sp (w : Word) (t : State) : (commit w t).sp = t.sp := by
  unfold commit; split <;> rfl
@[simp] theorem commit_baf (w : Word) (t : State) : (commit w t).baf = t.baf := by
  unfold commit; split <;> rfl
@[simp] theorem commit_cs (w : Word) (t : State) : (commit w t).cs = t.cs := by
  unfold commit; split <;> rfl
@[simp] theorem commit_ds (w : Word) (t : State) : (commit w t).ds = t.ds := by
  unfold commit; split <;> rfl
@[simp] theorem commit_returnStack (w : Word) (t : State) : (commit w t).returnStack = t.returnStack := by
  unfold commit; split <;> rfl
@[simp] theorem commit_inIsr (w : Word) (t : State) : (commit w t).inIsr = t.inIsr := by
  unfold commit; split <;> rfl
@[simp] theorem commit_status (w : Word) (t : State) : (commit w t).status = .running := by
  unfold commit; split <;> rfl
@[simp] theorem commit_mem (w : Word) (t : State) : (commit w t).mem = t.mem := by
  unfold commit; split <;> rfl
@[simp] theorem commit_ioHistory (w : Word) (t : State) : (commit w t).ioHistory = t.ioHistory := by
  unfold commit; split <;> rfl
@[simp] theorem commit_uartInput (w : Word) (t : State) : (commit w t).uartInput = t.uartInput := by
  unfold commit; split <;> rfl
@[simp] theorem commit_uartDraws (w : Word) (t : State) : (commit w t).uartDraws = t.uartDraws := by
  unfold commit; split <;> rfl

theorem commit_fetchReg_os (w : Word) (t : State) (h : t.config.variant = .os) : (commit w t).fetchReg = w := by
  simp [commit, h]
theorem commit_fetchReg_ti (w : Word) (t : State) (h : t.config.variant = .ti) : (commit w t).fetchReg = t.fetchReg := by
  simp [commit, h]
@[simp] theorem readReg_tiMemWrite (s : State) (a v : Word) (r : Reg) : readReg (tiMemWrite s a v) r = readReg s r := by
  cases r <;> rfl
@[simp] theorem readReg_recordEvent (s : State) (e : IoEvent) (r : Reg) : readReg (recordEvent s e) r = readReg s r := by
  cases r <;> rfl
@[simp] theorem readReg_uartAdvance (s : State) (r : Reg) : readReg (uartAdvance s) r = readReg s r := by
  cases r <;> simp [readReg]
@[simp] theorem readReg_commit (w : Word) (t : State) (r : Reg) : readReg (commit w t) r = readReg t r := by
  cases r <;> simp [readReg]

/-! ## faulted -/

@[simp] theorem faulted_config (c : Fault) (s r : State) : (faulted c s r).config = s.config := rfl
@[simp] theorem faulted_pc (c : Fault) (s r : State) : (faulted c s r).pc = s.pc := rfl
@[simp] theorem faulted_in1 (c : Fault) (s r : State) : (faulted c s r).in1 = s.in1 := rfl
@[simp] theorem faulted_in2 (c : Fault) (s r : State) : (faulted c s r).in2 = s.in2 := rfl
@[simp] theorem faulted_acc (c : Fault) (s r : State) : (faulted c s r).acc = s.acc := rfl
@[simp] theorem faulted_sp (c : Fault) (s r : State) : (faulted c s r).sp = s.sp := rfl
@[simp] theorem faulted_baf (c : Fault) (s r : State) : (faulted c s r).baf = s.baf := rfl
@[simp] theorem faulted_cs (c : Fault) (s r : State) : (faulted c s r).cs = s.cs := rfl
@[simp] theorem faulted_ds (c : Fault) (s r : State) : (faulted c s r).ds = s.ds := rfl
@[simp] theorem faulted_fetchReg (c : Fault) (s r : State) : (faulted c s r).fetchReg = s.fetchReg := rfl
@[simp] theorem faulted_returnStack (c : Fault) (s r : State) : (faulted c s r).returnStack = s.returnStack := rfl
@[simp] theorem faulted_inIsr (c : Fault) (s r : State) : (faulted c s r).inIsr = s.inIsr := rfl
@[simp] theorem faulted_mem (c : Fault) (s r : State) : (faulted c s r).mem = s.mem := rfl
@[simp] theorem faulted_ioHistory (c : Fault) (s r : State) : (faulted c s r).ioHistory = s.ioHistory := rfl
@[simp] theorem faulted_status (c : Fault) (s r : State) : (faulted c s r).status = .faulted c := rfl
@[simp] theorem faulted_uartInput (c : Fault) (s r : State) : (faulted c s r).uartInput = r.uartInput := rfl
@[simp] theorem faulted_uartDraws (c : Fault) (s r : State) : (faulted c s r).uartDraws = r.uartDraws := rfl
@[simp] theorem readReg_faulted (c : Fault) (s r : State) (q : Reg) : readReg (faulted c s r) q = readReg s q := by
  cases q <;> rfl

end Sys2Proof.Machine
end

