-- ==== Sys2Proof/Laws/Ops.lean ====
section
/-! SUPPORT. What each shared operation can do, said once: operand readings as bit vectors, memory accesses, write-back,
and the shapes of the instructions. -/

namespace Sys2Proof.Machine

set_option Elab.async false

/-! ## Readings -/

theorem wrap_toInt (w : Word) : wrap w.toInt = w := BitVec.ofInt_toInt

theorem wrap_toNat (w : Word) : wrap (w.toNat : Int) = w := by
  simp [wrap]

/-- Both readings of a register stand for the same pattern (`10_state.md` R24). -/
theorem wrap_val (s : State) (r : Reg) : wrap (val s r) = readReg s r := by
  unfold val
  split
  next h => subst h; exact wrap_toNat s.pc
  next => exact wrap_toInt _

theorem wrap_simm {n : Nat} (i : BitVec n) : wrap (simm i) = i.signExtend 32 := rfl

theorem wrap_add (a b : Int) : wrap (a + b) = wrap a + wrap b := BitVec.ofInt_add ..

theorem wrap_mul (a b : Int) : wrap (a * b) = wrap a * wrap b := BitVec.ofInt_mul ..

theorem wrap_sub (a b : Int) : wrap (a - b) = wrap a - wrap b := by
  rw [Int.sub_eq_add_neg, wrap_add, BitVec.sub_eq_add_neg]
  congr 1
  exact BitVec.ofInt_neg

/-- The indexed address is a sum of patterns (`20_memory.md` R66). -/
theorem eaIndexed_eq {n : Nat} (base : Word) (i : BitVec n) : eaIndexed base i = base + i.signExtend 32 := by
  rw [eaIndexed, wrap_add, wrap_toNat, wrap_simm]

/-- The target of a JUMP is a sum of patterns (`43_jump.md` R241). -/
theorem jump_target_eq {n : Nat} (pc : Word) (i : BitVec n) :
    wrap ((pc.toNat : Int) + simm i) = pc + i.signExtend 32 := by
  rw [wrap_add, wrap_toNat, wrap_simm]

theorem eaDirectTi_toNat (i : BitVec 24) : (eaDirectTi i).toNat = i.toNat := by
  simp only [eaDirectTi, BitVec.toNat_setWidth]
  have := i.isLt
  omega

theorem eaDirectOs_toNat (s : State) (i : BitVec 22) :
    (eaDirectOs s i).toNat = s.ds.toNat / 2 ^ 22 * 2 ^ 22 + i.toNat := by
  have h : (slice s.ds 22 10).toNat = s.ds.toNat / 2 ^ 22 := by
    simp only [slice, BitVec.extractLsb'_toNat, Nat.shiftRight_eq_div_pow]
    have := s.ds.isLt
    omega
  have hi := i.isLt
  rw [eaDirectOs, BitVec.toNat_append, h, ← Nat.shiftLeft_add_eq_or_of_lt hi, Nat.shiftLeft_eq]

/-! ## The device map -/

theorem device_rom_iff (a : Word) : device a = .rom ↔ a.toNat < 2 ^ 30 := by
  have h : (slice a 30 2).toNat = a.toNat / 2 ^ 30 := by
    simp only [slice, BitVec.extractLsb'_toNat, Nat.shiftRight_eq_div_pow]
    have := a.isLt
    omega
  unfold device
  split
  next hm => rw [hm] at h; simp at h; simp; omega
  next hm => rw [hm] at h; simp at h; simp; omega
  next h0 h1 =>
    simp
    by_contra hc
    apply h0
    apply BitVec.eq_of_toNat_eq
    rw [h]; simp; omega

theorem device_io_iff (a : Word) : device a = .io ↔ 2 ^ 30 ≤ a.toNat ∧ a.toNat < 2 ^ 31 := by
  have h : (slice a 30 2).toNat = a.toNat / 2 ^ 30 := by
    simp only [slice, BitVec.extractLsb'_toNat, Nat.shiftRight_eq_div_pow]
    have := a.isLt
    omega
  unfold device
  split
  next hm => rw [hm] at h; simp at h; simp; omega
  next hm => rw [hm] at h; simp at h; simp; omega
  next h0 h1 =>
    simp
    intro hc
    by_contra hd
    apply h1
    apply BitVec.eq_of_toNat_eq
    rw [h]; simp; omega

theorem device_ram_iff (a : Word) : device a = .ram ↔ 2 ^ 31 ≤ a.toNat := by
  have hr := device_rom_iff a
  have hi := device_io_iff a
  cases h : device a <;> simp [h] at hr hi ⊢ <;> omega

/-- A direct OS address selects the device that DS selects. -/
theorem device_eaDirectOs (s : State) (i : BitVec 22) : device (eaDirectOs s i) = device s.ds := by
  have h : slice (eaDirectOs s i) 30 2 = slice s.ds 30 2 := by
    apply BitVec.eq_of_getLsbD_eq
    intro k hk
    have ha := BitVec.getLsbD_append (x := slice s.ds 22 10) (y := i) (i := 30 + k)
    rw [if_neg (by omega)] at ha
    have hd : (eaDirectOs s i).getLsbD (30 + k) = s.ds.getLsbD (30 + k) := by
      refine ha.trans ?_
      rw [slice, BitVec.getLsbD_extractLsb', show 22 + (30 + k - 22) = 30 + k by omega]
      simp [show 30 + k - 22 < 10 by omega]
    simp only [slice, BitVec.getLsbD_extractLsb', hd]
  simp only [device, h]

theorem ioPort_index (a : Word) (h : device a = .io) :
    ioPort a =
      if a.toNat = 2 ^ 30 then some .transmit
      else if a.toNat = 2 ^ 30 + 1 then some .receive
      else if a.toNat = 2 ^ 30 + 2 then some .status
      else none := by
  obtain ⟨hlo, hhi⟩ := (device_io_iff a).1 h
  have hs : (slice a 0 30).toNat = a.toNat - 2 ^ 30 := by
    simp only [slice, BitVec.extractLsb'_toNat, Nat.shiftRight_zero]
    omega
  unfold ioPort
  rw [hs]
  obtain h0 | h0 | h0 | h0 : a.toNat = 2 ^ 30 ∨ a.toNat = 2 ^ 30 + 1 ∨ a.toNat = 2 ^ 30 + 2 ∨ 2 ^ 30 + 3 ≤ a.toNat := by
    omega
  · simp [h0]
  · simp [h0]
  · simp [h0]
  · obtain ⟨k, hk⟩ := Nat.exists_eq_add_of_le h0
    rw [if_neg (by omega), if_neg (by omega), if_neg (by omega), show a.toNat - 2 ^ 30 = k + 3 by omega]
    rfl

/-! ## Memory accesses -/

/-- All a read of the OS address space can do: nothing to the state, or one event and one drawn value. -/
theorem osMemRead_cases {s s1 : State} {a m : Word} (h : osMemRead s a = .ok (m, s1)) :
    (device a = .rom ∧ romWord s.config a = some m ∧ s1 = s) ∨
    (∃ p, device a = .io ∧ ioPort a = some p ∧ m = uartValue s ∧
      s1 = recordEvent (uartAdvance s) (.read p (uartValue s))) ∨
    (device a = .ram ∧ m = Memory.read s.mem a.toNat ∧ s1 = s) := by
  unfold osMemRead at h
  split at h
  next hd =>
    split at h
    next w hw => cases h; exact Or.inl ⟨hd, hw, rfl⟩
    next => cases h
  next hd =>
    split at h
    next p hp => cases h; exact Or.inr (Or.inl ⟨p, hd, hp, rfl, rfl⟩)
    next => cases h
  next hd => cases h; exact Or.inr (Or.inr ⟨hd, rfl, rfl⟩)

theorem osMemRead_error {s : State} {a : Word} {e : Fault} (h : osMemRead s a = .error e) : e = .unmappedAccess := by
  unfold osMemRead at h
  split at h <;> try split at h
  all_goals cases h
  all_goals rfl

/-- A read changes the I/O record at most. -/
theorem osMemRead_frame {s s1 : State} {a m : Word} (h : osMemRead s a = .ok (m, s1)) :
    s1 = { s with ioHistory := s1.ioHistory, uartInput := s1.uartInput, uartDraws := s1.uartDraws } := by
  rcases osMemRead_cases h with ⟨-, -, rfl⟩ | ⟨p, -, -, -, rfl⟩ | ⟨-, -, rfl⟩
  · rfl
  · unfold recordEvent uartAdvance; split <;> rfl
  · rfl

theorem readReg_osMemRead {s s1 : State} {a m : Word} (h : osMemRead s a = .ok (m, s1)) (r : Reg) :
    readReg s1 r = readReg s r := by
  rw [osMemRead_frame h]; cases r <;> rfl

theorem val_osMemRead {s s1 : State} {a m : Word} (h : osMemRead s a = .ok (m, s1)) (r : Reg) :
    val s1 r = val s r := by
  unfold val
  rw [readReg_osMemRead h]
  have : s1.pc = s.pc := readReg_osMemRead h .pc
  rw [this]

/-- At most one event is recorded by a read. -/
theorem osMemRead_history {s s1 : State} {a m : Word} (h : osMemRead s a = .ok (m, s1)) :
    s1.ioHistory = s.ioHistory ∨ ∃ e, s1.ioHistory = s.ioHistory ++ [e] := by
  rcases osMemRead_cases h with ⟨-, -, rfl⟩ | ⟨p, -, -, -, rfl⟩ | ⟨-, -, rfl⟩
  · exact Or.inl rfl
  · exact Or.inr ⟨.read p (uartValue s), by simp⟩
  · exact Or.inl rfl

/-- All a write to the OS address space can do: one event, or one cell of RAM. -/
theorem osMemWrite_cases {s t : State} {a v : Word} (h : osMemWrite s a v = .ok t) :
    (∃ p, device a = .io ∧ ioPort a = some p ∧ t = recordEvent s (.write p v)) ∨
    (device a = .ram ∧ t = { s with mem := Memory.write s.mem a.toNat v }) := by
  unfold osMemWrite at h
  split at h
  · cases h
  next hd =>
    split at h
    next p hp => cases h; exact Or.inl ⟨p, hd, hp, rfl⟩
    next => cases h
  next hd => cases h; exact Or.inr ⟨hd, rfl⟩

theorem osMemWrite_error {s : State} {a v : Word} {e : Fault} (h : osMemWrite s a v = .error e) :
    (device a = .rom ∧ e = .storeToRom) ∨ (device a = .io ∧ ioPort a = none ∧ e = .unmappedAccess) := by
  unfold osMemWrite at h
  split at h
  next hd => cases h; exact Or.inl ⟨hd, rfl⟩
  next hd =>
    split at h
    · cases h
    next hp => cases h; exact Or.inr ⟨hd, hp, rfl⟩
  · cases h

/-! ## Write-back -/

theorem writeBack_eq (d : Reg) (v : Word) (s : State) :
    (d = .pc ∧ writeBack d v s = { s with pc := v }) ∨
    (d ≠ .pc ∧ writeBack d v s = { writeReg s d v with pc := s.pc + 1#32 }) := by
  by_cases h : d = .pc
  · subst h; exact Or.inl ⟨rfl, rfl⟩
  · refine Or.inr ⟨h, ?_⟩
    rw [writeBack, if_neg h]
    cases d <;> first | rfl | exact absurd rfl h

theorem readReg_writeBack_same (d : Reg) (v : Word) (s : State) : readReg (writeBack d v s) d = v := by
  cases d <;> rfl

theorem readReg_writeBack_ne (d r : Reg) (v : Word) (s : State) (hr : r ≠ .pc) (h : r ≠ d) :
    readReg (writeBack d v s) r = readReg s r := by
  cases d <;> cases r <;> first | rfl | exact absurd rfl h | exact absurd rfl hr

theorem writeBack_pc (d : Reg) (v : Word) (s : State) :
    (writeBack d v s).pc = if d = .pc then v else s.pc + 1#32 := by
  cases d <;> rfl

theorem writeBack_writesReg (d : Reg) (v : Word) (s : State) : WritesReg d v s (writeBack d v s) := by
  refine ⟨readReg_writeBack_same d v s, ?_, ⟨?_, by simp, by simp, by simp, by simp, by simp⟩, ?_, by simp, by simp, by simp⟩
  · intro h; rw [writeBack_pc, if_neg h]
  · intro r hr hd
    exact readReg_writeBack_ne d r v s hr (by simpa using hd)
  · intro a; simp

theorem sameBut_refl_pc (s : State) (p : Word) : SameBut [] s { s with pc := p } :=
  ⟨fun r hr _ => by cases r <;> first | rfl | exact absurd rfl hr, rfl, rfl, rfl, rfl, rfl⟩

theorem movesPc_of_eq (s : State) (p : Word) : MovesPc p s { s with pc := p } :=
  ⟨rfl, sameBut_refl_pc s p, fun _ => rfl, rfl, rfl, rfl⟩

theorem nextPc_movesPc (s : State) : MovesPc (s.pc + 1#32) s (nextPc s) :=
  movesPc_of_eq s _

/-! ## The functions of COMPUTE -/

theorem aluApply_sub (a b : Int) : aluApply .sub a b = .ok (wrap a - wrap b) := by
  rw [aluApply, wrap_sub]

theorem aluApply_add (a b : Int) : aluApply .add a b = .ok (wrap a + wrap b) := by
  rw [aluApply, wrap_add]

theorem aluApply_mul (a b : Int) : aluApply .mul a b = .ok (wrap a * wrap b) := by
  rw [aluApply, wrap_mul]

/-- COMPUTE ends in a write-back, or in a zero divisor. -/
theorem compute_cases (f : AluFn) (d : Reg) (b : Int) (s : State) :
    (∃ v, aluApply f (val s d) b = .ok v ∧ compute f d b s = .next (writeBack d v s)) ∨
    (b = 0 ∧ (f = .div ∨ f = .mod) ∧ compute f d b s = .fault .divideByZero) := by
  unfold compute
  cases f
  case div =>
    by_cases hb : b = 0
    · exact Or.inr ⟨hb, Or.inl rfl, by simp [aluApply, hb]⟩
    · exact Or.inl ⟨wrap (Int.tdiv (val s d) b), by simp only [aluApply, if_neg hb], by simp only [aluApply, if_neg hb]⟩
  case mod =>
    by_cases hb : b = 0
    · exact Or.inr ⟨hb, Or.inr rfl, by simp [aluApply, hb]⟩
    · exact Or.inl ⟨wrap (val s d - b * Int.tdiv (val s d) b), by simp only [aluApply, if_neg hb],
        by simp only [aluApply, if_neg hb]⟩
  all_goals exact Or.inl ⟨_, rfl, rfl⟩

theorem computeOsMem_cases (f : AluFn) (d : Reg) (i : BitVec 22) (s : State) :
    (∃ m s1 v, osMemRead s (eaDirectOs s i) = .ok (m, s1) ∧ computeOsMem f d i s = .next (writeBack d v s1)) ∨
    (∃ e, computeOsMem f d i s = .fault e) := by
  unfold computeOsMem
  cases h : osMemRead s (eaDirectOs s i) with
  | error e => exact Or.inr ⟨e, rfl⟩
  | ok p =>
    obtain ⟨m, s1⟩ := p
    rcases compute_cases f d m.toInt s1 with ⟨v, -, hv⟩ | ⟨-, -, hv⟩
    · exact Or.inl ⟨m, s1, v, rfl, hv⟩
    · exact Or.inr ⟨_, hv⟩

theorem loadOs_cases (d : Reg) (a : Word) (s : State) :
    (∃ v s1, osMemRead s a = .ok (v, s1) ∧ loadOs d a s = .next (writeBack d v s1)) ∨
    (∃ e, osMemRead s a = .error e ∧ loadOs d a s = .fault e) := by
  unfold loadOs
  cases h : osMemRead s a with
  | error e => exact Or.inr ⟨e, rfl, rfl⟩
  | ok p => exact Or.inl ⟨p.1, p.2, rfl, rfl⟩

theorem storeOs_cases (a v : Word) (s : State) :
    (∃ s1, osMemWrite s a v = .ok s1 ∧ storeOs a v s = .next (nextPc s1)) ∨
    (∃ e, osMemWrite s a v = .error e ∧ storeOs a v s = .fault e) := by
  unfold storeOs
  cases h : osMemWrite s a v with
  | error e => exact Or.inr ⟨e, rfl, rfl⟩
  | ok t => exact Or.inl ⟨t, rfl, rfl⟩

theorem jump_eq {n : Nat} (c : BitVec 3) (i : BitVec n) (s : State) :
    jump c i s = .next { s with pc := if condHolds c s.acc then s.pc + i.signExtend 32 else s.pc + 1#32 } := by
  unfold jump
  split
  · rw [jump_target_eq]
  · rfl

/-! ## Trap entry and return -/

theorem trapReturn_cases (s : State) :
    (s.returnStack = [] ∧ trapReturn s = .error .returnStackEmpty) ∨
    (∃ e rest, s.returnStack = e :: rest ∧
      trapReturn s = .ok { s with pc := e.ret, inIsr := e.flag, returnStack := rest }) := by
  unfold trapReturn
  cases h : s.returnStack with
  | nil => exact Or.inl ⟨rfl, rfl⟩
  | cons e rest => exact Or.inr ⟨e, rest, rfl, rfl⟩

end Sys2Proof.Machine
end

