-- ==== Sys2Proof/Laws/Step.lean ====
section
/-! SUPPORT. What one instruction and one step can do, said once: the proofs about all instructions go through
`exec_effect`, those about all steps through `step_cases`. -/

namespace Sys2Proof.Machine

set_option Elab.async false

/-- The results an instruction can have. -/
inductive Effect (i : Instr) (s : State) : Result → Prop
  /-- A register is written, with no memory access or from a TI data cell. -/
  | register (d : Reg) (v : Word) (hd : d ∈ i.regs) : Effect i s (.next (writeBack d v s))
  /-- OS: a cell is read and a register written. -/
  | readRegister (d : Reg) (v a m : Word) (s1 : State) (hv : i.variant = .os) (h : osMemRead s a = .ok (m, s1)) :
      Effect i s (.next (writeBack d v s1))
  /-- TI: a data cell is written. -/
  | tiStore (a v : Word) (hv : i.variant = .ti) : Effect i s (.next (nextPc (tiMemWrite s a v)))
  /-- OS: a cell or a port is written. -/
  | osStore (a v : Word) (s1 : State) (hv : i.variant = .os) (h : osMemWrite s a v = .ok s1) :
      Effect i s (.next (nextPc s1))
  /-- JUMP and NOP. -/
  | movePc (p : Word) : Effect i s (.next { s with pc := p })
  /-- INT. -/
  | trap (k : Nat) (hv : i.variant = .os) : Effect i s (.next (trapEnter k s))
  /-- RTI. -/
  | back (e : ReturnEntry) (rest : List ReturnEntry) (hv : i.variant = .os) (h : s.returnStack = e :: rest) :
      Effect i s (.next { s with pc := e.ret, inIsr := e.flag, returnStack := rest })
  /-- A fault, in the OS variant only. -/
  | fault (e : Fault) (hv : i.variant = .os) : Effect i s (.fault e)

theorem compute_effect {i : Instr} {s : State} (f : AluFn) (d : Reg) (b : Int) (hd : d ∈ i.regs)
    (hv : i.variant = .os ∨ f ≠ .div ∧ f ≠ .mod) : Effect i s (compute f d b s) := by
  rcases compute_cases f d b s with ⟨v, -, h⟩ | ⟨-, hf, h⟩
  · rw [h]; exact .register d v hd
  · rw [h]
    rcases hv with hv | ⟨h1, h2⟩
    · exact .fault _ hv
    · rcases hf with hf | hf
      · exact absurd hf h1
      · exact absurd hf h2

theorem computeOsMem_effect {i : Instr} {s : State} (f : AluFn) (d : Reg) (n : BitVec 22) (hv : i.variant = .os) :
    Effect i s (computeOsMem f d n s) := by
  rcases computeOsMem_cases f d n s with ⟨m, s1, v, h1, h⟩ | ⟨e, h⟩
  · rw [h]; exact .readRegister d v _ m s1 hv h1
  · rw [h]; exact .fault e hv

theorem loadOs_effect {i : Instr} {s : State} (d : Reg) (a : Word) (hv : i.variant = .os) :
    Effect i s (loadOs d a s) := by
  rcases loadOs_cases d a s with ⟨v, s1, h1, h⟩ | ⟨e, -, h⟩
  · rw [h]; exact .readRegister d v a v s1 hv h1
  · rw [h]; exact .fault e hv

theorem storeOs_effect {i : Instr} {s : State} (a v : Word) (hv : i.variant = .os) :
    Effect i s (storeOs a v s) := by
  rcases storeOs_cases a v s with ⟨s1, h1, h⟩ | ⟨e, -, h⟩
  · rw [h]; exact .osStore a v s1 hv h1
  · rw [h]; exact .fault e hv

theorem jump_effect {i : Instr} {s : State} {n : Nat} (c : BitVec 3) (k : BitVec n) : Effect i s (jump c k s) := by
  rw [jump_eq]; exact .movePc _

theorem rti_effect {s : State} : Effect .osRti s (execOsRti s) := by
  unfold execOsRti
  rcases trapReturn_cases s with ⟨-, h⟩ | ⟨e, rest, h1, h⟩
  · rw [h]; exact .fault _ rfl
  · rw [h]; exact .back e rest rfl h1

/-- Every instruction has one of the effects. -/
theorem exec_effect (i : Instr) (s : State) : Effect i s (exec i s) := by
  cases i
  case tiSubi d n => exact compute_effect .sub d _ (by simp [Instr.regs]) (Or.inr (by decide))
  case tiAddi d n => exact compute_effect .add d _ (by simp [Instr.regs]) (Or.inr (by decide))
  case tiXnori d n => exact compute_effect .xnor d _ (by simp [Instr.regs]) (Or.inr (by decide))
  case tiOri d n => exact compute_effect .or d _ (by simp [Instr.regs]) (Or.inr (by decide))
  case tiAndi d n => exact compute_effect .and d _ (by simp [Instr.regs]) (Or.inr (by decide))
  case tiSub d n => exact compute_effect .sub d _ (by simp [Instr.regs]) (Or.inr (by decide))
  case tiAdd d n => exact compute_effect .add d _ (by simp [Instr.regs]) (Or.inr (by decide))
  case tiXnor d n => exact compute_effect .xnor d _ (by simp [Instr.regs]) (Or.inr (by decide))
  case tiOr d n => exact compute_effect .or d _ (by simp [Instr.regs]) (Or.inr (by decide))
  case tiAnd d n => exact compute_effect .and d _ (by simp [Instr.regs]) (Or.inr (by decide))
  case tiLoad d n => exact .register d _ (by simp [Instr.regs])
  case tiLoadin1 d n => exact .register d _ (by simp [Instr.regs])
  case tiLoadin2 d n => exact .register d _ (by simp [Instr.regs])
  case tiLoadi d n => exact .register d _ (by simp [Instr.regs])
  case tiStore n => exact .tiStore _ _ rfl
  case tiStorein1 n => exact .tiStore _ _ rfl
  case tiStorein2 n => exact .tiStore _ _ rfl
  case tiMove r d => exact .register d _ (by simp [Instr.regs])
  case tiNop => exact .movePc _
  case tiJumpGt n => exact jump_effect _ _
  case tiJumpEq n => exact jump_effect _ _
  case tiJumpGe n => exact jump_effect _ _
  case tiJumpLt n => exact jump_effect _ _
  case tiJumpNe n => exact jump_effect _ _
  case tiJumpLe n => exact jump_effect _ _
  case tiJump n => exact jump_effect _ _
  case osMuli d n => exact compute_effect .mul d _ (by simp [Instr.regs]) (Or.inl rfl)
  case osDivi d n => exact compute_effect .div d _ (by simp [Instr.regs]) (Or.inl rfl)
  case osSubi d n => exact compute_effect .sub d _ (by simp [Instr.regs]) (Or.inl rfl)
  case osAddi d n => exact compute_effect .add d _ (by simp [Instr.regs]) (Or.inl rfl)
  case osXnori d n => exact compute_effect .xnor d _ (by simp [Instr.regs]) (Or.inl rfl)
  case osOri d n => exact compute_effect .or d _ (by simp [Instr.regs]) (Or.inl rfl)
  case osAndi d n => exact compute_effect .and d _ (by simp [Instr.regs]) (Or.inl rfl)
  case osModi d n => exact compute_effect .mod d _ (by simp [Instr.regs]) (Or.inl rfl)
  case osMul d n => exact computeOsMem_effect .mul d n rfl
  case osDiv d n => exact computeOsMem_effect .div d n rfl
  case osSub d n => exact computeOsMem_effect .sub d n rfl
  case osAdd d n => exact computeOsMem_effect .add d n rfl
  case osXnor d n => exact computeOsMem_effect .xnor d n rfl
  case osOr d n => exact computeOsMem_effect .or d n rfl
  case osAnd d n => exact computeOsMem_effect .and d n rfl
  case osMod d n => exact computeOsMem_effect .mod d n rfl
  case osMulReg d r => exact compute_effect .mul d _ (by simp [Instr.regs]) (Or.inl rfl)
  case osDivReg d r => exact compute_effect .div d _ (by simp [Instr.regs]) (Or.inl rfl)
  case osSubReg d r => exact compute_effect .sub d _ (by simp [Instr.regs]) (Or.inl rfl)
  case osAddReg d r => exact compute_effect .add d _ (by simp [Instr.regs]) (Or.inl rfl)
  case osXnorReg d r => exact compute_effect .xnor d _ (by simp [Instr.regs]) (Or.inl rfl)
  case osOrReg d r => exact compute_effect .or d _ (by simp [Instr.regs]) (Or.inl rfl)
  case osAndReg d r => exact compute_effect .and d _ (by simp [Instr.regs]) (Or.inl rfl)
  case osModReg d r => exact compute_effect .mod d _ (by simp [Instr.regs]) (Or.inl rfl)
  case osLoad d n => exact loadOs_effect d _ rfl
  case osLoadin r d n => exact loadOs_effect d _ rfl
  case osLoadi d n => exact .register d _ (by simp [Instr.regs])
  case osStore r n => exact storeOs_effect _ _ rfl
  case osStorein d r n => exact storeOs_effect _ _ rfl
  case osMove r d => exact .register d _ (by simp [Instr.regs])
  case osNop => exact .movePc _
  case osJumpGt n => exact jump_effect _ _
  case osJumpEq n => exact jump_effect _ _
  case osJumpGe n => exact jump_effect _ _
  case osJumpLt n => exact jump_effect _ _
  case osJumpNe n => exact jump_effect _ _
  case osJumpLe n => exact jump_effect _ _
  case osJump n => exact jump_effect _ _
  case osInt n => exact .trap _ rfl
  case osRti => exact rti_effect

/-- All a step can do: stay faulted, report termination, or fetch, decode and run one instruction. -/
theorem step_cases (s : State) :
    (∃ c, s.status = .faulted c ∧ step s = .fault c) ∨
    ((∀ c, s.status ≠ .faulted c) ∧ validPC s = false ∧ step s = .next { s with status := .terminated }) ∨
    ((∀ c, s.status ≠ .faulted c) ∧ validPC s = true ∧
      ((∃ e, fetch s = .error e ∧ step s = .fault e) ∨
       (∃ w s1, fetch s = .ok (w, s1) ∧
        ((∃ r, decode s.config.variant w = .error r ∧ step s = .fault .illegalInstruction) ∨
         (∃ i, decode s.config.variant w = .ok i ∧
          ((∃ t, exec i s1 = .next t ∧ step s = .next (commit w t)) ∨
           (∃ e, exec i s1 = .fault e ∧ step s = .fault e))))))) := by
  have run (hs : ∀ c, s.status ≠ .faulted c) : step s =
      (if validPC s then
        match fetch s with
        | .error e => .fault e
        | .ok (w, s1) =>
          match decode s.config.variant w with
          | .error _ => .fault .illegalInstruction
          | .ok i =>
            match exec i s1 with
            | .next t => .next (commit w t)
            | .fault e => .fault e
            | .refused r => .refused r
      else .next { s with status := .terminated }) := by
    unfold step
    split
    next c hc => exact absurd hc (hs c)
    next => rfl
  cases hst : s.status with
  | faulted c => exact Or.inl ⟨c, rfl, by simp [step, hst]⟩
  | _ =>
    right
    have hs : ∀ c, s.status ≠ .faulted c := by simp [hst]
    rw [hst] at hs
    rw [run (by rw [hst]; exact hs)]
    cases hpc : validPC s with
    | false => exact Or.inl ⟨hs, rfl, by simp⟩
    | true =>
      refine Or.inr ⟨hs, rfl, ?_⟩
      simp only [if_true]
      cases hf : fetch s with
      | error e => exact Or.inl ⟨e, rfl, rfl⟩
      | ok p =>
        obtain ⟨w, s1⟩ := p
        refine Or.inr ⟨w, s1, rfl, ?_⟩
        simp only
        cases hd : decode s.config.variant w with
        | error r => exact Or.inl ⟨r, rfl, rfl⟩
        | ok i =>
          refine Or.inr ⟨i, rfl, ?_⟩
          simp only
          have := exec_effect i s1
          generalize exec i s1 = r at this
          cases this
          case fault e hv => exact Or.inr ⟨e, rfl, rfl⟩
          all_goals exact Or.inl ⟨_, rfl, rfl⟩

/-- A fetch changes the I/O record at most. -/
theorem fetch_frame {s s1 : State} {w : Word} (h : fetch s = .ok (w, s1)) :
    s1 = { s with ioHistory := s1.ioHistory, uartInput := s1.uartInput, uartDraws := s1.uartDraws } := by
  unfold fetch at h
  split at h
  · cases h; rfl
  · exact osMemRead_frame h

/-- What every completed instruction leaves alone: the parameters, the status and register `I`. -/
theorem exec_frame {i : Instr} {s t : State} (h : exec i s = .next t) :
    t.config = s.config ∧ t.status = s.status ∧ t.fetchReg = s.fetchReg := by
  have he := exec_effect i s
  rw [h] at he
  generalize hr : (Host.Outcome.next t : Result) = r at he
  cases he with
  | register d v hd => cases hr; simp
  | readRegister d v a m s1 hv h1 =>
    cases hr
    rw [osMemRead_frame h1]
    simp
  | tiStore a v hv => cases hr; exact ⟨rfl, rfl, rfl⟩
  | osStore a v s1 hv h1 =>
    cases hr
    rcases osMemWrite_cases h1 with ⟨p, -, -, rfl⟩ | ⟨-, rfl⟩ <;> exact ⟨rfl, rfl, rfl⟩
  | movePc p => cases hr; exact ⟨rfl, rfl, rfl⟩
  | trap k hv => cases hr; exact ⟨rfl, rfl, rfl⟩
  | back e rest hv h1 => cases hr; exact ⟨rfl, rfl, rfl⟩
  | fault e hv => cases hr

/-- An instruction always has a meaning. -/
theorem exec_not_refused (i : Instr) (s : State) (r : Refusal) : exec i s ≠ .refused r := by
  intro h
  have he := exec_effect i s
  rw [h] at he
  cases he

end Sys2Proof.Machine
end

