-- ==== Sys2Proof/Laws/Interface.lean ====
section
/-! SUPPORT. What one call of `step()` leaves, said once: a fault leaves the state before it but for the status and the
values its reads drew. The proofs about `afterStep` go through `afterStep_cases` and the frames of the reads. -/

namespace Sys2Proof.Machine

/-- A step is never refused. -/
theorem step_not_refused (s : State) (r : Refusal) : step s ≠ .refused r := by
  rcases step_cases s with ⟨c, -, h⟩ | ⟨-, -, h⟩ | ⟨-, -, ⟨c, -, h⟩ | ⟨w, s1, -, ⟨e, -, h⟩ | ⟨i, -, ⟨t, -, h⟩ | ⟨c, -, h⟩⟩⟩⟩ <;>
    rw [h] <;> exact nofun

/-- All that `afterStep` does: it takes the next state, or faults. -/
theorem afterStep_cases (s : State) :
    (∃ t, step s = .next t ∧ afterStep s = t) ∨ ∃ c, step s = .fault c ∧ afterStep s = faulted c s (afterReads s) := by
  unfold afterStep
  cases h : step s with
  | next t => exact Or.inl ⟨t, rfl, rfl⟩
  | fault c => exact Or.inr ⟨c, rfl, rfl⟩
  | refused r => exact absurd h (step_not_refused s r)

theorem afterStep_of_fault {s : State} {c : Fault} (h : step s = .fault c) : afterStep s = faulted c s (afterReads s) := by
  simp [afterStep, h]

/-- A core already faulted makes no read. -/
theorem afterReads_of_faulted {s : State} {c : Fault} (h : s.status = .faulted c) : afterReads s = s := by
  simp [afterReads, h]

/-- The reads of a step that fetches a reserved word: the fetch. -/
theorem afterReads_of_reserved {s s1 : State} {w : Word} {e : Reserved} (hs : ∀ c, s.status ≠ .faulted c)
    (hp : validPC s = true) (hf : fetch s = .ok (w, s1)) (hd : decode s.config.variant w = .error e) :
    afterReads s = s1 := by
  unfold afterReads
  split
  next c hc => exact absurd hc (hs c)
  next => simp [hp, hf, hd]

/-- The reads of a step that runs an instruction: the fetch, then the operand read. -/
theorem afterReads_of_decode {s s1 : State} {w : Word} {i : Instr} (hs : ∀ c, s.status ≠ .faulted c)
    (hp : validPC s = true) (hf : fetch s = .ok (w, s1)) (hd : decode s.config.variant w = .ok i) :
    afterReads s = afterOperandRead i s1 := by
  unfold afterReads
  split
  next c hc => exact absurd hc (hs c)
  next => simp [hp, hf, hd]

/-- The operand read is the one state change before the writes of an instruction, and only the OS COMPUTE forms with a memory
operand have it here. -/
theorem afterOperandRead_cases (i : Instr) (s : State) :
    afterOperandRead i s = s ∨
    ∃ f d n m, callShape i = .computeOsMem f d n ∧ osMemRead s (eaDirectOs s n) = .ok (m, afterOperandRead i s) := by
  unfold afterOperandRead
  cases hc : callShape i with
  | computeOsMem f d n =>
    simp only
    cases hr : osMemRead s (eaDirectOs s n) with
    | ok p => exact Or.inr ⟨f, d, n, p.1, rfl, hr⟩
    | error e => exact Or.inl rfl
  | _ => exact Or.inl rfl

/-- The operand read changes the I/O record at most. -/
theorem afterOperandRead_frame (i : Instr) (s : State) :
    afterOperandRead i s = { s with
      ioHistory := (afterOperandRead i s).ioHistory
      uartInput := (afterOperandRead i s).uartInput
      uartDraws := (afterOperandRead i s).uartDraws } := by
  rcases afterOperandRead_cases i s with h | ⟨f, d, n, m, -, h⟩
  · rw [h]
  · exact osMemRead_frame h

/-- Away from the I/O window the operand read changes nothing. -/
theorem afterOperandRead_of_not_io {i : Instr} {s : State} (h : device s.ds ≠ .io) : afterOperandRead i s = s := by
  rcases afterOperandRead_cases i s with hs | ⟨f, d, n, m, -, hr⟩
  · exact hs
  · rcases osMemRead_cases hr with ⟨-, -, h1⟩ | ⟨p, hd, -, -, -⟩ | ⟨-, -, h1⟩
    · exact h1
    · exact absurd hd (device_eaDirectOs s n ▸ h)
    · exact h1

/-- A step's reads change the I/O record at most. -/
theorem afterReads_frame (s : State) :
    afterReads s = { s with
      ioHistory := (afterReads s).ioHistory
      uartInput := (afterReads s).uartInput
      uartDraws := (afterReads s).uartDraws } := by
  unfold afterReads
  split
  · rfl
  · split
    · cases hf : fetch s with
      | error e => rfl
      | ok p =>
        obtain ⟨w, s1⟩ := p
        simp only
        cases decode s.config.variant w with
        | error r => exact fetch_frame hf
        | ok i =>
          simp only
          rw [afterOperandRead_frame i s1]
          rw [fetch_frame hf]
    · rfl

/-! ## Host writes -/

/-- All that `setRegister` does: it writes the register of the index, or register `I`, or nothing. -/
theorem setRegister_cases (s : State) (k : Nat) (z : Int) :
    (∃ r, indexInDomain s.config.variant k = true ∧ regOfIndex k = some r ∧ setRegister s k z = writeReg s r (wrap z)) ∨
    (indexInDomain s.config.variant k = true ∧ regOfIndex k = none ∧ setRegister s k z = { s with fetchReg := wrap z }) ∨
    (indexInDomain s.config.variant k = false ∧ setRegister s k z = s) := by
  unfold setRegister
  cases hd : indexInDomain s.config.variant k with
  | false => exact Or.inr (Or.inr ⟨rfl, rfl⟩)
  | true =>
    cases hr : regOfIndex k with
    | some r => exact Or.inl ⟨r, rfl, rfl, rfl⟩
    | none => exact Or.inr (Or.inl ⟨rfl, rfl, rfl⟩)

/-- All that an accepted `writeMem` does: it writes one cell, which in OS lies in RAM. -/
theorem writeMem_cases {s t : State} {a : Nat} {w : Word} (h : writeMem s a w = some t) :
    a < 2 ^ 32 ∧ t = { s with mem := Memory.write s.mem a w } ∧
    (s.config.variant = .os → device (BitVec.ofNat 32 a) = .ram) := by
  unfold writeMem at h
  split at h
  next ha =>
    refine ⟨ha, ?_⟩
    split at h
    next hv => cases h; exact ⟨rfl, fun h => absurd (hv.symm.trans h) (by decide)⟩
    next hv =>
      split at h
      · cases h
      · cases h
      next hd => cases h; exact ⟨rfl, fun _ => hd⟩
  next => cases h

end Sys2Proof.Machine
end

