-- ==== Sys2Proof/Laws/PerInstr.lean ====
section
/-! SUPPORT. The family `TableRow`, one lemma for each constructor of `Instr`: the word the encoder gives an instruction
stands on the instruction's row of `spec/opcode_table.json`. -/

namespace Sys2Proof.Laws.TableRow

set_option Elab.async false

/-- The encoded word has the fixed bits of the instruction's row. -/
def Statement (i : Instr) : Prop :=
  encode i &&& i.opcodeRow.1 = i.opcodeRow.2

theorem or_and (a b m : Word) : (a ||| b) &&& m = (a &&& m) ||| (b &&& m) := by
  apply BitVec.eq_of_getLsbD_eq
  intro k hk
  simp [Bool.and_or_distrib_right]

theorem tiSubi (d : Reg) (n : BitVec 24) : Statement (.tiSubi d n) := by
  simp only [Statement, encode, Instr.opcodeRow, packTiDI, or_and]
  rw [field_and_eq_zero d.code2 24 _ (by decide), field_and_eq_zero n 0 _ (by decide)]
  decide

theorem tiAddi (d : Reg) (n : BitVec 24) : Statement (.tiAddi d n) := by
  simp only [Statement, encode, Instr.opcodeRow, packTiDI, or_and]
  rw [field_and_eq_zero d.code2 24 _ (by decide), field_and_eq_zero n 0 _ (by decide)]
  decide

theorem tiXnori (d : Reg) (n : BitVec 24) : Statement (.tiXnori d n) := by
  simp only [Statement, encode, Instr.opcodeRow, packTiDI, or_and]
  rw [field_and_eq_zero d.code2 24 _ (by decide), field_and_eq_zero n 0 _ (by decide)]
  decide

theorem tiOri (d : Reg) (n : BitVec 24) : Statement (.tiOri d n) := by
  simp only [Statement, encode, Instr.opcodeRow, packTiDI, or_and]
  rw [field_and_eq_zero d.code2 24 _ (by decide), field_and_eq_zero n 0 _ (by decide)]
  decide

theorem tiAndi (d : Reg) (n : BitVec 24) : Statement (.tiAndi d n) := by
  simp only [Statement, encode, Instr.opcodeRow, packTiDI, or_and]
  rw [field_and_eq_zero d.code2 24 _ (by decide), field_and_eq_zero n 0 _ (by decide)]
  decide

theorem tiSub (d : Reg) (n : BitVec 24) : Statement (.tiSub d n) := by
  simp only [Statement, encode, Instr.opcodeRow, packTiDI, or_and]
  rw [field_and_eq_zero d.code2 24 _ (by decide), field_and_eq_zero n 0 _ (by decide)]
  decide

theorem tiAdd (d : Reg) (n : BitVec 24) : Statement (.tiAdd d n) := by
  simp only [Statement, encode, Instr.opcodeRow, packTiDI, or_and]
  rw [field_and_eq_zero d.code2 24 _ (by decide), field_and_eq_zero n 0 _ (by decide)]
  decide

theorem tiXnor (d : Reg) (n : BitVec 24) : Statement (.tiXnor d n) := by
  simp only [Statement, encode, Instr.opcodeRow, packTiDI, or_and]
  rw [field_and_eq_zero d.code2 24 _ (by decide), field_and_eq_zero n 0 _ (by decide)]
  decide

theorem tiOr (d : Reg) (n : BitVec 24) : Statement (.tiOr d n) := by
  simp only [Statement, encode, Instr.opcodeRow, packTiDI, or_and]
  rw [field_and_eq_zero d.code2 24 _ (by decide), field_and_eq_zero n 0 _ (by decide)]
  decide

theorem tiAnd (d : Reg) (n : BitVec 24) : Statement (.tiAnd d n) := by
  simp only [Statement, encode, Instr.opcodeRow, packTiDI, or_and]
  rw [field_and_eq_zero d.code2 24 _ (by decide), field_and_eq_zero n 0 _ (by decide)]
  decide

theorem tiLoad (d : Reg) (n : BitVec 24) : Statement (.tiLoad d n) := by
  simp only [Statement, encode, Instr.opcodeRow, packTiDI, or_and]
  rw [field_and_eq_zero d.code2 24 _ (by decide), field_and_eq_zero n 0 _ (by decide)]
  decide

theorem tiLoadin1 (d : Reg) (n : BitVec 24) : Statement (.tiLoadin1 d n) := by
  simp only [Statement, encode, Instr.opcodeRow, packTiDI, or_and]
  rw [field_and_eq_zero d.code2 24 _ (by decide), field_and_eq_zero n 0 _ (by decide)]
  decide

theorem tiLoadin2 (d : Reg) (n : BitVec 24) : Statement (.tiLoadin2 d n) := by
  simp only [Statement, encode, Instr.opcodeRow, packTiDI, or_and]
  rw [field_and_eq_zero d.code2 24 _ (by decide), field_and_eq_zero n 0 _ (by decide)]
  decide

theorem tiLoadi (d : Reg) (n : BitVec 24) : Statement (.tiLoadi d n) := by
  simp only [Statement, encode, Instr.opcodeRow, packTiDI, or_and]
  rw [field_and_eq_zero d.code2 24 _ (by decide), field_and_eq_zero n 0 _ (by decide)]
  decide

theorem tiStore (n : BitVec 24) : Statement (.tiStore n) := by
  simp only [Statement, encode, Instr.opcodeRow, packTiI, or_and]
  rw [field_and_eq_zero n 0 _ (by decide)]
  decide

theorem tiStorein1 (n : BitVec 24) : Statement (.tiStorein1 n) := by
  simp only [Statement, encode, Instr.opcodeRow, packTiI, or_and]
  rw [field_and_eq_zero n 0 _ (by decide)]
  decide

theorem tiStorein2 (n : BitVec 24) : Statement (.tiStorein2 n) := by
  simp only [Statement, encode, Instr.opcodeRow, packTiI, or_and]
  rw [field_and_eq_zero n 0 _ (by decide)]
  decide

theorem tiMove (r : Reg) (d : Reg) : Statement (.tiMove r d) := by
  simp only [Statement, encode, Instr.opcodeRow, packTiSD, or_and]
  rw [field_and_eq_zero r.code2 26 _ (by decide), field_and_eq_zero d.code2 24 _ (by decide)]
  decide

theorem tiNop : Statement (.tiNop) := by
  simp only [Statement, encode, Instr.opcodeRow]
  decide

theorem tiJumpGt (n : BitVec 24) : Statement (.tiJumpGt n) := by
  simp only [Statement, encode, Instr.opcodeRow, packTiI, or_and]
  rw [field_and_eq_zero n 0 _ (by decide)]
  decide

theorem tiJumpEq (n : BitVec 24) : Statement (.tiJumpEq n) := by
  simp only [Statement, encode, Instr.opcodeRow, packTiI, or_and]
  rw [field_and_eq_zero n 0 _ (by decide)]
  decide

theorem tiJumpGe (n : BitVec 24) : Statement (.tiJumpGe n) := by
  simp only [Statement, encode, Instr.opcodeRow, packTiI, or_and]
  rw [field_and_eq_zero n 0 _ (by decide)]
  decide

theorem tiJumpLt (n : BitVec 24) : Statement (.tiJumpLt n) := by
  simp only [Statement, encode, Instr.opcodeRow, packTiI, or_and]
  rw [field_and_eq_zero n 0 _ (by decide)]
  decide

theorem tiJumpNe (n : BitVec 24) : Statement (.tiJumpNe n) := by
  simp only [Statement, encode, Instr.opcodeRow, packTiI, or_and]
  rw [field_and_eq_zero n 0 _ (by decide)]
  decide

theorem tiJumpLe (n : BitVec 24) : Statement (.tiJumpLe n) := by
  simp only [Statement, encode, Instr.opcodeRow, packTiI, or_and]
  rw [field_and_eq_zero n 0 _ (by decide)]
  decide

theorem tiJump (n : BitVec 24) : Statement (.tiJump n) := by
  simp only [Statement, encode, Instr.opcodeRow, packTiI, or_and]
  rw [field_and_eq_zero n 0 _ (by decide)]
  decide

theorem osMuli (d : Reg) (n : BitVec 22) : Statement (.osMuli d n) := by
  simp only [Statement, encode, Instr.opcodeRow, packOsDI, or_and]
  rw [field_and_eq_zero d.code3 22 _ (by decide), field_and_eq_zero n 0 _ (by decide)]
  decide

theorem osDivi (d : Reg) (n : BitVec 22) : Statement (.osDivi d n) := by
  simp only [Statement, encode, Instr.opcodeRow, packOsDI, or_and]
  rw [field_and_eq_zero d.code3 22 _ (by decide), field_and_eq_zero n 0 _ (by decide)]
  decide

theorem osSubi (d : Reg) (n : BitVec 22) : Statement (.osSubi d n) := by
  simp only [Statement, encode, Instr.opcodeRow, packOsDI, or_and]
  rw [field_and_eq_zero d.code3 22 _ (by decide), field_and_eq_zero n 0 _ (by decide)]
  decide

theorem osAddi (d : Reg) (n : BitVec 22) : Statement (.osAddi d n) := by
  simp only [Statement, encode, Instr.opcodeRow, packOsDI, or_and]
  rw [field_and_eq_zero d.code3 22 _ (by decide), field_and_eq_zero n 0 _ (by decide)]
  decide

theorem osXnori (d : Reg) (n : BitVec 22) : Statement (.osXnori d n) := by
  simp only [Statement, encode, Instr.opcodeRow, packOsDI, or_and]
  rw [field_and_eq_zero d.code3 22 _ (by decide), field_and_eq_zero n 0 _ (by decide)]
  decide

theorem osOri (d : Reg) (n : BitVec 22) : Statement (.osOri d n) := by
  simp only [Statement, encode, Instr.opcodeRow, packOsDI, or_and]
  rw [field_and_eq_zero d.code3 22 _ (by decide), field_and_eq_zero n 0 _ (by decide)]
  decide

theorem osAndi (d : Reg) (n : BitVec 22) : Statement (.osAndi d n) := by
  simp only [Statement, encode, Instr.opcodeRow, packOsDI, or_and]
  rw [field_and_eq_zero d.code3 22 _ (by decide), field_and_eq_zero n 0 _ (by decide)]
  decide

theorem osModi (d : Reg) (n : BitVec 22) : Statement (.osModi d n) := by
  simp only [Statement, encode, Instr.opcodeRow, packOsDI, or_and]
  rw [field_and_eq_zero d.code3 22 _ (by decide), field_and_eq_zero n 0 _ (by decide)]
  decide

theorem osMul (d : Reg) (n : BitVec 22) : Statement (.osMul d n) := by
  simp only [Statement, encode, Instr.opcodeRow, packOsDI, or_and]
  rw [field_and_eq_zero d.code3 22 _ (by decide), field_and_eq_zero n 0 _ (by decide)]
  decide

theorem osDiv (d : Reg) (n : BitVec 22) : Statement (.osDiv d n) := by
  simp only [Statement, encode, Instr.opcodeRow, packOsDI, or_and]
  rw [field_and_eq_zero d.code3 22 _ (by decide), field_and_eq_zero n 0 _ (by decide)]
  decide

theorem osSub (d : Reg) (n : BitVec 22) : Statement (.osSub d n) := by
  simp only [Statement, encode, Instr.opcodeRow, packOsDI, or_and]
  rw [field_and_eq_zero d.code3 22 _ (by decide), field_and_eq_zero n 0 _ (by decide)]
  decide

theorem osAdd (d : Reg) (n : BitVec 22) : Statement (.osAdd d n) := by
  simp only [Statement, encode, Instr.opcodeRow, packOsDI, or_and]
  rw [field_and_eq_zero d.code3 22 _ (by decide), field_and_eq_zero n 0 _ (by decide)]
  decide

theorem osXnor (d : Reg) (n : BitVec 22) : Statement (.osXnor d n) := by
  simp only [Statement, encode, Instr.opcodeRow, packOsDI, or_and]
  rw [field_and_eq_zero d.code3 22 _ (by decide), field_and_eq_zero n 0 _ (by decide)]
  decide

theorem osOr (d : Reg) (n : BitVec 22) : Statement (.osOr d n) := by
  simp only [Statement, encode, Instr.opcodeRow, packOsDI, or_and]
  rw [field_and_eq_zero d.code3 22 _ (by decide), field_and_eq_zero n 0 _ (by decide)]
  decide

theorem osAnd (d : Reg) (n : BitVec 22) : Statement (.osAnd d n) := by
  simp only [Statement, encode, Instr.opcodeRow, packOsDI, or_and]
  rw [field_and_eq_zero d.code3 22 _ (by decide), field_and_eq_zero n 0 _ (by decide)]
  decide

theorem osMod (d : Reg) (n : BitVec 22) : Statement (.osMod d n) := by
  simp only [Statement, encode, Instr.opcodeRow, packOsDI, or_and]
  rw [field_and_eq_zero d.code3 22 _ (by decide), field_and_eq_zero n 0 _ (by decide)]
  decide

theorem osMulReg (d : Reg) (r : Reg) : Statement (.osMulReg d r) := by
  simp only [Statement, encode, Instr.opcodeRow, packOsCR, or_and]
  rw [field_and_eq_zero d.code3 22 _ (by decide), field_and_eq_zero r.code3 19 _ (by decide)]
  decide

theorem osDivReg (d : Reg) (r : Reg) : Statement (.osDivReg d r) := by
  simp only [Statement, encode, Instr.opcodeRow, packOsCR, or_and]
  rw [field_and_eq_zero d.code3 22 _ (by decide), field_and_eq_zero r.code3 19 _ (by decide)]
  decide

theorem osSubReg (d : Reg) (r : Reg) : Statement (.osSubReg d r) := by
  simp only [Statement, encode, Instr.opcodeRow, packOsCR, or_and]
  rw [field_and_eq_zero d.code3 22 _ (by decide), field_and_eq_zero r.code3 19 _ (by decide)]
  decide

theorem osAddReg (d : Reg) (r : Reg) : Statement (.osAddReg d r) := by
  simp only [Statement, encode, Instr.opcodeRow, packOsCR, or_and]
  rw [field_and_eq_zero d.code3 22 _ (by decide), field_and_eq_zero r.code3 19 _ (by decide)]
  decide

theorem osXnorReg (d : Reg) (r : Reg) : Statement (.osXnorReg d r) := by
  simp only [Statement, encode, Instr.opcodeRow, packOsCR, or_and]
  rw [field_and_eq_zero d.code3 22 _ (by decide), field_and_eq_zero r.code3 19 _ (by decide)]
  decide

theorem osOrReg (d : Reg) (r : Reg) : Statement (.osOrReg d r) := by
  simp only [Statement, encode, Instr.opcodeRow, packOsCR, or_and]
  rw [field_and_eq_zero d.code3 22 _ (by decide), field_and_eq_zero r.code3 19 _ (by decide)]
  decide

theorem osAndReg (d : Reg) (r : Reg) : Statement (.osAndReg d r) := by
  simp only [Statement, encode, Instr.opcodeRow, packOsCR, or_and]
  rw [field_and_eq_zero d.code3 22 _ (by decide), field_and_eq_zero r.code3 19 _ (by decide)]
  decide

theorem osModReg (d : Reg) (r : Reg) : Statement (.osModReg d r) := by
  simp only [Statement, encode, Instr.opcodeRow, packOsCR, or_and]
  rw [field_and_eq_zero d.code3 22 _ (by decide), field_and_eq_zero r.code3 19 _ (by decide)]
  decide

theorem osLoad (d : Reg) (n : BitVec 22) : Statement (.osLoad d n) := by
  simp only [Statement, encode, Instr.opcodeRow, packOsDI, or_and]
  rw [field_and_eq_zero d.code3 22 _ (by decide), field_and_eq_zero n 0 _ (by decide)]
  decide

theorem osLoadin (r : Reg) (d : Reg) (n : BitVec 22) : Statement (.osLoadin r d n) := by
  simp only [Statement, encode, Instr.opcodeRow, packOsSDI, or_and]
  rw [field_and_eq_zero r.code3 25 _ (by decide), field_and_eq_zero d.code3 22 _ (by decide), field_and_eq_zero n 0 _ (by decide)]
  decide

theorem osLoadi (d : Reg) (n : BitVec 22) : Statement (.osLoadi d n) := by
  simp only [Statement, encode, Instr.opcodeRow, packOsDI, or_and]
  rw [field_and_eq_zero d.code3 22 _ (by decide), field_and_eq_zero n 0 _ (by decide)]
  decide

theorem osStore (r : Reg) (n : BitVec 22) : Statement (.osStore r n) := by
  simp only [Statement, encode, Instr.opcodeRow, packOsSI, or_and]
  rw [field_and_eq_zero r.code3 25 _ (by decide), field_and_eq_zero n 0 _ (by decide)]
  decide

theorem osStorein (d : Reg) (r : Reg) (n : BitVec 22) : Statement (.osStorein d r n) := by
  simp only [Statement, encode, Instr.opcodeRow, packOsSDI, or_and]
  rw [field_and_eq_zero r.code3 25 _ (by decide), field_and_eq_zero d.code3 22 _ (by decide), field_and_eq_zero n 0 _ (by decide)]
  decide

theorem osMove (r : Reg) (d : Reg) : Statement (.osMove r d) := by
  simp only [Statement, encode, Instr.opcodeRow, packOsSD, or_and]
  rw [field_and_eq_zero r.code3 25 _ (by decide), field_and_eq_zero d.code3 22 _ (by decide)]
  decide

theorem osNop : Statement (.osNop) := by
  simp only [Statement, encode, Instr.opcodeRow]
  decide

theorem osJumpGt (n : BitVec 22) : Statement (.osJumpGt n) := by
  simp only [Statement, encode, Instr.opcodeRow, packOsI, or_and]
  rw [field_and_eq_zero n 0 _ (by decide)]
  decide

theorem osJumpEq (n : BitVec 22) : Statement (.osJumpEq n) := by
  simp only [Statement, encode, Instr.opcodeRow, packOsI, or_and]
  rw [field_and_eq_zero n 0 _ (by decide)]
  decide

theorem osJumpGe (n : BitVec 22) : Statement (.osJumpGe n) := by
  simp only [Statement, encode, Instr.opcodeRow, packOsI, or_and]
  rw [field_and_eq_zero n 0 _ (by decide)]
  decide

theorem osJumpLt (n : BitVec 22) : Statement (.osJumpLt n) := by
  simp only [Statement, encode, Instr.opcodeRow, packOsI, or_and]
  rw [field_and_eq_zero n 0 _ (by decide)]
  decide

theorem osJumpNe (n : BitVec 22) : Statement (.osJumpNe n) := by
  simp only [Statement, encode, Instr.opcodeRow, packOsI, or_and]
  rw [field_and_eq_zero n 0 _ (by decide)]
  decide

theorem osJumpLe (n : BitVec 22) : Statement (.osJumpLe n) := by
  simp only [Statement, encode, Instr.opcodeRow, packOsI, or_and]
  rw [field_and_eq_zero n 0 _ (by decide)]
  decide

theorem osJump (n : BitVec 22) : Statement (.osJump n) := by
  simp only [Statement, encode, Instr.opcodeRow, packOsI, or_and]
  rw [field_and_eq_zero n 0 _ (by decide)]
  decide

theorem osInt (n : BitVec 22) : Statement (.osInt n) := by
  simp only [Statement, encode, Instr.opcodeRow, packOsI, or_and]
  rw [field_and_eq_zero n 0 _ (by decide)]
  decide

theorem osRti : Statement (.osRti) := by
  simp only [Statement, encode, Instr.opcodeRow]
  decide

end Sys2Proof.Laws.TableRow
end

