-- ==== Sys2Proof/Laws/Text.lean ====
section
/-! SUPPORT. The literals the disassembler writes are read back: a decimal text is the number it shows, and no text that is a
number is a register name. -/

namespace Sys2Proof.Machine

/-- A decimal digit is its own upper case and has its value. -/
theorem digit_facts (d : Nat) (h : d < 10) :
    digitValue (Char.ofNat (48 + d)) = some d ∧ upperChar (Char.ofNat (48 + d)) = Char.ofNat (48 + d) ∧
    Char.ofNat (48 + d) ∉ ['X', 'B', '+', '-'] := by
  have all : ∀ d : Fin 10, digitValue (Char.ofNat (48 + d.1)) = some d.1 ∧
      upperChar (Char.ofNat (48 + d.1)) = Char.ofNat (48 + d.1) ∧ Char.ofNat (48 + d.1) ∉ ['X', 'B', '+', '-'] := by
    decide
  exact all ⟨d, h⟩

/-- `decimalAux` writes a digit first, and digits only before the text it is given. -/
theorem decimalAux_digits (fuel n : Nat) (acc : Text) :
    ∃ d rest, d < 10 ∧ decimalAux (fuel + 1) n acc = Char.ofNat (48 + d) :: rest ∧
      ∀ c ∈ rest, (∃ e < 10, c = Char.ofNat (48 + e)) ∨ c ∈ acc := by
  induction fuel generalizing n acc with
  | zero => exact ⟨n % 10, acc, by omega, by simp [decimalAux], fun _ h => Or.inr h⟩
  | succ fuel ih =>
    by_cases h : n / 10 = 0
    · exact ⟨n % 10, acc, by omega, by rw [decimalAux]; simp [h], fun _ h => Or.inr h⟩
    · obtain ⟨d, rest, hd, hr, hc⟩ := ih (n / 10) (Char.ofNat (48 + n % 10) :: acc)
      refine ⟨d, rest, hd, by rw [decimalAux]; simp only [h, if_false]; exact hr, fun c hm => ?_⟩
      rcases hc c hm with h1 | h1
      · exact Or.inl h1
      · rcases List.mem_cons.mp h1 with h2 | h2
        · exact Or.inl ⟨n % 10, by omega, h2⟩
        · exact Or.inr h2

/-- Reading what `decimalAux` wrote gives its number, after the digits read before it. -/
theorem digitsValue_decimalAux (fuel n : Nat) (acc : Text) (v : Nat) (hf : n < fuel) :
    ∃ p, digitsValue 10 (decimalAux fuel n acc) v = digitsValue 10 acc (v * 10 ^ p + n) := by
  induction fuel generalizing n acc v with
  | zero => omega
  | succ fuel ih =>
    have hd := (digit_facts (n % 10) (by omega)).1
    by_cases h : n / 10 = 0
    · refine ⟨1, ?_⟩
      simp only [decimalAux, h, if_true, digitsValue, hd]
      rw [if_pos (by omega)]
      congr 1; omega
    · obtain ⟨p, hp⟩ := ih (n / 10) (Char.ofNat (48 + n % 10) :: acc) v (by omega)
      refine ⟨p + 1, ?_⟩
      simp only [decimalAux, h, if_false, hp, digitsValue, hd]
      rw [if_pos (by omega), Nat.pow_succ, Nat.add_mul, Nat.mul_assoc]
      congr 1; omega

theorem upper_decimalAux (fuel n : Nat) (acc : Text) (h : upper acc = acc) :
    upper (decimalAux fuel n acc) = decimalAux fuel n acc := by
  induction fuel generalizing n acc with
  | zero => exact h
  | succ fuel ih =>
    have hc : upper (Char.ofNat (48 + n % 10) :: acc) = Char.ofNat (48 + n % 10) :: acc := by
      have := (digit_facts (n % 10) (by omega)).2.1
      simp only [upper, List.map_cons] at h ⊢
      rw [this, h]
    simp only [decimalAux]
    split
    · exact hc
    · exact ih _ _ hc

@[simp] theorem upper_decimal (n : Nat) : upper (decimal n) = decimal n :=
  upper_decimalAux _ _ [] rfl

@[simp] theorem parseUnsigned_decimal (n : Nat) : parseUnsigned (decimal n) = some n := by
  obtain ⟨p, hp⟩ := digitsValue_decimalAux (n + 1) n [] 0 (by omega)
  obtain ⟨d, rest, -, hd, hc⟩ := decimalAux_digits n n []
  have hx : ∀ c ∈ rest, c ∉ ['X', 'B', '+', '-'] := by
    intro c hm
    rcases hc c hm with ⟨e, he, rfl⟩ | h
    · exact (digit_facts e he).2.2
    · cases h
  have hv : digitsValue 10 (decimalAux (n + 1) n []) 0 = some n := by rw [hp]; simp [digitsValue]
  unfold parseUnsigned decimal
  rw [hd] at hv ⊢
  split
  next h => exact absurd (List.mem_cons_self ..) (hx 'X' (by rw [(List.cons.inj h).2]; exact List.mem_cons_self ..))
  next h => exact absurd (by simp) (hx 'B' (by rw [(List.cons.inj h).2]; exact List.mem_cons_self ..))
  next => exact hv

/-- The text of an integer is read back as the integer. -/
@[simp] theorem parseNumber_signedDecimal (z : Int) : parseNumber (upper (signedDecimal z)) = some z := by
  cases z with
  | ofNat n =>
    have hu := parseUnsigned_decimal n
    obtain ⟨d, rest, h1, h2, -⟩ := decimalAux_digits n n []
    have hs := (digit_facts d h1).2.2
    simp only [signedDecimal, upper_decimal]
    unfold decimal at hu ⊢
    rw [h2] at hu ⊢
    unfold parseNumber
    split
    next h => exact absurd (by rw [(List.cons.inj h).1]; simp) hs
    next h => exact absurd (by rw [(List.cons.inj h).1]; simp) hs
    next => rw [hu]; rfl
  | negSucc n =>
    have h : upper (signedDecimal (.negSucc n)) = '-' :: decimal (n + 1) := by
      have := upper_decimal (n + 1)
      simp only [signedDecimal, upper, List.map_cons] at this ⊢
      rw [this]; rfl
    rw [h]
    simp only [parseNumber, parseUnsigned_decimal, Option.map_some, Option.some.injEq]
    rfl

/-- A token that is a number is no register name. -/
theorem parseReg_of_parseNumber {v : Variant} {t : Text} {z : Int} (h : parseNumber t = some z) : parseReg v t = none := by
  have names : ∀ r : Reg, parseNumber (regName r) = none := by intro r; cases r <;> decide
  rw [parseReg, List.find?_eq_none]
  intro r _ he
  rw [← eq_of_beq he, names] at h
  cases h

end Sys2Proof.Machine
end

