-- ==== Sys2Proof/Tests/Slice0.lean ====
section
/-! SUPPORT. The model's own tests. Expected values come from the worked examples of the rules and from
`95_test_vectors.md`, or are calculated by hand from the rules; the comment of each group says which. Each step test runs one
step. The last part holds, for every statement with hypotheses, a state and operands that meet them. -/

namespace Sys2Proof.Machine.Tests

-- Elaborated one after another: one thread for each of some hundred small theorems is more than the memory limit allows.
set_option Elab.async false

/-! ## Helpers -/

/-- A TI core in its reset state but for the program counter, with the word `w` there. -/
def tiAt (pc w : Word) : State :=
  { State.resetWith (Config.default .ti) with pc := pc }.withFetchWord 32 w.toNat

/-- An OS core in its reset state but for the program counter, with the word `w` there. -/
def osAt (pc w : Word) : State :=
  { State.resetWith (Config.default .os) with pc := pc }.withFetchWord 32 w.toNat

/-- An OS core with a main program of 10 words `NOP` and an interrupt-service routine of 6, as in the INT vectors of
`95_test_vectors.md`. -/
def osIsr : State :=
  State.resetWith { Config.default .os with code := List.replicate 10 0xC0000000#32, isrCode := List.replicate 6 0xC0000000#32 }

/-! ## Well-formedness: each check refuses an ill-formed term -/

theorem test_wf_ti_destination : (Instr.tiAddi .sp 0#24).wellFormed = false := by decide
theorem test_wf_ti_move_source : (Instr.tiMove .ds .acc).wellFormed = false := by decide
theorem test_wf_ti_move_destination : (Instr.tiMove .acc .baf).wellFormed = false := by decide
theorem test_wf_ti_load : (Instr.tiLoadin1 .cs 0#24).wellFormed = false := by decide
theorem test_wf_variant : (Instr.osRti).wellFormedIn .ti = false ∧ (Instr.tiNop).wellFormedIn .os = false := by decide
theorem test_wf_accepts : (Instr.tiMove .acc .in1).wellFormedIn .ti = true ∧ (Instr.osMove .ds .cs).wellFormedIn .os = true := by
  decide

/-! ## Decoding: words of the rules' examples and of `95_test_vectors.md` L2.1, L2.2, L2.4, each bit by its rule -/

theorem test_decode_ti_compute :
    decode .ti 0x2B000001#32 = .ok (.tiSubi .acc 1#24) ∧
    decode .ti 0x2DFFFFFF#32 = .ok (.tiAddi .in1 0xFFFFFF#24) ∧
    decode .ti 0x330F0F0F#32 = .ok (.tiXnori .acc 0x0F0F0F#24) ∧
    decode .ti 0x350000F0#32 = .ok (.tiOri .in1 0xF0#24) ∧
    decode .ti 0x3B7FFFFF#32 = .ok (.tiAndi .acc 0x7FFFFF#24) ∧
    decode .ti 0x0A000000#32 = .ok (.tiSub .in2 0#24) ∧
    decode .ti 0x0CFFFFFF#32 = .ok (.tiAdd .pc 0xFFFFFF#24) ∧
    decode .ti 0x13000004#32 = .ok (.tiXnor .acc 4#24) ∧
    decode .ti 0x17000004#32 = .ok (.tiOr .acc 4#24) ∧
    decode .ti 0x1B000004#32 = .ok (.tiAnd .acc 4#24) := by
  decide

theorem test_decode_ti_load_store_move :
    decode .ti 0x43FFFFFF#32 = .ok (.tiLoad .acc 0xFFFFFF#24) ∧
    decode .ti 0x51000002#32 = .ok (.tiLoadin1 .in1 2#24) ∧
    decode .ti 0x60000000#32 = .ok (.tiLoadin2 .pc 0#24) ∧
    decode .ti 0x72800000#32 = .ok (.tiLoadi .in2 0x800000#24) ∧
    decode .ti 0x8C000007#32 = .ok (.tiStore 7#24) ∧
    decode .ti 0x90000002#32 = .ok (.tiStorein1 2#24) ∧
    decode .ti 0xA0FFFFFD#32 = .ok (.tiStorein2 0xFFFFFD#24) ∧
    decode .ti 0xBD123456#32 = .ok (.tiMove .acc .in1) := by
  decide

theorem test_decode_ti_jump :
    decode .ti 0xC0000005#32 = .ok (.tiNop) ∧
    decode .ti 0xC8FFFFFE#32 = .ok (.tiJumpGt 0xFFFFFE#24) ∧
    decode .ti 0xD0000003#32 = .ok (.tiJumpEq 3#24) ∧
    decode .ti 0xD8000005#32 = .ok (.tiJumpGe 5#24) ∧
    decode .ti 0xE0000005#32 = .ok (.tiJumpLt 5#24) ∧
    decode .ti 0xE8000005#32 = .ok (.tiJumpNe 5#24) ∧
    decode .ti 0xF0000005#32 = .ok (.tiJumpLe 5#24) ∧
    decode .ti 0xFF000003#32 = .ok (.tiJump 3#24) := by
  decide

theorem test_decode_os_compute_immediate :
    decode .os 0x20FFFFFD#32 = .ok (.osMuli .acc 0x3FFFFD#22) ∧
    decode .os 0x22000002#32 = .ok (.osDivi .pc 2#22) ∧
    decode .os 0x25000001#32 = .ok (.osSubi .sp 1#22) ∧
    decode .os 0x273FFFFF#32 = .ok (.osAddi .sp 0x3FFFFF#22) ∧
    decode .os 0x28C00000#32 = .ok (.osXnori .acc 0#22) ∧
    decode .os 0x2AC00001#32 = .ok (.osOri .acc 1#22) ∧
    decode .os 0x2CE00000#32 = .ok (.osAndi .acc 0x200000#22) ∧
    decode .os 0x2E000004#32 = .ok (.osModi .pc 4#22) := by
  decide

theorem test_decode_os_compute_memory :
    decode .os 0x00000000#32 = .ok (.osMul .pc 0#22) ∧
    decode .os 0x02C00004#32 = .ok (.osDiv .acc 4#22) ∧
    decode .os 0x04C00004#32 = .ok (.osSub .acc 4#22) ∧
    decode .os 0x06C00005#32 = .ok (.osAdd .acc 5#22) ∧
    decode .os 0x08C00004#32 = .ok (.osXnor .acc 4#22) ∧
    decode .os 0x0AC00004#32 = .ok (.osOr .acc 4#22) ∧
    decode .os 0x0CC00004#32 = .ok (.osAnd .acc 4#22) ∧
    decode .os 0x0EC00004#32 = .ok (.osMod .acc 4#22) := by
  decide

theorem test_decode_os_compute_register :
    decode .os 0x10E00000#32 = .ok (.osMulReg .acc .sp) ∧
    decode .os 0x12E80000#32 = .ok (.osDivReg .acc .baf) ∧
    decode .os 0x14D00000#32 = .ok (.osSubReg .acc .in2) ∧
    decode .os 0x16C80001#32 = .ok (.osAddReg .acc .in1) ∧
    decode .os 0x18F80000#32 = .ok (.osXnorReg .acc .ds) ∧
    decode .os 0x1B380000#32 = .ok (.osOrReg .sp .ds) ∧
    decode .os 0x1C500000#32 = .ok (.osAndReg .in1 .in2) ∧
    decode .os 0x1EF00000#32 = .ok (.osModReg .acc .cs) := by
  decide

theorem test_decode_os_load_store_move :
    decode .os 0x46C00005#32 = .ok (.osLoad .acc 5#22) ∧
    decode .os 0x5A7FFFFE#32 = .ok (.osLoadin .baf .in1 0x3FFFFE#22) ∧
    decode .os 0x71E00000#32 = .ok (.osLoadi .ds 0x200000#22) ∧
    decode .os 0x86000007#32 = .ok (.osStore .acc 7#22) ∧
    decode .os 0x957FFFFF#32 = .ok (.osStorein .baf .in2 0x3FFFFF#22) ∧
    decode .os 0xB6412345#32 = .ok (.osMove .acc .in1) := by
  decide

theorem test_decode_os_jump_int_rti :
    decode .os 0xC1C00007#32 = .ok (.osNop) ∧
    decode .os 0xC83FFFFE#32 = .ok (.osJumpGt 0x3FFFFE#22) ∧
    decode .os 0xD0000002#32 = .ok (.osJumpEq 2#22) ∧
    decode .os 0xD8000005#32 = .ok (.osJumpGe 5#22) ∧
    decode .os 0xE0000005#32 = .ok (.osJumpLt 5#22) ∧
    decode .os 0xE8000005#32 = .ok (.osJumpNe 5#22) ∧
    decode .os 0xF01FFFFF#32 = .ok (.osJumpLe 0x1FFFFF#22) ∧
    decode .os 0xF8000003#32 = .ok (.osJump 3#22) ∧
    decode .os 0xFA000005#32 = .ok (.osInt 5#22) ∧
    decode .os 0xFDFFFFFF#32 = .ok (.osRti) := by
  decide

theorem test_decode_reserved :
    decode .ti 0x20000000#32 = .error .tiComputeF000 ∧ decode .ti 0x07FFFFFF#32 = .error .tiComputeF001 ∧
    decode .ti 0x3C000000#32 = .error .tiComputeF111 ∧ decode .os 0x30000000#32 = .error .osComputeKind11 ∧
    decode .os 0x60C00005#32 = .error .osLoadMode10 ∧ decode .os 0xA6C00005#32 = .error .osStoreMode10 ∧
    decode .os 0xFFFFFFFF#32 = .error .osJumpJ11 := by
  decide

/-- Canonical words of `95_test_vectors.md` L2.4. -/
theorem test_canon :
    canon .ti 0xBD123456#32 = 0xBD000000#32 ∧ canon .ti 0x8C000007#32 = 0x80000007#32 ∧
    canon .os 0x16C80001#32 = 0x16C80000#32 ∧ canon .os 0xFA000005#32 = 0xC2000005#32 ∧
    canon .os 0xFC3FFFFF#32 = 0xC4000000#32 := by
  decide

theorem test_decodeTableWord : decodeTableWord 32 0x06C00005 = some (.osAdd .acc 5#22) := by decide

/-! ## The codec: lines of `95_test_vectors.md` L2.1 to L2.4 -/

theorem test_encode_line : encodeLine .ti ';' "loadi acc 0X10 ; sixteen".toList =
    some { status := .ok, word := some 0x73000010#32, message := [] } := by
  decide

theorem test_encode_register_form : (encodeTokens .os ["ADD".toList, "ACC".toList, "IN1".toList]).word = some 0x16C80000#32 := by
  decide

theorem test_encode_truncates : (encodeTokens .ti ["ADDI".toList, "ACC".toList, "-8388609".toList]).word = some 0x2F7FFFFF#32 := by
  decide

theorem test_encode_failures :
    (encodeTokens .ti ["MUL".toList, "ACC".toList, "1".toList]).status = .errUnknownMnemonic ∧
    (encodeTokens .ti ["JUMP".toList, ">=".toList, "5".toList]).status = .errOperandCount ∧
    (encodeTokens .ti ["LOADI".toList, "zz".toList, "zz".toList]).status = .errBadRegister ∧
    (encodeTokens .os ["ADD".toList, "ACC".toList, "I".toList]).status = .errBadNumber ∧
    (encodeTokens .os []).status = .errUnknownMnemonic := by
  decide

theorem test_decode_text :
    decodeText .ti 0x43FFFFFF#32 = "LOAD ACC 16777215".toList ∧ decodeText .os 0x5A7FFFFE#32 = "LOADIN BAF IN1 -2".toList ∧
    decodeText .os 0xC6000000#32 = "invalid instruction".toList := by
  decide

/-! ## One step of each instruction: the examples of the rules of `40_compute.md` to `44_os_int_rti.md` -/

theorem test_ti_subi_wraps :
    (afterStep (tiAt 0 0x2B000001#32)).acc = 0xFFFFFFFF#32 := by
  decide

theorem test_ti_addi_pc :
    (afterStep (tiAt 10 0x2C000002#32)).pc = 12#32 := by
  decide

theorem test_ti_xnori :
    (afterStep { tiAt 0 0x330F0F0F#32 with acc := 0x00FF00FF#32 }).acc = 0xFF0FF00F#32 := by
  decide

theorem test_ti_ori_sign_extends :
    (afterStep (tiAt 0 0x37800000#32)).acc = 0xFF800000#32 := by
  decide

theorem test_ti_andi_sign_extends :
    (afterStep { tiAt 0 0x3B7FFFFF#32 with acc := 0xDEADBEEF#32 }).acc = 0x002DBEEF#32 := by
  decide

theorem test_ti_sub :
    (afterStep { tiAt 0 0x0B000004#32 with acc := 5#32, mem := [(4, 10#32)] }).acc = 0xFFFFFFFB#32 := by
  decide

theorem test_ti_add_address_unsigned :
    (afterStep { tiAt 0 0x0DFFFFFF#32 with in1 := 1#32, mem := [(0xFFFFFF, 2#32)] }).in1 = 3#32 := by
  decide

theorem test_ti_xnor :
    (afterStep { tiAt 0 0x13000004#32 with acc := 5#32, mem := [(4, 10#32)] }).acc = 0xFFFFFFF0#32 := by
  decide

theorem test_ti_or :
    (afterStep { tiAt 0 0x17000004#32 with acc := 5#32, mem := [(4, 10#32)] }).acc = 0xF#32 := by
  decide

theorem test_ti_and :
    (afterStep { tiAt 0 0x1B000004#32 with acc := 5#32, mem := [(4, 12#32)] }).acc = 4#32 := by
  decide

theorem test_ti_load_pc :
    (afterStep { tiAt 9 0x40000005#32 with mem := [(5, 2#32)] }).pc = 2#32 := by
  decide

theorem test_ti_loadin1_base_is_destination :
    (afterStep { tiAt 0 0x51000002#32 with in1 := 4#32, mem := [(6, 0x1234#32)] }).in1 = 0x1234#32 := by
  decide

theorem test_ti_loadin2_wraps :
    (afterStep { tiAt 0 0x63000001#32 with in2 := 0xFFFFFFFF#32, mem := [(0, 0x55#32)] }).acc = 0x55#32 := by
  decide

theorem test_ti_loadi_sign_extends :
    (afterStep (tiAt 0 0x72800000#32)).in2 = 0xFF800000#32 := by
  decide

theorem test_ti_store_address_unsigned :
    (afterStep { tiAt 0 0x80FFFFFF#32 with acc := 0x11#32 }).mem = [(0x00FFFFFF, 0x11#32)] := by
  decide

theorem test_ti_storein1_wraps :
    (afterStep { tiAt 0 0x90FFFFFF#32 with in1 := 0x80000000#32, acc := 0xABCD#32 }).mem = [(0x7FFFFFFF, 0xABCD#32)] := by
  decide

theorem test_ti_storein2_wraps :
    (afterStep { tiAt 0 0xA0FFFFFD#32 with in2 := 1#32, acc := 0x77#32 }).mem = [(0xFFFFFFFE, 0x77#32)] := by
  decide

theorem test_ti_move_from_pc :
    (afterStep (tiAt 6 0xB3000000#32)).acc = 6#32 := by
  decide

theorem test_ti_move_to_pc :
    (afterStep { tiAt 6 0xBC000000#32 with acc := 3#32 }).pc = 3#32 := by
  decide

theorem test_ti_nop :
    (afterStep (tiAt 4 0xC0000005#32)).pc = 5#32 := by
  decide

theorem test_ti_jump_gt :
    ([0xFFFFFFFF#32, 0#32, 1#32, 0x80000000#32, 0x7FFFFFFF#32]).map (fun a => (afterStep { tiAt 10 0xC8000005#32 with acc := a }).pc) =
      [11#32, 11#32, 15#32, 11#32, 15#32] := by
  decide

theorem test_ti_jump_eq :
    ([0xFFFFFFFF#32, 0#32, 1#32, 0x80000000#32, 0x7FFFFFFF#32]).map (fun a => (afterStep { tiAt 10 0xD0000005#32 with acc := a }).pc) =
      [11#32, 15#32, 11#32, 11#32, 11#32] := by
  decide

theorem test_ti_jump_ge :
    ([0xFFFFFFFF#32, 0#32, 1#32, 0x80000000#32, 0x7FFFFFFF#32]).map (fun a => (afterStep { tiAt 10 0xD8000005#32 with acc := a }).pc) =
      [11#32, 15#32, 15#32, 11#32, 15#32] := by
  decide

theorem test_ti_jump_lt :
    ([0xFFFFFFFF#32, 0#32, 1#32, 0x80000000#32, 0x7FFFFFFF#32]).map (fun a => (afterStep { tiAt 10 0xE0000005#32 with acc := a }).pc) =
      [15#32, 11#32, 11#32, 15#32, 11#32] := by
  decide

theorem test_ti_jump_ne :
    ([0xFFFFFFFF#32, 0#32, 1#32, 0x80000000#32, 0x7FFFFFFF#32]).map (fun a => (afterStep { tiAt 10 0xE8000005#32 with acc := a }).pc) =
      [15#32, 11#32, 15#32, 15#32, 15#32] := by
  decide

theorem test_ti_jump_le :
    ([0xFFFFFFFF#32, 0#32, 1#32, 0x80000000#32, 0x7FFFFFFF#32]).map (fun a => (afterStep { tiAt 10 0xF0000005#32 with acc := a }).pc) =
      [15#32, 15#32, 11#32, 15#32, 11#32] := by
  decide

theorem test_ti_jump_always :
    ([0xFFFFFFFF#32, 0#32, 1#32, 0x80000000#32, 0x7FFFFFFF#32]).map (fun a => (afterStep { tiAt 10 0xF8000005#32 with acc := a }).pc) =
      [15#32, 15#32, 15#32, 15#32, 15#32] := by
  decide

theorem test_os_jump_gt :
    ([0xFFFFFFFF#32, 0#32, 1#32, 0x80000000#32, 0x7FFFFFFF#32]).map (fun a => (afterStep { osAt 10 0xC8000005#32 with acc := a }).pc) =
      [11#32, 11#32, 15#32, 11#32, 15#32] := by
  decide

theorem test_os_jump_eq :
    ([0xFFFFFFFF#32, 0#32, 1#32, 0x80000000#32, 0x7FFFFFFF#32]).map (fun a => (afterStep { osAt 10 0xD0000005#32 with acc := a }).pc) =
      [11#32, 15#32, 11#32, 11#32, 11#32] := by
  decide

theorem test_os_jump_ge :
    ([0xFFFFFFFF#32, 0#32, 1#32, 0x80000000#32, 0x7FFFFFFF#32]).map (fun a => (afterStep { osAt 10 0xD8000005#32 with acc := a }).pc) =
      [11#32, 15#32, 15#32, 11#32, 15#32] := by
  decide

theorem test_os_jump_lt :
    ([0xFFFFFFFF#32, 0#32, 1#32, 0x80000000#32, 0x7FFFFFFF#32]).map (fun a => (afterStep { osAt 10 0xE0000005#32 with acc := a }).pc) =
      [15#32, 11#32, 11#32, 15#32, 11#32] := by
  decide

theorem test_os_jump_ne :
    ([0xFFFFFFFF#32, 0#32, 1#32, 0x80000000#32, 0x7FFFFFFF#32]).map (fun a => (afterStep { osAt 10 0xE8000005#32 with acc := a }).pc) =
      [15#32, 11#32, 15#32, 15#32, 15#32] := by
  decide

theorem test_os_jump_le :
    ([0xFFFFFFFF#32, 0#32, 1#32, 0x80000000#32, 0x7FFFFFFF#32]).map (fun a => (afterStep { osAt 10 0xF0000005#32 with acc := a }).pc) =
      [15#32, 15#32, 11#32, 15#32, 11#32] := by
  decide

theorem test_os_jump_always :
    ([0xFFFFFFFF#32, 0#32, 1#32, 0x80000000#32, 0x7FFFFFFF#32]).map (fun a => (afterStep { osAt 10 0xF8000005#32 with acc := a }).pc) =
      [15#32, 15#32, 15#32, 15#32, 15#32] := by
  decide

theorem test_ti_jump_wraps :
    (afterStep (tiAt 10 0xF8FFFFF5#32)).pc = 0xFFFFFFFF#32 := by
  decide

theorem test_os_muli :
    (afterStep { osAt 0 0x20FFFFFD#32 with acc := 14#32 }).acc = 0xFFFFFFD6#32 := by
  decide

theorem test_os_divi_truncates :
    (afterStep { osAt 0 0x22C00002#32 with acc := 0xFFFFFFF9#32 }).acc = 0xFFFFFFFD#32 := by
  decide

theorem test_os_divi_pc_unsigned :
    (afterStep (osAt 6 0x22000002#32)).pc = 3#32 := by
  decide

theorem test_os_subi :
    (afterStep { osAt 0 0x25000001#32 with sp := 0x80000100#32 }).sp = 0x800000FF#32 := by
  decide

theorem test_os_addi :
    (afterStep { osAt 0 0x273FFFFF#32 with sp := 0x80000100#32 }).sp = 0x800000FF#32 := by
  decide

theorem test_os_xnori :
    (afterStep { osAt 0 0x28C00000#32 with acc := 0x12345678#32 }).acc = 0xEDCBA987#32 := by
  decide

theorem test_os_ori :
    (afterStep { osAt 0 0x2AC00001#32 with acc := 0x10#32 }).acc = 0x11#32 := by
  decide

theorem test_os_andi_sign_extends :
    (afterStep { osAt 0 0x2CE00000#32 with acc := 0xFFFFFFFF#32 }).acc = 0xFFE00000#32 := by
  decide

theorem test_os_modi_sign_of_dividend :
    (afterStep { osAt 0 0x2EC00002#32 with acc := 0xFFFFFFF9#32 }).acc = 0xFFFFFFFF#32 := by
  decide

theorem test_os_modi_pc :
    (afterStep (osAt 6 0x2E000004#32)).pc = 2#32 := by
  decide

theorem test_os_mul :
    (afterStep { osAt 0 0x00C00004#32 with acc := 6#32, mem := [(0x80000004, 7#32)] }).acc = 0x2A#32 := by
  decide

theorem test_os_div :
    (afterStep { osAt 0 0x02C00004#32 with acc := 42#32, mem := [(0x80000004, 5#32)] }).acc = 8#32 := by
  decide

theorem test_os_sub :
    (afterStep { osAt 0 0x04C00004#32 with acc := 5#32, mem := [(0x80000004, 10#32)] }).acc = 0xFFFFFFFB#32 := by
  decide

theorem test_os_add_ds_fill :
    (afterStep { osAt 0 0x06C00005#32 with ds := 0x803FFFFF#32, acc := 1#32, mem := [(0x80000005, 41#32)] }).acc = 0x2A#32 := by
  decide

theorem test_os_xnor :
    (afterStep { osAt 0 0x08C00004#32 with acc := 5#32, mem := [(0x80000004, 10#32)] }).acc = 0xFFFFFFF0#32 := by
  decide

theorem test_os_or :
    (afterStep { osAt 0 0x0AC00004#32 with acc := 5#32, mem := [(0x80000004, 10#32)] }).acc = 0xF#32 := by
  decide

theorem test_os_and :
    (afterStep { osAt 0 0x0CC00004#32 with acc := 5#32, mem := [(0x80000004, 12#32)] }).acc = 4#32 := by
  decide

theorem test_os_mod :
    (afterStep { osAt 0 0x0EC00004#32 with acc := 42#32, mem := [(0x80000004, 5#32)] }).acc = 2#32 := by
  decide

theorem test_os_mulReg :
    (afterStep { osAt 0 0x10C80000#32 with acc := 0x12345678#32, in1 := 0x9ABCDEF0#32 }).acc = 0x242D2080#32 := by
  decide

theorem test_os_divReg_overflow :
    (afterStep { osAt 0 0x12D00000#32 with acc := 0x80000000#32, in2 := 0xFFFFFFFF#32 }).acc = 0x80000000#32 := by
  decide

theorem test_os_subReg :
    (afterStep { osAt 0 0x14D00000#32 with acc := 5#32, in2 := 7#32 }).acc = 0xFFFFFFFE#32 := by
  decide

theorem test_os_addReg_reads_pc :
    (afterStep { osAt 5 0x16C00000#32 with acc := 1#32 }).acc = 6#32 := by
  decide

theorem test_os_xnorReg :
    (afterStep { osAt 0 0x18F80000#32 with acc := 0x0F0F0F0F#32 }).acc = 0x70F0F0F0#32 := by
  decide

theorem test_os_orReg :
    (afterStep { osAt 0 0x1B380000#32 with sp := 0x100#32 }).sp = 0x80000100#32 := by
  decide

theorem test_os_andReg :
    (afterStep { osAt 0 0x1C500000#32 with in1 := 0xFF00FF00#32, in2 := 0x0FF00FF0#32 }).in1 = 0x0F000F00#32 := by
  decide

theorem test_os_modReg :
    (afterStep { osAt 0 0x1EF00000#32 with acc := 42#32, cs := 5#32 }).acc = 2#32 := by
  decide

theorem test_os_load_segment :
    (afterStep { osAt 0 0x40FFFFFF#32 with ds := 0xC0000000#32, mem := [(0xC03FFFFF, 0xCAFEBABE#32)] }).acc = 0xCAFEBABE#32 := by
  decide

theorem test_os_load_rom :
    (afterStep { osAt 0 0x40C00000#32 with ds := 0#32 }).acc = 0x40C00000#32 := by
  decide

theorem test_os_loadin :
    (afterStep { osAt 0 0x5A7FFFFE#32 with baf := 0x80000010#32, mem := [(0x8000000E, 9#32)] }).in1 = 9#32 := by
  decide

theorem test_os_loadi :
    (afterStep (osAt 0 0x71E00000#32)).ds = 0xFFE00000#32 := by
  decide

theorem test_os_store_pc :
    (afterStep { osAt 3 0x80000007#32 with in1 := 0#32 }).mem = [(0x80000007, 3#32)] := by
  decide

theorem test_os_storein :
    (afterStep { osAt 0 0x957FFFFF#32 with baf := 0x80000010#32, in2 := 0x77#32 }).mem = [(0x8000000F, 0x77#32)] := by
  decide

theorem test_os_move :
    (afterStep (osAt 0 0xBF800000#32)).cs = 0x80000000#32 := by
  decide

theorem test_os_move_to_pc :
    (afterStep { osAt 0 0xB6000000#32 with acc := 3#32 }).pc = 3#32 := by
  decide

theorem test_os_nop :
    (afterStep (osAt 4 0xC1C00007#32)).pc = 5#32 := by
  decide

theorem test_os_jump_extreme :
    (afterStep (osAt 0 0xF8200000#32)).pc = 0xFFE00000#32 := by
  decide

/-- `INT 1` at 12 inside the routine (vector IO8): the handler's address, the nested entry, the flag kept. -/
theorem test_os_int_nests :
    (afterSteps 1 ({ osIsr with pc := 12#32, returnStack := [⟨3#32, false⟩], inIsr := true }.withFetchWord 32 0xC2000001)).returnStack =
      [⟨13#32, true⟩, ⟨3#32, false⟩] := by
  decide

theorem test_os_int_default_vector : (afterStep ({ osIsr with pc := 2#32 }.withFetchWord 32 0xC2000000)).pc = 10#32 := by
  decide

theorem test_os_rti :
    (afterStep { osAt 10 0xC4000000#32 with returnStack := [⟨13#32, true⟩, ⟨3#32, false⟩], inIsr := true }).pc = 13#32 := by
  decide

/-! ## Faults, termination and the I/O window -/

theorem test_fault_divide : stepOutcome { osAt 0 0x02C00005#32 with acc := 42#32 } = .fault .divideByZero := by decide

theorem test_fault_store_rom : stepOutcome { osAt 0 0x86000007#32 with ds := 0#32 } = .fault .storeToRom := by decide

theorem test_fault_unmapped : stepOutcome { osAt 0 0x40C00003#32 with ds := 0x40000000#32 } = .fault .unmappedAccess := by decide

theorem test_fault_rti : stepOutcome (osAt 0 0xC4000000#32) = .fault .returnStackEmpty := by decide

theorem test_fault_illegal : stepOutcome (tiAt 0 0x03000000#32) = .fault .illegalInstruction := by decide

/-- `DIV ACC 1` of a port whose supplied value is zero. -/
def divAtPort : State :=
  { osAt 0 0x02C00001#32 with ds := 0x40000000#32, uartInput := [0#32] }

/-- The DIV whose operand comes from the I/O window and is zero leaves no event (R317), and the value is drawn (R160). -/
theorem test_fault_draws_without_event :
    (afterStep divAtPort).status = .faulted .divideByZero ∧ (afterStep divAtPort).ioHistory = [] ∧
    (afterStep divAtPort).uartInput = [] := by
  decide

/-- `LOAD ACC 2` from the status port (R201), the sample draw of `95_test_vectors.md`. -/
theorem test_port_read :
    (afterStep { osAt 0 0x40C00002#32 with ds := 0x40000000#32, uartInput := [3#32] }).ioHistory = [.read .status 3#32] := by
  decide

/-- `STORE ACC 0` to the transmit port (R224). -/
theorem test_port_write :
    (afterStep { osAt 0 0x86000000#32 with ds := 0x40000000#32, acc := 0x48#32 }).ioHistory = [.write .transmit 0x48#32] := by
  decide

theorem test_terminated : stepOutcome State.reset = .terminated ∧ stepOutcome { tiAt 0 0xC0000000#32 with pc := 1#32 } = .terminated := by
  decide

theorem test_fetch_register : (afterStep (osAt 0 0xC0000000#32)).fetchReg = 0xC0000000#32 := by decide

theorem test_call_introspection :
    isCallInstruction (tiAt 4 0xF8000000#32) = true ∧ isCallInstruction (tiAt 4 0xF8000001#32) = false ∧
    callTarget { tiAt 4 0xBC000000#32 with acc := 3#32 } = some 3#32 := by
  decide

/-! ## Witnesses: concrete inputs that meet the hypotheses of each statement -/

theorem running_not_faulted (s : State) (h : s.status = .running) : ∀ c, s.status ≠ .faulted c := by
  intro c hc
  rw [h] at hc
  cases hc

theorem witness_DecodeEncode : (Instr.tiMove .acc .in1).wellFormed = true ∧ (Instr.osStorein .ds .ds 0x3FFFFF#22).wellFormed = true := by
  decide

theorem witness_EncodeDecode : decode .os 0xFA000005#32 = .ok (.osInt 5#22) := by decide

theorem witness_ReservedWords :
    (0x3C000000#32 &&& 0xDC000000#32 = 0x1C000000#32) ∧ decode .ti 0x3C000000#32 = .error .tiComputeF111 ∧
    (0x3FFFFFFF#32 &&& 0xF0000000#32 = 0x30000000#32) ∧ decode .os 0x3FFFFFFF#32 = .error .osComputeKind11 := by
  decide

theorem witness_OpcodeRows :
    decode .os 0xC23FFFFF#32 = .ok (.osInt 0x3FFFFF#22) ∧ (Instr.osInt 0#22).variant = .os ∧
    0xC23FFFFF#32 &&& (Instr.osInt 0#22).opcodeRow.1 = (Instr.osInt 0#22).opcodeRow.2 ∧
    0x2B000001#32 &&& 0xFC000000#32 = 0x28000000#32 ∧ 0x7FFFFFFF#32 &&& 0xF0000000#32 = 0x70000000#32 ∧
    0x0FFFFFFF#32 &&& 0xFE000000#32 = 0x0E000000#32 ∧ 0x1FFFFFFF#32 &&& 0xFE000000#32 = 0x1E000000#32 ∧
    0x5A7FFFFE#32 &&& 0xF0000000#32 = 0x50000000#32 ∧ 0x80000007#32 &&& 0xF0000000#32 = 0x80000000#32 ∧
    0x957FFFFF#32 &&& 0xF0000000#32 = 0x90000000#32 ∧ 0xFDFFFFFF#32 &&& 0xC6000000#32 = 0xC4000000#32 := by
  decide

theorem witness_CanonicalWords : (Instr.osRti).wellFormed = true := by decide

theorem witness_TextRoundTrip : decode .os 0xF01FFFFF#32 = .ok (.osJumpLe 0x1FFFFF#22) := by decide

theorem witness_NumbersAnySize :
    parseNumber (upper "0x1000001".toList) = some 16777217 ∧ "-8388609".toList = signedDecimal (-8388609) ∧
    Reg.acc ∈ regsOf .ti ∧ Reg.ds ∈ regsOf .os := by
  decide

theorem witness_EncodeWordOnSuccess : (encodeTokens .os ["RTI".toList]).word = some 0xC4000000#32 := by decide

theorem witness_OsDivModImmediate : (0x3FFFFF#22 ≠ 0#22) ∧ (0#22 : BitVec 22) = 0#22 := by decide

/-- The three kinds of readable operand: RAM at its first cell, the last port, and ROM. -/
theorem witness_OsComputeMemory :
    osMemRead (osAt 0 0#32) (eaDirectOs (osAt 0 0#32) 0#22) = .ok (0#32, osAt 0 0#32) ∧
    osMemRead { osAt 0 7#32 with ds := 0#32 } (eaDirectOs { osAt 0 7#32 with ds := 0#32 } 0#22) =
      .ok (7#32, { osAt 0 7#32 with ds := 0#32 }) ∧
    osMemRead { State.reset with ds := 0x40000000#32, uartInput := [9#32] }
        (eaDirectOs { State.reset with ds := 0x40000000#32, uartInput := [9#32] } 2#22) =
      .ok (9#32, { State.reset with ds := 0x40000000#32, ioHistory := [.read .status 9#32] }) := by
  decide

theorem witness_OsDivModMemory :
    osMemRead { State.reset with mem := [(0x80000000, 5#32)] } (eaDirectOs State.reset 0#22) =
      .ok (5#32, { State.reset with mem := [(0x80000000, 5#32)] }) ∧
    osMemRead State.reset (eaDirectOs State.reset 0#22) = .ok (0#32, State.reset) := by
  decide

theorem witness_OsComputeUnmapped :
    osMemRead { State.reset with ds := 0x40000000#32 } (eaDirectOs { State.reset with ds := 0x40000000#32 } 3#22) =
      .error .unmappedAccess := by
  decide

theorem witness_OsDivModRegister : readReg State.reset .ds ≠ 0#32 ∧ readReg State.reset .pc = 0#32 := by decide

/-- The last RAM cell and the first address above the ports, by the sum of a base and an offset. -/
theorem witness_OsLoads :
    osMemRead State.reset (eaDirectOs State.reset 0x3FFFFF#22) = .ok (0#32, State.reset) ∧
    osMemRead State.reset (readReg State.reset .acc + (0x3FFFFF#22).signExtend 32) = .ok (0#32, State.reset) ∧
    osMemRead { State.reset with ds := 0#32 } (eaDirectOs { State.reset with ds := 0#32 } 0#22) = .error .unmappedAccess ∧
    osMemRead { State.reset with acc := 0x40000003#32 }
      (readReg { State.reset with acc := 0x40000003#32 } .acc + (0#22).signExtend 32) = .error .unmappedAccess := by
  decide

theorem witness_TiStores :
    Memory.wf (tiAt 0 0#32).mem = true ∧ slice 0x8C000007#32 28 4 = 0b1000#4 ∧ slice 0x9F000007#32 28 4 = 0b1001#4 ∧
    slice 0xA0FFFFFD#32 28 4 = 0b1010#4 := by
  decide

theorem witness_OsStoresRam :
    Memory.wf State.reset.mem = true ∧ 2 ^ 31 ≤ (eaDirectOs State.reset 0#22).toNat ∧
    2 ^ 31 ≤ (readReg State.reset .ds + (0#22).signExtend 32).toNat := by
  decide

/-- The first and the last port, the last ROM address, and both ends of the unmapped part of the window. -/
theorem witness_OsStoresDevices :
    (device 0x40000000#32 = .io ∧ ioPort 0x40000000#32 = some .transmit) ∧
    (device 0x40000002#32 = .io ∧ ioPort 0x40000002#32 = some .status) ∧
    (eaDirectOs { State.reset with ds := 0x40000000#32 } 2#22 = 0x40000002#32) ∧
    (readReg { State.reset with in1 := 0x40000000#32 } .in1 + (0#22).signExtend 32 = 0x40000000#32) ∧
    (eaDirectOs { State.reset with ds := 0x3FFFFFFF#32 } 0x3FFFFF#22).toNat < 2 ^ 30 ∧
    (readReg State.reset .in1 + (0#22).signExtend 32).toNat < 2 ^ 30 ∧
    (2 ^ 30 + 3 ≤ (eaDirectOs { State.reset with ds := 0x40000000#32 } 3#22).toNat ∧
      (eaDirectOs { State.reset with ds := 0x40000000#32 } 3#22).toNat < 2 ^ 31) ∧
    (2 ^ 30 + 3 ≤ (readReg { State.reset with in1 := 0x7FFFFFFF#32 } .in1 + (0#22).signExtend 32).toNat ∧
      (readReg { State.reset with in1 := 0x7FFFFFFF#32 } .in1 + (0#22).signExtend 32).toNat < 2 ^ 31) := by
  decide

theorem witness_MoveCopies : slice 0xBD123456#32 28 4 = 0b1011#4 := by decide

theorem witness_JumpCondition :
    slice 0xC8000005#32 30 2 = 0b11#2 ∧ slice 0xF9C00005#32 30 2 = 0b11#2 ∧ slice 0xF9C00005#32 25 2 = 0b00#2 := by
  decide

theorem witness_NopAdvances :
    (0xC7FFFFFF#32 &&& 0xF8000000#32 = 0xC0000000#32) ∧ (0xC1FFFFFF#32 &&& 0xFE000000#32 = 0xC0000000#32) := by
  decide

theorem witness_IntTakesTrap :
    (Config.default .os).ivt.lookup 0 = none ∧ ({ Config.default .os with ivt := [(3, 12#32)] } : Config).ivt.lookup 3 = some 12#32 := by
  decide

theorem witness_RtiReturns :
    ({ State.reset with returnStack := [⟨3#32, false⟩] } : State).returnStack = ⟨3#32, false⟩ :: [] ∧ State.reset.returnStack = [] := by
  decide

theorem witness_RtiUndoesInt :
    ({ osIsr with returnStack := [⟨1#32, false⟩], acc := 5#32 } : State).returnStack = (trapEnter 0 State.reset).returnStack := by
  decide

theorem witness_TiMemory :
    Memory.wf (tiAt 0 0#32).mem = true ∧ (1#32 ≠ 0#32) ∧ (Config.default .ti).variant = .ti ∧
    construct { Config.default .ti with initData := [5#32] } = some (State.resetWith { Config.default .ti with initData := [5#32] }) ∧
    ([5#32] : List Word).length ≤ (1#32).toNat := by
  decide

/-- Both ends of the loaded program, the ROM address just above it and one just below its base, both ends of the unmapped
part of the window, and the first RAM cell. -/
theorem witness_OsMemoryRead :
    ((0#32).toNat < 2 ^ 30 ∧ osIsr.config.codeBase.toNat ≤ (0#32).toNat ∧
      (15#32).toNat < osIsr.config.codeBase.toNat + (programWords osIsr.config).length) ∧
    ((16#32).toNat < 2 ^ 30 ∧ osIsr.config.codeBase.toNat + (programWords osIsr.config).length ≤ (16#32).toNat) ∧
    (7#32).toNat < ({ Config.default .os with codeBase := 8#32 } : Config).codeBase.toNat ∧
    (2 ^ 30 + 3 ≤ (0x40000003#32).toNat ∧ (0x7FFFFFFF#32).toNat < 2 ^ 31) ∧ 2 ^ 31 ≤ (0x80000000#32).toNat := by
  decide

theorem witness_OsMemoryWrite :
    (0x3FFFFFFF#32).toNat < 2 ^ 30 ∧ (2 ^ 30 + 3 ≤ (0x40000003#32).toNat ∧ (0x7FFFFFFF#32).toNat < 2 ^ 31) ∧
    2 ^ 31 ≤ (0x80000000#32).toNat ∧ Memory.wf State.reset.mem = true ∧ (0x80000001 : Nat) ≠ (0x80000000#32).toNat := by
  decide

/-- A direct store and an indexed load of one cell: IN1 holds the address of the direct form. -/
theorem witness_TiStoreThenLoad :
    Memory.wf (tiAt 0 0#32).mem = true ∧
    eaDirectTi 0xFFFFFF#24 = ({ tiAt 0 0#32 with in1 := 0x01000000#32 } : State).in1 + (0xFFFFFF#24).signExtend 32 := by
  decide

theorem witness_OsStoreThenLoad :
    Memory.wf State.reset.mem = true ∧ 2 ^ 31 ≤ (eaDirectOs State.reset 5#22).toNat ∧
    eaDirectOs (nextPc State.reset) 5#22 = eaDirectOs State.reset 5#22 ∧
    readReg (nextPc State.reset) .ds + (5#22).signExtend 32 = eaDirectOs State.reset 5#22 := by
  decide

theorem witness_StepRunsDecoded :
    (∀ c, (osAt 5 0xC0000000#32).status ≠ .faulted c) ∧ validPC (osAt 5 0xC0000000#32) = true ∧
    fetch (osAt 5 0xC0000000#32) = .ok (0xC0000000#32, osAt 5 0xC0000000#32) ∧ decode .os 0xC0000000#32 = .ok .osNop :=
  ⟨running_not_faulted _ (by decide), by decide, by decide, by decide⟩

theorem witness_Termination : (∀ c, State.reset.status ≠ .faulted c) ∧ validPC State.reset = false :=
  ⟨running_not_faulted _ rfl, by decide⟩

theorem witness_ReservedWordFaults :
    (∀ c, (tiAt 0 0#32).status ≠ .faulted c) ∧ validPC (tiAt 0 0#32) = true ∧
    fetch (tiAt 0 0#32) = .ok (0#32, tiAt 0 0#32) ∧ decode .ti 0#32 = .error .tiComputeF000 :=
  ⟨running_not_faulted _ (by decide), by decide, by decide, by decide⟩

/-- The last two clauses: `DIV ACC 1` of a port that supplies zero, and an RTI with nothing to pop. -/
theorem witness_FaultAbsorbing :
    ({ State.reset with status := .faulted .divideByZero } : State).status = .faulted .divideByZero ∧
    step (osAt 0 0xC4000000#32) = .fault .returnStackEmpty ∧
    (writeMem (afterStep (osAt 0 0xC4000000#32)) 0x80000000 1#32).isSome = true ∧
    ((∀ c, divAtPort.status ≠ .faulted c) ∧ validPC divAtPort = true ∧ fetch divAtPort = .ok (0x02C00001#32, divAtPort) ∧
      decode divAtPort.config.variant 0x02C00001#32 = .ok (.osDiv .acc 1#22) ∧
      osMemRead divAtPort (eaDirectOs divAtPort 1#22) =
        .ok (0#32, { divAtPort with uartInput := [], ioHistory := [.read .receive 0#32] })) ∧
    configValid (osAt 0 0xC4000000#32).config = true ∧ (osAt 0 0xC4000000#32).config.widenedPC = [] :=
  ⟨rfl, rfl, by decide, ⟨running_not_faulted _ (by decide), by decide, rfl, by decide, rfl⟩, by decide, by decide⟩

theorem witness_FetchRegister :
    step (osAt 0 0xC0000000#32) = .next (afterStep (osAt 0 0xC0000000#32)) ∧ (osAt 0 0xC0000000#32).config.variant = .os ∧
    step State.reset = .next (afterStep State.reset) ∧
    step (tiAt 0 0xC0000000#32) = .next (afterStep (tiAt 0 0xC0000000#32)) ∧ (tiAt 0 0xC0000000#32).config.variant = .ti :=
  ⟨rfl, by decide, rfl, rfl, by decide⟩

theorem witness_ParametersFixed :
    construct (Config.default .os) = some State.reset ∧ (writeMem State.reset 0x80000000 1#32).isSome = true := by
  decide

theorem witness_TiFaultsIllegalOnly :
    (tiAt 0 0#32).config.variant = .ti ∧ (∀ e, (tiAt 0 0#32).status ≠ .faulted e) ∧ step (tiAt 0 0#32) = .fault .illegalInstruction :=
  ⟨by decide, running_not_faulted _ (by decide), rfl⟩

theorem witness_FetchReadsProgram :
    (configValid osIsr.config = true ∧ osIsr.config.widenedPC = [] ∧ validPC { osIsr with pc := 15#32 } = true ∧
      osIsr.config.variant = .os) ∧
    (configValid (tiAt 3 7#32).config = true ∧ (tiAt 3 7#32).config.widenedPC = [] ∧ validPC (tiAt 3 7#32) = true ∧
      (tiAt 3 7#32).config.variant = .ti) := by
  decide

theorem witness_InvariantStep :
    Inv (osAt 0 0xC2000000#32) ∧ step (osAt 0 0xC2000000#32) = .next (afterStep (osAt 0 0xC2000000#32)) :=
  ⟨by unfold Inv; decide, rfl⟩

theorem witness_InvariantHost :
    construct (Config.default .ti) = some (State.resetWith (Config.default .ti)) ∧ Inv osIsr ∧
    writeMem osIsr 0xFFFFFFFF 1#32 = some { osIsr with mem := [(0xFFFFFFFF, 1#32)] } :=
  ⟨by decide, by unfold Inv; decide, by decide⟩

theorem witness_OneEventPerStep :
    configValid osIsr.config = true ∧ osIsr.config.widenedPC = [] ∧ step osIsr = .next (afterStep osIsr) :=
  ⟨by decide, by decide, rfl⟩

theorem witness_FlagGatesNothing : (∀ k, Instr.osNop ≠ .osInt k) ∧ Instr.osNop ≠ .osRti :=
  ⟨(fun k h => by cases h), by decide⟩

theorem witness_TiIgnoresEnvironment : (tiAt 0 0xC0000000#32).config.variant = .ti := by decide

/-- Program counters in ROM, at the first RAM cell, and in a TI core. -/
theorem witness_FetchWordPlaced :
    (Memory.wf State.reset.mem = true ∧ device State.reset.pc ≠ .io) ∧
    device ({ State.reset with pc := 0x80000000#32 } : State).pc ≠ .io ∧ Memory.wf (tiAt 0 0#32).mem = true := by
  decide

theorem witness_RegisterAccessors :
    indexInDomain State.reset.config.variant 8 = true ∧ indexInDomain (tiAt 0 0#32).config.variant 3 = true ∧
    indexInDomain State.reset.config.variant 9 = false ∧ indexInDomain (tiAt 0 0#32).config.variant 4 = false ∧
    indexInDomain State.reset.config.variant 0 = true ∧ indexInDomain State.reset.config.variant 7 = true ∧
    osIsr.config.variant = .os ∧ (∀ c, osIsr.status ≠ .faulted c) ∧ validPC osIsr = true :=
  ⟨by decide, by decide, by decide, by decide, by decide, by decide, by decide, running_not_faulted _ (by decide), by decide⟩

/-- The boundaries of ROM, the window, RAM and the address space. -/
theorem witness_MemoryAccessors :
    Memory.wf osIsr.mem = true ∧ osIsr.config.variant = .os ∧ (0x3FFFFFFF < 2 ^ 30) ∧ (2 ^ 30 ≤ 0x40000000) ∧
    (0x7FFFFFFF < 2 ^ 31) ∧ (2 ^ 31 ≤ 0x80000000) ∧ (0xFFFFFFFF < 2 ^ 32) ∧ (tiAt 0 0#32).config.variant = .ti := by
  decide

theorem witness_CallTargetIsNextPc : callTarget (osAt 0 0x06000000#32) = some 0#32 := by decide

theorem witness_ConstructRefuses : (Config.default .ti).variant = .ti ∧ (Config.default .os).variant = .os := by decide

theorem witness_ConstructState :
    (construct { Config.default .os with codeBase := 8#32, initData := [1#32, 2#32] }).isSome = true ∧
    (construct { Config.default .ti with initData := [1#32, 2#32] }).isSome = true := by
  decide

end Sys2Proof.Machine.Tests
end

section
/-! PROOFS. The family `00_scope.md`: the parameters of a core are those it was built with, whatever the core runs and
whatever the host writes. -/

namespace Sys2Proof.Machine

@[simp] theorem resetWith_config (c : Config) : (State.resetWith c).config = c := by
  unfold State.resetWith
  split <;> rfl

/-- A core starts with the parameters it is given (`00_scope.md` R2, `45_step_and_interface.md` R286). -/
theorem construct_config {c : Config} {s : State} (h : construct c = some s) : s.config = c := by
  obtain ⟨-, rfl⟩ : configValid c = true ∧ State.resetWith c = s := by simpa [construct] using h
  exact resetWith_config c

theorem fetch_config {s s1 : State} {w : Word} (h : fetch s = .ok (w, s1)) : s1.config = s.config := by
  rw [fetch_frame h]

/-- A step that has a next state terminated there or ran one instruction, after a fetch and before the commit; none of
the three touches the parameters. -/
theorem step_config {s t : State} (h : step s = .next t) : t.config = s.config := by
  rcases step_cases s with ⟨c, -, hs⟩ | ⟨-, -, hs⟩ |
    ⟨-, -, ⟨e, -, hs⟩ | ⟨w, s1, hf, ⟨r, -, hs⟩ | ⟨i, -, ⟨u, hx, hs⟩ | ⟨e, -, hs⟩⟩⟩⟩ <;>
    cases hs.symm.trans h
  · rfl
  · calc (commit w u).config = u.config := commit_config w u
      _ = s1.config := (exec_frame hx).left
      _ = s.config := fetch_config hf

@[simp] theorem afterStep_config (s : State) : (afterStep s).config = s.config := by
  rcases afterStep_cases s with ⟨t, ht, h⟩ | ⟨c, -, h⟩ <;> rw [h]
  · exact step_config ht
  · exact faulted_config c s (afterReads s)

theorem afterSteps_config (s : State) (n : Nat) : (afterSteps n s).config = s.config := by
  induction n generalizing s with
  | zero => rfl
  | succ n ih => exact (ih (afterStep s)).trans (afterStep_config s)

theorem setRegister_config (s : State) (k : Nat) (z : Int) : (setRegister s k z).config = s.config := by
  rcases setRegister_cases s k z with ⟨r, -, -, h⟩ | ⟨-, -, h⟩ | ⟨-, h⟩ <;> rw [h]
  exact writeReg_config s r (wrap z)

theorem writeMem_config {s t : State} {a : Nat} {w : Word} (h : writeMem s a w = some t) : t.config = s.config := by
  obtain ⟨-, rfl, -⟩ := writeMem_cases h
  rfl

/-- Settles O45: construction sets the parameters, and every step (by induction on their number) and every host write
leaves them. -/
theorem parametersFixed : Obligations.ParametersFixed :=
  ⟨fun _ _ => construct_config, afterSteps_config, setRegister_config, fun _ _ _ _ => writeMem_config⟩

end Sys2Proof.Machine
end

section
/-! PROOFS. The family `30_encoding.md`: what a word decodes to, and what the marker of a reserved word assembles to. -/

namespace Sys2Proof.Machine

theorem decodeResult_of_ok {v : Variant} {w : Word} {i : Instr} (h : decode v w = .ok i) :
    decodeResult v w = (instrText i, some i) := by
  simp only [decodeResult, decodeText, h]

theorem decodeResult_of_error {v : Variant} {w : Word} {e : Reserved} (h : decode v w = .error e) :
    decodeResult v w = (invalidMarker, none) := by
  simp only [decodeResult, decodeText, h]

/-- A mnemonic that is not in the variant's table fails before any operand is read (`30_encoding.md` R118 step 3). -/
theorem encodeWith_of_lookup_none {n : Nat} {v : Variant} {forms : List (Text × TextForm n)} {m : Text}
    (h : forms.lookup m = none) (operands : List Text) :
    (encodeWith v forms (m :: operands)).status = .errUnknownMnemonic := by
  simp only [encodeWith, h]

/-- The marker is two tokens, so `encode` reads its first word as a mnemonic. -/
theorem splitTokens_invalidMarker :
    splitTokens invalidMarker = ["invalid".toList, "instruction".toList] := by
  decide

theorem tiForms_lookup_invalid : tiForms.lookup (upper "invalid".toList) = none := by
  decide

theorem osForms_lookup_invalid : osForms.lookup (upper "invalid".toList) = none := by
  decide

/-- The marker does not assemble: its first word, in upper case, is in neither mnemonic table. -/
theorem encodeTokens_invalidMarker (v : Variant) :
    (encodeTokens v (splitTokens invalidMarker)).status = .errUnknownMnemonic := by
  rw [splitTokens_invalidMarker]
  cases v with
  | ti =>
    rw [encodeTokens, List.map_cons]
    exact encodeWith_of_lookup_none tiForms_lookup_invalid _
  | os =>
    rw [encodeTokens, List.map_cons]
    exact encodeWith_of_lookup_none osForms_lookup_invalid _

/-- Settles O11, by the two answers of `decode`. -/
theorem decodeNeverFails : Obligations.DecodeNeverFails := by
  refine ⟨fun v w => ?_, encodeTokens_invalidMarker⟩
  cases h : decode v w with
  | ok i => exact .inl ⟨i, rfl, decodeResult_of_ok h⟩
  | error e => exact .inr ⟨⟨e, rfl⟩, decodeResult_of_error h⟩

end Sys2Proof.Machine
end

section
/-! PROOFS. The family `42_store_move.md`: the stores of the TI variant and MOVE, from the word to the effect. -/

namespace Sys2Proof.Machine

/-! ## The words of the store class -/

theorem extractLsb'_slice (w : Word) (lo len k n : Nat) (h : k + n ≤ len) :
    (slice w lo len).extractLsb' k n = slice w (lo + k) n := by
  apply BitVec.eq_of_getLsbD_eq
  intro b hb
  have hlen : k + b < len := by omega
  rw [BitVec.getLsbD_extractLsb', getLsbD_slice, getLsbD_slice]
  simp [hb, hlen, Nat.add_assoc]

/-- The top four bits of a word are its class, `w[31:30]`, and the mode below it, `w[29:28]`. -/
theorem class_and_mode_of_top {w : Word} {c : BitVec 4} (h : slice w 28 4 = c) :
    slice w 30 2 = c.extractLsb' 2 2 ∧ slice w 28 2 = c.extractLsb' 0 2 := by
  subst h
  exact ⟨(extractLsb'_slice w 28 4 2 2 (by decide)).symm, (extractLsb'_slice w 28 4 0 2 (by decide)).symm⟩

theorem decode_ti_of_top_1000 {w : Word} (h : slice w 28 4 = 0b1000#4) :
    decode .ti w = .ok (.tiStore (slice w 0 24)) := by
  simp [decode, decodeTi, class_and_mode_of_top h]

theorem decode_ti_of_top_1001 {w : Word} (h : slice w 28 4 = 0b1001#4) :
    decode .ti w = .ok (.tiStorein1 (slice w 0 24)) := by
  simp [decode, decodeTi, class_and_mode_of_top h]

theorem decode_ti_of_top_1010 {w : Word} (h : slice w 28 4 = 0b1010#4) :
    decode .ti w = .ok (.tiStorein2 (slice w 0 24)) := by
  simp [decode, decodeTi, class_and_mode_of_top h]

/-- In the OS variant the third mode of the class is reserved (`30_encoding.md` R104). -/
theorem decode_os_of_top_1010 {w : Word} (h : slice w 28 4 = 0b1010#4) :
    decode .os w = .error .osStoreMode10 := by
  simp [decode, decodeOs, class_and_mode_of_top h]

theorem decode_ti_of_top_1011 {w : Word} (h : slice w 28 4 = 0b1011#4) :
    decode .ti w = .ok (.tiMove (Reg.ofCode2 (slice w 26 2)) (Reg.ofCode2 (slice w 24 2))) := by
  simp [decode, decodeTi, class_and_mode_of_top h]

theorem decode_os_of_top_1011 {w : Word} (h : slice w 28 4 = 0b1011#4) :
    decode .os w = .ok (.osMove (Reg.ofCode3 (slice w 25 3)) (Reg.ofCode3 (slice w 22 3))) := by
  simp [decode, decodeOs, class_and_mode_of_top h]

/-- An operand field at bit 0 is placed as it stands, zero-extended. -/
theorem packTiI_eq (base : Word) (i : BitVec 24) : packTiI base i = base ||| i.setWidth 32 := by
  rw [packTiI, field, BitVec.shiftLeft_zero]

/-! ## The effects -/

theorem nextPc_tiMemWrite_writesCell {s : State} (hwf : Memory.wf s.mem = true) (a v : Word) :
    WritesCell a.toNat v s (nextPc (tiMemWrite s a v)) := by
  refine ⟨memory_read_write_same s.mem hwf a.toNat v, fun b hb => memory_read_write_other s.mem a.toNat b v hb,
    rfl, ⟨fun r hr _ => ?_, rfl, rfl, rfl, rfl, rfl⟩, rfl, rfl, rfl⟩
  rw [readReg_nextPc _ r hr, readReg_tiMemWrite]

/-- An instruction that means `storeTi` at an address completes, whatever the address: a TI write never faults
(`20_memory.md` R57). -/
theorem completes_of_exec_eq_storeTi {i : Instr} {s : State} {a : Word} (hwf : Memory.wf s.mem = true)
    (hexec : exec i s = storeTi a s) : Completes i s (WritesCell a.toNat s.acc s) :=
  ⟨_, hexec, nextPc_tiMemWrite_writesCell hwf a s.acc⟩

theorem tiStore_completes {s : State} (hwf : Memory.wf s.mem = true) (i : BitVec 24) :
    Completes (.tiStore i) s (WritesCell i.toNat s.acc s) := by
  rw [← eaDirectTi_toNat i]
  exact completes_of_exec_eq_storeTi hwf rfl

theorem tiStorein1_completes {s : State} (hwf : Memory.wf s.mem = true) (i : BitVec 24) :
    Completes (.tiStorein1 i) s (WritesCell (s.in1 + i.signExtend 32).toNat s.acc s) := by
  rw [← eaIndexed_eq s.in1 i]
  exact completes_of_exec_eq_storeTi hwf rfl

theorem tiStorein2_completes {s : State} (hwf : Memory.wf s.mem = true) (i : BitVec 24) :
    Completes (.tiStorein2 i) s (WritesCell (s.in2 + i.signExtend 32).toNat s.acc s) := by
  rw [← eaIndexed_eq s.in2 i]
  exact completes_of_exec_eq_storeTi hwf rfl

/-- An instruction that means `moveReg` completes by one write-back, which is all it does. -/
theorem completes_of_exec_eq_moveReg {i : Instr} {s : State} {r d : Reg} (hexec : exec i s = moveReg r d s) :
    Completes i s (WritesReg d (readReg s r) s) :=
  ⟨_, hexec, writeBack_writesReg d (readReg s r) s⟩

/-! ## The obligations -/

/-- Settles O24: the words by class and mode, the encodings, and the effect through the one TI memory write. -/
theorem tiStores : Obligations.TiStores :=
  ⟨fun _ => ⟨decode_ti_of_top_1000, decode_ti_of_top_1001, fun h => ⟨decode_ti_of_top_1010 h, decode_os_of_top_1010 h⟩⟩,
    fun i => ⟨packTiI_eq _ i, packTiI_eq _ i, packTiI_eq _ i⟩,
    fun _ i hwf => ⟨tiStore_completes hwf i, tiStorein1_completes hwf i, tiStorein2_completes hwf i⟩⟩

/-- Settles O27: the words by class and mode in each variant, and the effect of both through `moveReg`. -/
theorem moveCopies : Obligations.MoveCopies :=
  ⟨fun _ h => ⟨decode_ti_of_top_1011 h, decode_os_of_top_1011 h⟩,
    fun _ _ _ => ⟨completes_of_exec_eq_moveReg rfl, completes_of_exec_eq_moveReg rfl⟩⟩

end Sys2Proof.Machine
end

section
/-! PROOFS. The family `43_jump.md`: the words of the JUMP class, the sign test of ACC, and the effect of the JUMPs and
NOP of both variants. -/

namespace Sys2Proof.Machine

/-! ## The words of the JUMP class -/

/-- The TI instruction of the JUMP class with condition mask `c` (`30_encoding.md` R102). -/
def tiJumpOfMask (c : BitVec 3) (i : BitVec 24) : Instr :=
  match c with
  | 0b000#3 => .tiNop
  | 0b001#3 => .tiJumpGt i
  | 0b010#3 => .tiJumpEq i
  | 0b011#3 => .tiJumpGe i
  | 0b100#3 => .tiJumpLt i
  | 0b101#3 => .tiJumpNe i
  | 0b110#3 => .tiJumpLe i
  | _ => .tiJump i

/-- The OS instruction of the JUMP class with `J = 00` and condition mask `c` (`30_encoding.md` R102). -/
def osJumpOfMask (c : BitVec 3) (i : BitVec 22) : Instr :=
  match c with
  | 0b000#3 => .osNop
  | 0b001#3 => .osJumpGt i
  | 0b010#3 => .osJumpEq i
  | 0b011#3 => .osJumpGe i
  | 0b100#3 => .osJumpLt i
  | 0b101#3 => .osJumpNe i
  | 0b110#3 => .osJumpLe i
  | _ => .osJump i

theorem mask_cases (c : BitVec 3) :
    c = 0b000#3 ∨ c = 0b001#3 ∨ c = 0b010#3 ∨ c = 0b011#3 ∨
    c = 0b100#3 ∨ c = 0b101#3 ∨ c = 0b110#3 ∨ c = 0b111#3 := by
  revert c; decide

theorem decode_ti_of_jump_class {w : Word} (h : slice w 30 2 = 0b11#2) :
    decode .ti w = .ok (tiJumpOfMask (slice w 27 3) (slice w 0 24)) := by
  simp only [decode, decodeTi, h]
  generalize slice w 27 3 = c
  obtain rfl | rfl | rfl | rfl | rfl | rfl | rfl | rfl := mask_cases c <;> rfl

/-- In the OS variant the `J` field is examined before the mask (`30_encoding.md` R108). -/
theorem decode_os_of_jump_class {w : Word} (h : slice w 30 2 = 0b11#2) (hj : slice w 25 2 = 0b00#2) :
    decode .os w = .ok (osJumpOfMask (slice w 27 3) (slice w 0 22)) := by
  simp only [decode, decodeOs, h, hj]
  generalize slice w 27 3 = c
  obtain rfl | rfl | rfl | rfl | rfl | rfl | rfl | rfl := mask_cases c <;> rfl

/-- A slice that lies under the ones of a mask is read off the masked word. -/
theorem slice_of_and_eq {w m x : Word} (h : w &&& m = x) (lo n : Nat) (hm : slice m lo n = BitVec.allOnes n) :
    slice w lo n = slice x lo n := by
  rw [← h, slice_and, hm, BitVec.and_allOnes]

/-- An operand field at bit 0 is placed as it stands, zero-extended. -/
theorem packOsI_eq (base : Word) (i : BitVec 22) : packOsI base i = base ||| i.setWidth 32 := by
  rw [packOsI, field, BitVec.shiftLeft_zero]

/-! ## The condition -/

theorem eq_zero_iff_toInt (acc : Word) : acc = 0#32 ↔ acc.toInt = 0 :=
  BitVec.toInt_inj.symm

/-- Exactly one bit of the mask counts, the one that matches the sign of ACC (`43_jump.md` R240). -/
theorem condHolds_iff (c : BitVec 3) (acc : Word) :
    condHolds c acc = true ↔
      (c.getLsbD 2 = true ∧ acc.toInt < 0) ∨ (c.getLsbD 1 = true ∧ acc = 0#32) ∨
        (c.getLsbD 0 = true ∧ 0 < acc.toInt) := by
  simp only [condHolds, eq_zero_iff_toInt]
  obtain hneg | hzero | hpos := lt_trichotomy acc.toInt 0
  · simp [hneg, hneg.ne, hneg.le]
  · simp [hzero]
  · simp [hpos, hpos.ne', hpos.not_gt]

/-- The mask of a word stands in its bits 29..27. -/
theorem condHolds_slice_iff (w acc : Word) :
    condHolds (slice w 27 3) acc = true ↔
      (w.getLsbD 29 = true ∧ acc.toInt < 0) ∨ (w.getLsbD 28 = true ∧ acc = 0#32) ∨
        (w.getLsbD 27 = true ∧ 0 < acc.toInt) := by
  rw [condHolds_iff, getLsbD_slice, getLsbD_slice, getLsbD_slice]
  simp

/-! Each mask names the signs of its bits (`43_jump.md` R242 to R249). -/

theorem condHolds_never (acc : Word) : condHolds 0b000#3 acc = false := by
  simp [condHolds]

theorem condHolds_gt_iff (acc : Word) : condHolds 0b001#3 acc = true ↔ 0 < acc.toInt := by
  simp [condHolds_iff]

theorem condHolds_eq_iff (acc : Word) : condHolds 0b010#3 acc = true ↔ acc = 0#32 := by
  simp [condHolds_iff]

theorem condHolds_ge_iff (acc : Word) : condHolds 0b011#3 acc = true ↔ 0 ≤ acc.toInt := by
  simp [condHolds_iff, eq_zero_iff_toInt, le_iff_eq_or_lt, @eq_comm Int 0]

theorem condHolds_lt_iff (acc : Word) : condHolds 0b100#3 acc = true ↔ acc.toInt < 0 := by
  simp [condHolds_iff]

theorem condHolds_ne_iff (acc : Word) : condHolds 0b101#3 acc = true ↔ acc ≠ 0#32 := by
  simp [condHolds_iff, eq_zero_iff_toInt]

theorem condHolds_le_iff (acc : Word) : condHolds 0b110#3 acc = true ↔ acc.toInt ≤ 0 := by
  simp [condHolds_iff, eq_zero_iff_toInt, le_iff_lt_or_eq]

theorem condHolds_always (acc : Word) : condHolds 0b111#3 acc = true := by
  simp [condHolds]

/-! ## The effects -/

/-- Mask 000 never jumps: a JUMP with it is NOP (`43_jump.md` R242). -/
theorem jump_never {n : Nat} (i : BitVec n) (s : State) : jump 0b000#3 i s = .next (nextPc s) := by
  simp [jump, condHolds_never]

theorem exec_tiJumpOfMask (c : BitVec 3) (i : BitVec 24) (s : State) : exec (tiJumpOfMask c i) s = jump c i s := by
  obtain rfl | rfl | rfl | rfl | rfl | rfl | rfl | rfl := mask_cases c
  · exact (jump_never i s).symm
  all_goals rfl

theorem exec_osJumpOfMask (c : BitVec 3) (i : BitVec 22) (s : State) : exec (osJumpOfMask c i) s = jump c i s := by
  obtain rfl | rfl | rfl | rfl | rfl | rfl | rfl | rfl := mask_cases c
  · exact (jump_never i s).symm
  all_goals rfl

/-- An instruction that means `jump` completes and moves the program counter only; where it goes is told by any `P` that
says when the mask holds of ACC. -/
theorem completes_of_exec_eq_jump {i : Instr} {s : State} {n : Nat} {c : BitVec 3} {k : BitVec n} {P : Prop}
    [Decidable P] (hexec : exec i s = jump c k s) (hcond : condHolds c s.acc = true ↔ P) :
    Completes i s (MovesPc (if P then s.pc + k.signExtend 32 else s.pc + 1#32) s) := by
  refine ⟨_, hexec.trans (jump_eq c k s), ?_⟩
  simp only [hcond]
  exact movesPc_of_eq s _

/-- Mask 111 always jumps (`43_jump.md` R249). -/
theorem completes_of_exec_eq_jump_always {i : Instr} {s : State} {n : Nat} {k : BitVec n}
    (hexec : exec i s = jump 0b111#3 k s) : Completes i s (MovesPc (s.pc + k.signExtend 32) s) := by
  simpa using completes_of_exec_eq_jump (P := True) hexec (iff_true_intro (condHolds_always s.acc))

/-! ## The obligations -/

/-- Settles O28: the encodings by the operand field at bit 0, and the effect of each JUMP through the
condition of its mask. -/
theorem jumps : Obligations.Jumps := by
  refine ⟨fun i => ?_, fun i => ?_, fun s i => ?_, fun s i => ?_⟩
  · exact ⟨packTiI_eq _ i, packTiI_eq _ i, packTiI_eq _ i, packTiI_eq _ i,
      packTiI_eq _ i, packTiI_eq _ i, packTiI_eq _ i⟩
  · exact ⟨packOsI_eq _ i, packOsI_eq _ i, packOsI_eq _ i, packOsI_eq _ i,
      packOsI_eq _ i, packOsI_eq _ i, packOsI_eq _ i⟩
  all_goals
    exact ⟨completes_of_exec_eq_jump rfl (condHolds_gt_iff s.acc),
      completes_of_exec_eq_jump rfl (condHolds_eq_iff s.acc),
      completes_of_exec_eq_jump rfl (condHolds_ge_iff s.acc),
      completes_of_exec_eq_jump rfl (condHolds_lt_iff s.acc),
      completes_of_exec_eq_jump rfl (condHolds_ne_iff s.acc),
      completes_of_exec_eq_jump rfl (condHolds_le_iff s.acc),
      completes_of_exec_eq_jump_always rfl⟩

/-- Settles O29: in each variant the word names the instruction of its mask, which means `jump` with that mask. -/
theorem jumpCondition : Obligations.JumpCondition := by
  intro v w s hclass hj
  cases v with
  | ti =>
    exact ⟨_, decode_ti_of_jump_class hclass,
      completes_of_exec_eq_jump (exec_tiJumpOfMask _ _ s) (condHolds_slice_iff w s.acc)⟩
  | os =>
    exact ⟨_, decode_os_of_jump_class hclass (hj rfl),
      completes_of_exec_eq_jump (exec_osJumpOfMask _ _ s) (condHolds_slice_iff w s.acc)⟩

/-- Settles O30: the masked word fixes the class, the mask 000 and, in OS, `J = 00`; the effect is `nextPc`. -/
theorem nopAdvances : Obligations.NopAdvances := by
  refine ⟨fun w h => ?_, fun w h => ?_, rfl, rfl,
    fun s => ⟨⟨_, rfl, nextPc_movesPc s⟩, ⟨_, rfl, nextPc_movesPc s⟩⟩⟩
  · have hclass : slice w 30 2 = 0b11#2 := slice_of_and_eq h 30 2 (by decide)
    have hmask : slice w 27 3 = 0b000#3 := slice_of_and_eq h 27 3 (by decide)
    rw [decode_ti_of_jump_class hclass, hmask]
    rfl
  · have hclass : slice w 30 2 = 0b11#2 := slice_of_and_eq h 30 2 (by decide)
    have hmask : slice w 27 3 = 0b000#3 := slice_of_and_eq h 27 3 (by decide)
    have hj : slice w 25 2 = 0b00#2 := slice_of_and_eq h 25 2 (by decide)
    rw [decode_os_of_jump_class hclass hj, hmask]
    rfl

end Sys2Proof.Machine
end

section
/-! PROOFS. The words of the opcode table and of the table of reserved encodings (`30_encoding.md` R92 to R108): a word
stands on the row of what it decodes to, its row and its operand fields determine what it decodes to, and the encoder puts
them together again. -/

namespace Sys2Proof

/-! ## Rows and operand fields -/

/-- The word has the fixed bits of a row (mask, match). -/
def OnRow (w : Word) (row : Word × Word) : Prop :=
  w &&& row.1 = row.2

/-- A field among the fixed bits of a row is the row's. -/
theorem OnRow.slice {w m x : Word} (h : OnRow w (m, x)) (lo n : Nat) (hm : slice m lo n = BitVec.allOnes n) :
    slice w lo n = slice x lo n :=
  Machine.slice_of_and_eq h lo n hm

/-- The row of the table of reserved encodings (`30_encoding.md` R104): (mask, match). -/
def Reserved.row : Reserved → Word × Word
  | .tiComputeF000 => (0xDC000000#32, 0x00000000#32)
  | .tiComputeF001 => (0xDC000000#32, 0x04000000#32)
  | .tiComputeF111 => (0xDC000000#32, 0x1C000000#32)
  | .osComputeKind11 => (0xF0000000#32, 0x30000000#32)
  | .osLoadMode10 => (0xF0000000#32, 0x60000000#32)
  | .osStoreMode10 => (0xF0000000#32, 0xA0000000#32)
  | .osJumpJ11 => (0xC6000000#32, 0xC6000000#32)

/-- The variant a reserved encoding belongs to. -/
def Reserved.variant : Reserved → Variant
  | .tiComputeF000 => .ti
  | .tiComputeF001 => .ti
  | .tiComputeF111 => .ti
  | .osComputeKind11 => .os
  | .osLoadMode10 => .os
  | .osStoreMode10 => .os
  | .osJumpJ11 => .os

/-- The instruction of the same row whose operands are the fields of `w` (formats of `30_encoding.md` R92, R93). -/
def Instr.operandsFrom (w : Word) : Instr → Instr
  | .tiSubi _ _ => .tiSubi (Reg.ofCode2 (slice w 24 2)) (slice w 0 24)
  | .tiAddi _ _ => .tiAddi (Reg.ofCode2 (slice w 24 2)) (slice w 0 24)
  | .tiXnori _ _ => .tiXnori (Reg.ofCode2 (slice w 24 2)) (slice w 0 24)
  | .tiOri _ _ => .tiOri (Reg.ofCode2 (slice w 24 2)) (slice w 0 24)
  | .tiAndi _ _ => .tiAndi (Reg.ofCode2 (slice w 24 2)) (slice w 0 24)
  | .tiSub _ _ => .tiSub (Reg.ofCode2 (slice w 24 2)) (slice w 0 24)
  | .tiAdd _ _ => .tiAdd (Reg.ofCode2 (slice w 24 2)) (slice w 0 24)
  | .tiXnor _ _ => .tiXnor (Reg.ofCode2 (slice w 24 2)) (slice w 0 24)
  | .tiOr _ _ => .tiOr (Reg.ofCode2 (slice w 24 2)) (slice w 0 24)
  | .tiAnd _ _ => .tiAnd (Reg.ofCode2 (slice w 24 2)) (slice w 0 24)
  | .tiLoad _ _ => .tiLoad (Reg.ofCode2 (slice w 24 2)) (slice w 0 24)
  | .tiLoadin1 _ _ => .tiLoadin1 (Reg.ofCode2 (slice w 24 2)) (slice w 0 24)
  | .tiLoadin2 _ _ => .tiLoadin2 (Reg.ofCode2 (slice w 24 2)) (slice w 0 24)
  | .tiLoadi _ _ => .tiLoadi (Reg.ofCode2 (slice w 24 2)) (slice w 0 24)
  | .tiStore _ => .tiStore (slice w 0 24)
  | .tiStorein1 _ => .tiStorein1 (slice w 0 24)
  | .tiStorein2 _ => .tiStorein2 (slice w 0 24)
  | .tiMove _ _ => .tiMove (Reg.ofCode2 (slice w 26 2)) (Reg.ofCode2 (slice w 24 2))
  | .tiNop => .tiNop
  | .tiJumpGt _ => .tiJumpGt (slice w 0 24)
  | .tiJumpEq _ => .tiJumpEq (slice w 0 24)
  | .tiJumpGe _ => .tiJumpGe (slice w 0 24)
  | .tiJumpLt _ => .tiJumpLt (slice w 0 24)
  | .tiJumpNe _ => .tiJumpNe (slice w 0 24)
  | .tiJumpLe _ => .tiJumpLe (slice w 0 24)
  | .tiJump _ => .tiJump (slice w 0 24)
  | .osMuli _ _ => .osMuli (Reg.ofCode3 (slice w 22 3)) (slice w 0 22)
  | .osDivi _ _ => .osDivi (Reg.ofCode3 (slice w 22 3)) (slice w 0 22)
  | .osSubi _ _ => .osSubi (Reg.ofCode3 (slice w 22 3)) (slice w 0 22)
  | .osAddi _ _ => .osAddi (Reg.ofCode3 (slice w 22 3)) (slice w 0 22)
  | .osXnori _ _ => .osXnori (Reg.ofCode3 (slice w 22 3)) (slice w 0 22)
  | .osOri _ _ => .osOri (Reg.ofCode3 (slice w 22 3)) (slice w 0 22)
  | .osAndi _ _ => .osAndi (Reg.ofCode3 (slice w 22 3)) (slice w 0 22)
  | .osModi _ _ => .osModi (Reg.ofCode3 (slice w 22 3)) (slice w 0 22)
  | .osMul _ _ => .osMul (Reg.ofCode3 (slice w 22 3)) (slice w 0 22)
  | .osDiv _ _ => .osDiv (Reg.ofCode3 (slice w 22 3)) (slice w 0 22)
  | .osSub _ _ => .osSub (Reg.ofCode3 (slice w 22 3)) (slice w 0 22)
  | .osAdd _ _ => .osAdd (Reg.ofCode3 (slice w 22 3)) (slice w 0 22)
  | .osXnor _ _ => .osXnor (Reg.ofCode3 (slice w 22 3)) (slice w 0 22)
  | .osOr _ _ => .osOr (Reg.ofCode3 (slice w 22 3)) (slice w 0 22)
  | .osAnd _ _ => .osAnd (Reg.ofCode3 (slice w 22 3)) (slice w 0 22)
  | .osMod _ _ => .osMod (Reg.ofCode3 (slice w 22 3)) (slice w 0 22)
  | .osMulReg _ _ => .osMulReg (Reg.ofCode3 (slice w 22 3)) (Reg.ofCode3 (slice w 19 3))
  | .osDivReg _ _ => .osDivReg (Reg.ofCode3 (slice w 22 3)) (Reg.ofCode3 (slice w 19 3))
  | .osSubReg _ _ => .osSubReg (Reg.ofCode3 (slice w 22 3)) (Reg.ofCode3 (slice w 19 3))
  | .osAddReg _ _ => .osAddReg (Reg.ofCode3 (slice w 22 3)) (Reg.ofCode3 (slice w 19 3))
  | .osXnorReg _ _ => .osXnorReg (Reg.ofCode3 (slice w 22 3)) (Reg.ofCode3 (slice w 19 3))
  | .osOrReg _ _ => .osOrReg (Reg.ofCode3 (slice w 22 3)) (Reg.ofCode3 (slice w 19 3))
  | .osAndReg _ _ => .osAndReg (Reg.ofCode3 (slice w 22 3)) (Reg.ofCode3 (slice w 19 3))
  | .osModReg _ _ => .osModReg (Reg.ofCode3 (slice w 22 3)) (Reg.ofCode3 (slice w 19 3))
  | .osLoad _ _ => .osLoad (Reg.ofCode3 (slice w 22 3)) (slice w 0 22)
  | .osLoadin _ _ _ => .osLoadin (Reg.ofCode3 (slice w 25 3)) (Reg.ofCode3 (slice w 22 3)) (slice w 0 22)
  | .osLoadi _ _ => .osLoadi (Reg.ofCode3 (slice w 22 3)) (slice w 0 22)
  | .osStore _ _ => .osStore (Reg.ofCode3 (slice w 25 3)) (slice w 0 22)
  | .osStorein _ _ _ => .osStorein (Reg.ofCode3 (slice w 22 3)) (Reg.ofCode3 (slice w 25 3)) (slice w 0 22)
  | .osMove _ _ => .osMove (Reg.ofCode3 (slice w 25 3)) (Reg.ofCode3 (slice w 22 3))
  | .osNop => .osNop
  | .osJumpGt _ => .osJumpGt (slice w 0 22)
  | .osJumpEq _ => .osJumpEq (slice w 0 22)
  | .osJumpGe _ => .osJumpGe (slice w 0 22)
  | .osJumpLt _ => .osJumpLt (slice w 0 22)
  | .osJumpNe _ => .osJumpNe (slice w 0 22)
  | .osJumpLe _ => .osJumpLe (slice w 0 22)
  | .osJump _ => .osJump (slice w 0 22)
  | .osInt _ => .osInt (slice w 0 22)
  | .osRti => .osRti

theorem opcodeRow_operandsFrom (w : Word) (i : Instr) : (i.operandsFrom w).opcodeRow = i.opcodeRow := by
  cases i <;> rfl

/-! ## Words and their fields -/

/-- A field put back where it was sliced from: the word under the mask of the field. -/
theorem field_slice (w : Word) (lo n : Nat) : field (slice w lo n) lo = w &&& field (BitVec.allOnes n) lo := by
  apply BitVec.eq_of_getLsbD_eq
  intro k hk
  rw [BitVec.getLsbD_and, getLsbD_field, getLsbD_field, getLsbD_slice, BitVec.getLsbD_allOnes]
  by_cases hlo : lo ≤ k
  · simp [hlo, Nat.add_sub_cancel' hlo, Bool.and_comm, Bool.and_assoc, Bool.and_left_comm]
  · simp [hlo]

theorem and_or_masks (w m n : Word) : (w &&& m) ||| (w &&& n) = w &&& (m ||| n) := by
  rw [BitVec.and_comm w m, BitVec.and_comm w n, ← Laws.TableRow.or_and, BitVec.and_comm]

/-- A word under the mask of two fields. -/
theorem and_eq_two_fields (w : Word) {m : Word} {lo1 n1 lo2 n2 : Nat}
    (hm : field (BitVec.allOnes n1) lo1 ||| field (BitVec.allOnes n2) lo2 = m) :
    w &&& m = field (slice w lo1 n1) lo1 ||| field (slice w lo2 n2) lo2 := by
  rw [field_slice, field_slice, and_or_masks, hm]

/-- A word under the mask of three fields. -/
theorem and_eq_three_fields (w : Word) {m : Word} {lo1 n1 lo2 n2 lo3 n3 : Nat}
    (hm : field (BitVec.allOnes n1) lo1 ||| field (BitVec.allOnes n2) lo2 ||| field (BitVec.allOnes n3) lo3 = m) :
    w &&& m = field (slice w lo1 n1) lo1 ||| field (slice w lo2 n2) lo2 ||| field (slice w lo3 n3) lo3 := by
  rw [field_slice, field_slice, field_slice, and_or_masks, and_or_masks, hm]

theorem code1_cases (c : BitVec 1) : c = 0b0#1 ∨ c = 0b1#1 := by
  revert c; decide

theorem code2_cases (c : BitVec 2) : c = 0b00#2 ∨ c = 0b01#2 ∨ c = 0b10#2 ∨ c = 0b11#2 := by
  revert c; decide

/-! ## A word stands on the row of what it decodes to -/

/-- The row of what the decoder answers. -/
def decodedRow : Except Reserved Instr → Word × Word
  | .ok i => i.opcodeRow
  | .error e => e.row

theorem decodeTi_onRow (w : Word) : OnRow w (decodedRow (decodeTi w)) := by
  have hcompute := and_eq_three_fields w (m := 0xFC000000#32) (lo1 := 30) (n1 := 2) (lo2 := 29) (n2 := 1)
    (lo3 := 26) (n3 := 3) (by decide)
  have hreserved := and_eq_two_fields w (m := 0xDC000000#32) (lo1 := 30) (n1 := 2) (lo2 := 26) (n2 := 3) (by decide)
  have hmode := and_eq_two_fields w (m := 0xF0000000#32) (lo1 := 30) (n1 := 2) (lo2 := 28) (n2 := 2) (by decide)
  have hjump := and_eq_two_fields w (m := 0xF8000000#32) (lo1 := 30) (n1 := 2) (lo2 := 27) (n2 := 3) (by decide)
  unfold decodeTi
  obtain h | h | h | h := code2_cases (slice w 30 2) <;> rw [h] at hcompute hreserved hmode hjump ⊢
  · generalize slice w 26 3 = f at hcompute hreserved ⊢
    generalize slice w 29 1 = mi at hcompute ⊢
    obtain rfl | rfl | rfl | rfl | rfl | rfl | rfl | rfl := Machine.mask_cases f
    case inl | inr.inl | inr.inr.inr.inr.inr.inr.inr => exact hreserved
    all_goals obtain rfl | rfl := code1_cases mi <;> exact hcompute
  · generalize slice w 28 2 = m at hmode ⊢
    obtain rfl | rfl | rfl | rfl := code2_cases m <;> exact hmode
  · generalize slice w 28 2 = m at hmode ⊢
    obtain rfl | rfl | rfl | rfl := code2_cases m <;> exact hmode
  · generalize slice w 27 3 = c at hjump ⊢
    obtain rfl | rfl | rfl | rfl | rfl | rfl | rfl | rfl := Machine.mask_cases c <;> exact hjump

theorem decodeOs_onRow (w : Word) : OnRow w (decodedRow (decodeOs w)) := by
  have hcompute := and_eq_three_fields w (m := 0xFE000000#32) (lo1 := 30) (n1 := 2) (lo2 := 28) (n2 := 2)
    (lo3 := 25) (n3 := 3) (by decide)
  have hmode := and_eq_two_fields w (m := 0xF0000000#32) (lo1 := 30) (n1 := 2) (lo2 := 28) (n2 := 2) (by decide)
  have hjump := and_eq_three_fields w (m := 0xFE000000#32) (lo1 := 30) (n1 := 2) (lo2 := 27) (n2 := 3)
    (lo3 := 25) (n3 := 2) (by decide)
  have hj := and_eq_two_fields w (m := 0xC6000000#32) (lo1 := 30) (n1 := 2) (lo2 := 25) (n2 := 2) (by decide)
  unfold decodeOs
  obtain h | h | h | h := code2_cases (slice w 30 2) <;> rw [h] at hcompute hmode hjump hj ⊢
  · generalize slice w 28 2 = kind at hcompute hmode ⊢
    generalize slice w 25 3 = f at hcompute ⊢
    obtain rfl | rfl | rfl | rfl := code2_cases kind
    case inr.inr.inr => exact hmode
    all_goals
      obtain rfl | rfl | rfl | rfl | rfl | rfl | rfl | rfl := Machine.mask_cases f <;> exact hcompute
  · generalize slice w 28 2 = m at hmode ⊢
    obtain rfl | rfl | rfl | rfl := code2_cases m <;> exact hmode
  · generalize slice w 28 2 = m at hmode ⊢
    obtain rfl | rfl | rfl | rfl := code2_cases m <;> exact hmode
  · generalize slice w 25 2 = j at hjump hj ⊢
    generalize slice w 27 3 = c at hjump ⊢
    obtain rfl | rfl | rfl | rfl := code2_cases j
    case inl =>
      obtain rfl | rfl | rfl | rfl | rfl | rfl | rfl | rfl := Machine.mask_cases c <;> exact hjump
    all_goals exact hj

/-- Every word stands on the row, of the opcode table or of the reserved encodings, of what it decodes to. -/
theorem decode_onRow (v : Variant) (w : Word) : OnRow w (decodedRow (decode v w)) := by
  cases v with
  | ti => exact decodeTi_onRow w
  | os => exact decodeOs_onRow w

theorem onRow_of_decode {v : Variant} {w : Word} {i : Instr} (h : decode v w = .ok i) : OnRow w i.opcodeRow := by
  simpa only [h, decodedRow] using decode_onRow v w

theorem onRow_of_decode_error {v : Variant} {w : Word} {e : Reserved} (h : decode v w = .error e) : OnRow w e.row := by
  simpa only [h, decodedRow] using decode_onRow v w

/-! ## The row of a word and its operand fields determine what it decodes to -/

/-- A word on an instruction's row decodes to that instruction, with the operands its fields hold. -/
theorem decode_of_onRow {w : Word} {i : Instr} (h : OnRow w i.opcodeRow) :
    decode i.variant w = .ok (i.operandsFrom w) := by
  cases i <;> simp only [Instr.opcodeRow] at h
  case tiSubi | tiAddi | tiXnori | tiOri | tiAndi | tiSub | tiAdd | tiXnor | tiOr | tiAnd =>
    simp only [Instr.variant, decode, decodeTi, h.slice 30 2 (by decide), h.slice 29 1 (by decide), h.slice 26 3 (by decide)]; rfl
  case tiLoad | tiLoadin1 | tiLoadin2 | tiLoadi | tiStore | tiStorein1 | tiStorein2 | tiMove =>
    simp only [Instr.variant, decode, decodeTi, h.slice 30 2 (by decide), h.slice 28 2 (by decide)]; rfl
  case tiNop | tiJumpGt | tiJumpEq | tiJumpGe | tiJumpLt | tiJumpNe | tiJumpLe | tiJump =>
    simp only [Instr.variant, decode, decodeTi, h.slice 30 2 (by decide), h.slice 27 3 (by decide)]; rfl
  case osMuli | osDivi | osSubi | osAddi | osXnori | osOri | osAndi | osModi | osMul | osDiv | osSub | osAdd | osXnor | osOr
      | osAnd | osMod | osMulReg | osDivReg | osSubReg | osAddReg | osXnorReg | osOrReg | osAndReg | osModReg =>
    simp only [Instr.variant, decode, decodeOs, h.slice 30 2 (by decide), h.slice 28 2 (by decide), h.slice 25 3 (by decide)]; rfl
  case osLoad | osLoadin | osLoadi | osStore | osStorein | osMove =>
    simp only [Instr.variant, decode, decodeOs, h.slice 30 2 (by decide), h.slice 28 2 (by decide)]; rfl
  case osNop | osJumpGt | osJumpEq | osJumpGe | osJumpLt | osJumpNe | osJumpLe | osJump =>
    simp only [Instr.variant, decode, decodeOs, h.slice 30 2 (by decide), h.slice 25 2 (by decide), h.slice 27 3 (by decide)]; rfl
  case osInt | osRti =>
    simp only [Instr.variant, decode, decodeOs, h.slice 30 2 (by decide), h.slice 25 2 (by decide)]; rfl

/-- A word on the row of a reserved encoding is reserved, by that name. -/
theorem decode_of_onRow_reserved {w : Word} {e : Reserved} (h : OnRow w e.row) : decode e.variant w = .error e := by
  cases e <;> simp only [Reserved.row] at h
  case tiComputeF000 | tiComputeF001 | tiComputeF111 =>
    simp only [Reserved.variant, decode, decodeTi, h.slice 30 2 (by decide), h.slice 26 3 (by decide)]; rfl
  case osComputeKind11 | osLoadMode10 | osStoreMode10 =>
    simp only [Reserved.variant, decode, decodeOs, h.slice 30 2 (by decide), h.slice 28 2 (by decide)]; rfl
  case osJumpJ11 =>
    simp only [Reserved.variant, decode, decodeOs, h.slice 30 2 (by decide), h.slice 25 2 (by decide)]; rfl

theorem operandsFrom_of_decode {v : Variant} {w : Word} {i : Instr} (h : decode v w = .ok i) : i.operandsFrom w = i := by
  have hrow := decode_of_onRow (onRow_of_decode h)
  rw [decode_variant v w i h, h] at hrow
  exact (Except.ok.inj hrow).symm

/-- The rows of a variant have no word in common. -/
theorem opcodeRow_unique {w : Word} {i j : Instr} (hv : j.variant = i.variant) (hi : OnRow w i.opcodeRow)
    (hj : OnRow w j.opcodeRow) : j.opcodeRow = i.opcodeRow := by
  have hsame : i.operandsFrom w = j.operandsFrom w :=
    Except.ok.inj ((decode_of_onRow hi).symm.trans (hv ▸ decode_of_onRow hj))
  rw [← opcodeRow_operandsFrom w i, ← opcodeRow_operandsFrom w j, hsame]

theorem decode_error_iff (e : Reserved) (w : Word) : decode e.variant w = .error e ↔ OnRow w e.row :=
  ⟨onRow_of_decode_error, decode_of_onRow_reserved⟩

theorem decodeTi_error_variant {w : Word} {e : Reserved} (h : decodeTi w = .error e) : e.variant = .ti := by
  unfold decodeTi at h
  repeat' split at h
  all_goals cases h
  all_goals rfl

theorem decodeOs_error_variant {w : Word} {e : Reserved} (h : decodeOs w = .error e) : e.variant = .os := by
  unfold decodeOs at h
  repeat' split at h
  all_goals cases h
  all_goals rfl

/-! ## The encoder -/

theorem encode_onRow (i : Instr) : OnRow (encode i) i.opcodeRow := by
  cases i with
  | tiSubi d i => exact Laws.TableRow.tiSubi d i
  | tiAddi d i => exact Laws.TableRow.tiAddi d i
  | tiXnori d i => exact Laws.TableRow.tiXnori d i
  | tiOri d i => exact Laws.TableRow.tiOri d i
  | tiAndi d i => exact Laws.TableRow.tiAndi d i
  | tiSub d i => exact Laws.TableRow.tiSub d i
  | tiAdd d i => exact Laws.TableRow.tiAdd d i
  | tiXnor d i => exact Laws.TableRow.tiXnor d i
  | tiOr d i => exact Laws.TableRow.tiOr d i
  | tiAnd d i => exact Laws.TableRow.tiAnd d i
  | tiLoad d i => exact Laws.TableRow.tiLoad d i
  | tiLoadin1 d i => exact Laws.TableRow.tiLoadin1 d i
  | tiLoadin2 d i => exact Laws.TableRow.tiLoadin2 d i
  | tiLoadi d i => exact Laws.TableRow.tiLoadi d i
  | tiStore i => exact Laws.TableRow.tiStore i
  | tiStorein1 i => exact Laws.TableRow.tiStorein1 i
  | tiStorein2 i => exact Laws.TableRow.tiStorein2 i
  | tiMove s d => exact Laws.TableRow.tiMove s d
  | tiNop => exact Laws.TableRow.tiNop
  | tiJumpGt i => exact Laws.TableRow.tiJumpGt i
  | tiJumpEq i => exact Laws.TableRow.tiJumpEq i
  | tiJumpGe i => exact Laws.TableRow.tiJumpGe i
  | tiJumpLt i => exact Laws.TableRow.tiJumpLt i
  | tiJumpNe i => exact Laws.TableRow.tiJumpNe i
  | tiJumpLe i => exact Laws.TableRow.tiJumpLe i
  | tiJump i => exact Laws.TableRow.tiJump i
  | osMuli d i => exact Laws.TableRow.osMuli d i
  | osDivi d i => exact Laws.TableRow.osDivi d i
  | osSubi d i => exact Laws.TableRow.osSubi d i
  | osAddi d i => exact Laws.TableRow.osAddi d i
  | osXnori d i => exact Laws.TableRow.osXnori d i
  | osOri d i => exact Laws.TableRow.osOri d i
  | osAndi d i => exact Laws.TableRow.osAndi d i
  | osModi d i => exact Laws.TableRow.osModi d i
  | osMul d i => exact Laws.TableRow.osMul d i
  | osDiv d i => exact Laws.TableRow.osDiv d i
  | osSub d i => exact Laws.TableRow.osSub d i
  | osAdd d i => exact Laws.TableRow.osAdd d i
  | osXnor d i => exact Laws.TableRow.osXnor d i
  | osOr d i => exact Laws.TableRow.osOr d i
  | osAnd d i => exact Laws.TableRow.osAnd d i
  | osMod d i => exact Laws.TableRow.osMod d i
  | osMulReg d s => exact Laws.TableRow.osMulReg d s
  | osDivReg d s => exact Laws.TableRow.osDivReg d s
  | osSubReg d s => exact Laws.TableRow.osSubReg d s
  | osAddReg d s => exact Laws.TableRow.osAddReg d s
  | osXnorReg d s => exact Laws.TableRow.osXnorReg d s
  | osOrReg d s => exact Laws.TableRow.osOrReg d s
  | osAndReg d s => exact Laws.TableRow.osAndReg d s
  | osModReg d s => exact Laws.TableRow.osModReg d s
  | osLoad d i => exact Laws.TableRow.osLoad d i
  | osLoadin s d i => exact Laws.TableRow.osLoadin s d i
  | osLoadi d i => exact Laws.TableRow.osLoadi d i
  | osStore s i => exact Laws.TableRow.osStore s i
  | osStorein d s i => exact Laws.TableRow.osStorein d s i
  | osMove s d => exact Laws.TableRow.osMove s d
  | osNop => exact Laws.TableRow.osNop
  | osJumpGt i => exact Laws.TableRow.osJumpGt i
  | osJumpEq i => exact Laws.TableRow.osJumpEq i
  | osJumpGe i => exact Laws.TableRow.osJumpGe i
  | osJumpLt i => exact Laws.TableRow.osJumpLt i
  | osJumpNe i => exact Laws.TableRow.osJumpNe i
  | osJumpLe i => exact Laws.TableRow.osJumpLe i
  | osJump i => exact Laws.TableRow.osJump i
  | osInt i => exact Laws.TableRow.osInt i
  | osRti => exact Laws.TableRow.osRti

/-- `slice_field_disjoint` in the form a list of fields is sliced by: the field starts above the slice, or ends below. -/
theorem slice_or_field {n : Nat} (a : Word) (x : BitVec n) (lo start len : Nat)
    (h : start + len ≤ lo ∨ lo + n ≤ start) : slice (a ||| field x lo) start len = slice a start len := by
  rw [slice_or, slice_field_disjoint x lo start len h, BitVec.or_zero]

theorem slice_or_field_same {n : Nat} (a : Word) (x : BitVec n) (lo : Nat) (h : lo + n ≤ 32) (ha : slice a lo n = 0#n) :
    slice (a ||| field x lo) lo n = x := by
  rw [slice_or, slice_field_same x lo h, ha, BitVec.zero_or]

section Fields

variable {base : Word} (d s : Reg)

theorem packTiDI_fields (hd : slice base 24 2 = 0#2) (hi : slice base 0 24 = 0#24) (i : BitVec 24) :
    slice (packTiDI base d i) 24 2 = d.code2 ∧ slice (packTiDI base d i) 0 24 = i := by
  unfold packTiDI
  rw [slice_or_field _ i 0 24 2 (by decide), slice_or_field_same base _ 24 (by decide) hd,
    slice_or_field_same _ i 0 (by decide) (by rw [slice_or_field _ _ _ _ _ (by decide), hi])]
  exact ⟨rfl, rfl⟩

theorem packTiI_field (hi : slice base 0 24 = 0#24) (i : BitVec 24) : slice (packTiI base i) 0 24 = i :=
  slice_or_field_same base i 0 (by decide) hi

theorem packTiSD_fields (hs : slice base 26 2 = 0#2) (hd : slice base 24 2 = 0#2) :
    slice (packTiSD base s d) 26 2 = s.code2 ∧ slice (packTiSD base s d) 24 2 = d.code2 := by
  unfold packTiSD
  rw [slice_or_field _ _ 24 26 2 (by decide), slice_or_field_same base _ 26 (by decide) hs,
    slice_or_field_same _ _ 24 (by decide) (by rw [slice_or_field _ _ _ _ _ (by decide), hd])]
  exact ⟨rfl, rfl⟩

theorem packOsDI_fields (hd : slice base 22 3 = 0#3) (hi : slice base 0 22 = 0#22) (i : BitVec 22) :
    slice (packOsDI base d i) 22 3 = d.code3 ∧ slice (packOsDI base d i) 0 22 = i := by
  unfold packOsDI
  rw [slice_or_field _ i 0 22 3 (by decide), slice_or_field_same base _ 22 (by decide) hd,
    slice_or_field_same _ i 0 (by decide) (by rw [slice_or_field _ _ _ _ _ (by decide), hi])]
  exact ⟨rfl, rfl⟩

theorem packOsCR_fields (hd : slice base 22 3 = 0#3) (hs : slice base 19 3 = 0#3) :
    slice (packOsCR base d s) 22 3 = d.code3 ∧ slice (packOsCR base d s) 19 3 = s.code3 := by
  unfold packOsCR
  rw [slice_or_field _ _ 19 22 3 (by decide), slice_or_field_same base _ 22 (by decide) hd,
    slice_or_field_same _ _ 19 (by decide) (by rw [slice_or_field _ _ _ _ _ (by decide), hs])]
  exact ⟨rfl, rfl⟩

theorem packOsSD_fields (hs : slice base 25 3 = 0#3) (hd : slice base 22 3 = 0#3) :
    slice (packOsSD base s d) 25 3 = s.code3 ∧ slice (packOsSD base s d) 22 3 = d.code3 := by
  unfold packOsSD
  rw [slice_or_field _ _ 22 25 3 (by decide), slice_or_field_same base _ 25 (by decide) hs,
    slice_or_field_same _ _ 22 (by decide) (by rw [slice_or_field _ _ _ _ _ (by decide), hd])]
  exact ⟨rfl, rfl⟩

theorem packOsSI_fields (hs : slice base 25 3 = 0#3) (hi : slice base 0 22 = 0#22) (i : BitVec 22) :
    slice (packOsSI base s i) 25 3 = s.code3 ∧ slice (packOsSI base s i) 0 22 = i := by
  unfold packOsSI
  rw [slice_or_field _ i 0 25 3 (by decide), slice_or_field_same base _ 25 (by decide) hs,
    slice_or_field_same _ i 0 (by decide) (by rw [slice_or_field _ _ _ _ _ (by decide), hi])]
  exact ⟨rfl, rfl⟩

theorem packOsSDI_fields (hs : slice base 25 3 = 0#3) (hd : slice base 22 3 = 0#3) (hi : slice base 0 22 = 0#22)
    (i : BitVec 22) :
    slice (packOsSDI base s d i) 25 3 = s.code3 ∧ slice (packOsSDI base s d i) 22 3 = d.code3 ∧
      slice (packOsSDI base s d i) 0 22 = i := by
  have hpack : packOsSDI base s d i = packOsSD base s d ||| field i 0 := rfl
  obtain ⟨hs', hd'⟩ := packOsSD_fields d s hs hd
  rw [hpack, slice_or_field _ i 0 25 3 (by decide), slice_or_field _ i 0 22 3 (by decide), hs', hd']
  refine ⟨rfl, rfl, slice_or_field_same _ i 0 (by decide) ?_⟩
  rw [packOsSD, slice_or_field _ _ _ _ _ (by decide), slice_or_field _ _ _ _ _ (by decide), hi]

theorem packOsI_field (hi : slice base 0 22 = 0#22) (i : BitVec 22) : slice (packOsI base i) 0 22 = i :=
  slice_or_field_same base i 0 (by decide) hi

end Fields

/-- The operand fields of the encoder's word hold the operands, where every register is one of the variant. -/
theorem operandsFrom_encode {i : Instr} (hi : i.wellFormed = true) : i.operandsFrom (encode i) = i := by
  cases i
  case tiSubi d n | tiAddi d n | tiXnori d n | tiOri d n | tiAndi d n | tiSub d n | tiAdd d n | tiXnor d n | tiOr d n
      | tiAnd d n | tiLoad d n | tiLoadin1 d n | tiLoadin2 d n | tiLoadi d n =>
    have hd : Reg.inVariant .ti d = true := by simpa [Instr.wellFormed, Instr.regs, Instr.variant] using hi
    simp (disch := decide) only [Instr.operandsFrom, encode, packTiDI_fields, ofCode2_code2 d hd]
  case tiStore | tiStorein1 | tiStorein2 | tiJumpGt | tiJumpEq | tiJumpGe | tiJumpLt | tiJumpNe | tiJumpLe | tiJump =>
    simp (disch := decide) only [Instr.operandsFrom, encode, packTiI_field]
  case tiMove s d =>
    obtain ⟨hs, hd⟩ : Reg.inVariant .ti s = true ∧ Reg.inVariant .ti d = true := by
      simpa [Instr.wellFormed, Instr.regs, Instr.variant] using hi
    simp (disch := decide) only [Instr.operandsFrom, encode, packTiSD_fields, ofCode2_code2 s hs,
      ofCode2_code2 d hd]
  case tiNop | osNop | osRti => rfl
  case osMuli d n | osDivi d n | osSubi d n | osAddi d n | osXnori d n | osOri d n | osAndi d n | osModi d n | osMul d n
      | osDiv d n | osSub d n | osAdd d n | osXnor d n | osOr d n | osAnd d n | osMod d n | osLoad d n | osLoadi d n =>
    simp (disch := decide) only [Instr.operandsFrom, encode, packOsDI_fields, ofCode3_code3]
  case osMulReg d s | osDivReg d s | osSubReg d s | osAddReg d s | osXnorReg d s | osOrReg d s | osAndReg d s
      | osModReg d s =>
    simp (disch := decide) only [Instr.operandsFrom, encode, packOsCR_fields, ofCode3_code3]
  case osLoadin s d n | osStorein d s n =>
    simp (disch := decide) only [Instr.operandsFrom, encode, packOsSDI_fields, ofCode3_code3]
  case osStore s n =>
    simp (disch := decide) only [Instr.operandsFrom, encode, packOsSI_fields, ofCode3_code3]
  case osMove s d =>
    simp (disch := decide) only [Instr.operandsFrom, encode, packOsSD_fields, ofCode3_code3]
  case osJumpGt | osJumpEq | osJumpGe | osJumpLt | osJumpNe | osJumpLe | osJump | osInt =>
    simp (disch := decide) only [Instr.operandsFrom, encode, packOsI_field]

/-- Decoding the encoder's word: it stands on the instruction's row and its fields hold the operands. -/
theorem decode_encode {i : Instr} (hi : i.wellFormed = true) : decode i.variant (encode i) = .ok i := by
  rw [decode_of_onRow (encode_onRow i), operandsFrom_encode hi]

/-! ## The canonical word -/

/-- The encoder packs the fixed bits of the row and the operand fields of a word again, and the unused bits alone are
lost. -/
theorem encode_operandsFrom {w : Word} {i : Instr} (h : OnRow w i.opcodeRow) :
    encode (i.operandsFrom w) = w &&& ~~~i.unusedBits := by
  cases i
  case tiNop | osNop | osRti => exact h.symm
  all_goals
    simp only [OnRow, Instr.opcodeRow, Instr.operandsFrom, encode, packTiDI, packTiI, packTiSD, packOsDI,
      packOsCR, packOsSDI, packOsSI, packOsSD, packOsI, code2_ofCode2, code3_ofCode3, field_slice] at h ⊢
    rw [← h]
    simp only [and_or_masks, Instr.unusedBits]
    rfl

@[simp] theorem inVariant_os (r : Reg) : Reg.inVariant .os r = true := by
  cases r <;> rfl

theorem operandsFrom_wellFormed (w : Word) (i : Instr) : (i.operandsFrom w).wellFormed = true := by
  cases i <;> simp [Instr.wellFormed, Instr.operandsFrom, Instr.regs, Instr.variant]

theorem wellFormed_of_decode {v : Variant} {w : Word} {i : Instr} (h : decode v w = .ok i) : i.wellFormed = true := by
  rw [← operandsFrom_of_decode h]
  exact operandsFrom_wellFormed w i

theorem wellFormedIn_iff (v : Variant) (i : Instr) : i.wellFormedIn v = true ↔ i.variant = v ∧ i.wellFormed = true := by
  simp [Instr.wellFormedIn]

theorem canon_of_ok {v : Variant} {w : Word} {i : Instr} (h : decode v w = .ok i) : canon v w = w &&& ~~~i.unusedBits := by
  simp only [canon, h]

theorem canon_of_error {v : Variant} {w : Word} {e : Reserved} (h : decode v w = .error e) : canon v w = w := by
  simp only [canon, h]

/-- The word of a decoded instruction is the canonical word (`30_encoding.md` R97). -/
theorem encode_of_decode {v : Variant} {w : Word} {i : Instr} (h : decode v w = .ok i) : encode i = canon v w := by
  rw [canon_of_ok h, ← encode_operandsFrom (onRow_of_decode h), operandsFrom_of_decode h]

/-- The canonical word is the same instruction (`30_encoding.md` R97). -/
theorem decode_canon (v : Variant) (w : Word) : decode v (canon v w) = decode v w := by
  cases h : decode v w with
  | ok i => rw [← encode_of_decode h, ← decode_variant v w i h, decode_encode (wellFormed_of_decode h)]
  | error e => rw [canon_of_error h, h]

/-- Clearing the unused bits once is enough. -/
theorem canon_canon (v : Variant) (w : Word) : canon v (canon v w) = canon v w := by
  cases h : decode v w with
  | ok i => rw [← encode_of_decode ((decode_canon v w).trans h), encode_of_decode h]
  | error e => rw [canon_of_error h, canon_of_error h]

/-- The encoder writes every unused bit as zero (`30_encoding.md` R96, R97). -/
theorem isCanonical_encode {i : Instr} (hi : i.wellFormed = true) : isCanonical i.variant (encode i) = true :=
  beq_iff_eq.2 (encode_of_decode (decode_encode hi)).symm

/-! ## The obligations -/

/-- Settles O1: the encoder's word stands on the instruction's row, and its fields hold the operands. -/
theorem decodeEncode : Obligations.DecodeEncode :=
  fun _ => decode_encode

/-- Settles O2: a word on a row is the fixed bits, the operand fields and the unused bits. -/
theorem encodeDecode : Obligations.EncodeDecode :=
  fun v w i h => ⟨(wellFormedIn_iff v i).2 ⟨decode_variant v w i h, wellFormed_of_decode h⟩, encode_of_decode h⟩

/-- Settles O3: each name is answered exactly on its row, and only names of the variant are. -/
theorem reservedWords : Obligations.ReservedWords := by
  intro w
  refine ⟨decode_error_iff .tiComputeF000 w, decode_error_iff .tiComputeF001 w, decode_error_iff .tiComputeF111 w,
    decode_error_iff .osComputeKind11 w, decode_error_iff .osLoadMode10 w, decode_error_iff .osStoreMode10 w,
    decode_error_iff .osJumpJ11 w, fun e he => ?_, fun e he => ?_⟩
  · have hv := decodeTi_error_variant he
    cases e <;> simp [Reserved.variant] at hv ⊢
  · have hv := decodeOs_error_variant he
    cases e <;> simp [Reserved.variant] at hv ⊢

/-- `decode_of_onRow` for an instruction whose operands are given as the fields of the word. -/
theorem decode_eq_of_onRow {v : Variant} {w : Word} {i : Instr} (hv : i.variant = v) (hi : i.operandsFrom w = i)
    (h : OnRow w i.opcodeRow) : decode v w = .ok i := by
  rw [← hv, decode_of_onRow h, hi]

/-- Settles O4: a word stands on the row of its instruction and, the rows being disjoint, on no other; each row of the
lists decodes by its own fields; the register numbers by evaluation. -/
theorem opcodeRows : Obligations.OpcodeRows := by
  refine ⟨fun v w i h => ⟨onRow_of_decode h, fun j hj hw => ?_⟩, fun w => ?_, by decide, by decide⟩
  · exact opcodeRow_unique (hj.trans (decode_variant v w i h).symm) (onRow_of_decode h) hw
  · simp only [List.forall_mem_cons, List.not_mem_nil, false_imp_iff, implies_true, and_true]
    and_intros <;> exact fun h => decode_eq_of_onRow rfl rfl h

/-- Settles O5, by the two answers of `decode` and the round trip. -/
theorem canonicalWords : Obligations.CanonicalWords :=
  ⟨fun v w => ⟨decode_canon v w, canon_canon v w⟩, fun _ => isCanonical_encode⟩

/-- Settles O6: each word by evaluation of the decoder. -/
theorem decodeSamples : Obligations.DecodeSamples := by
  unfold Obligations.DecodeSamples
  decide

end Sys2Proof
end

section
/-! PROOFS. The text form (`30_encoding.md` R109 to R123): a line split into the tokens it was joined from, the tokens of
each form encoded, and with them the round trip through text. -/

namespace Sys2Proof.Machine

/-! ## Upper case -/

/-- The upper-case letters are their own upper case. -/
theorem upperChar_upperLetter (k : Nat) (h : k < 26) : upperChar (Char.ofNat (65 + k)) = Char.ofNat (65 + k) := by
  have all : ∀ k : Fin 26, upperChar (Char.ofNat (65 + k.1)) = Char.ofNat (65 + k.1) := by decide
  exact all ⟨k, h⟩

theorem upperChar_upperChar (c : Char) : upperChar (upperChar c) = upperChar c := by
  by_cases h : 97 ≤ c.toNat ∧ c.toNat ≤ 122
  · have hc : upperChar c = Char.ofNat (65 + (c.toNat - 97)) := by
      rw [upperChar, if_pos h]
      congr 1
      omega
    rw [hc, upperChar_upperLetter _ (by omega)]
  · have hc : upperChar c = c := if_neg h
    rw [hc, hc]

theorem upper_upper (t : Text) : upper (upper t) = upper t := by
  simp [upper, upperChar_upperChar]

theorem map_upper_map_upper (tokens : List Text) : (tokens.map upper).map upper = tokens.map upper := by
  simp [upper_upper]

/-! ## Lines and tokens -/

/-- A text that can stand as a token of a line: not empty, and without white space. -/
def isToken (t : Text) : Bool :=
  !t.isEmpty && t.all (fun c => !isSpace c)

theorem isToken_iff (t : Text) : isToken t = true ↔ t ≠ [] ∧ ∀ c ∈ t, isSpace c = false := by
  simp [isToken]

theorem splitAux_of_no_space (t : Text) (h : ∀ c ∈ t, isSpace c = false) : splitAux t = (t, []) := by
  induction t with
  | nil => rfl
  | cons c t ih =>
    obtain ⟨hc, ht⟩ := List.forall_mem_cons.1 h
    simp [splitAux, hc, ih ht]

theorem splitAux_append_space (t rest : Text) (h : ∀ c ∈ t, isSpace c = false) :
    splitAux (t ++ ' ' :: rest) = (t, splitTokens rest) := by
  induction t with
  | nil => rfl
  | cons c t ih =>
    obtain ⟨hc, ht⟩ := List.forall_mem_cons.1 h
    simp [splitAux, hc, ih ht]

theorem consToken_of_ne_nil {t : Text} (h : t ≠ []) (ts : List Text) : consToken t ts = t :: ts := by
  cases t with
  | nil => exact absurd rfl h
  | cons c t => rfl

/-- Splitting a line joined from tokens gives the tokens back. -/
theorem splitTokens_joinTokens (ts : List Text) (h : ∀ t ∈ ts, isToken t = true) : splitTokens (joinTokens ts) = ts := by
  induction ts using joinTokens.induct with
  | case1 => rfl
  | case2 t =>
    obtain ⟨hne, hsp⟩ := (isToken_iff t).1 (h t (by simp))
    rw [joinTokens, splitTokens, splitAux_of_no_space t hsp, consToken_of_ne_nil hne]
  | case3 t u rest ih =>
    obtain ⟨hne, hsp⟩ := (isToken_iff t).1 (h t (by simp))
    rw [joinTokens, splitTokens, splitAux_append_space t _ hsp, consToken_of_ne_nil hne,
      ih fun x hx => h x (List.mem_cons_of_mem t hx)]

theorem isSpace_digit (d : Nat) (h : d < 10) : isSpace (Char.ofNat (48 + d)) = false := by
  have all : ∀ d : Fin 10, isSpace (Char.ofNat (48 + d.1)) = false := by decide
  exact all ⟨d, h⟩

theorem isToken_mnemonic (i : Instr) : isToken (mnemonic i) = true := by
  cases i <;> rfl

theorem isToken_regName (r : Reg) : isToken (regName r) = true := by
  cases r <;> rfl

theorem isToken_decimal (n : Nat) : isToken (decimal n) = true := by
  obtain ⟨d, rest, hd, heq, hrest⟩ := decimalAux_digits n n []
  rw [decimal, heq, isToken_iff, List.forall_mem_cons]
  refine ⟨List.cons_ne_nil _ _, isSpace_digit d hd, fun c hc => ?_⟩
  obtain ⟨e, he, rfl⟩ | hnil := hrest c hc
  · exact isSpace_digit e he
  · cases hnil

theorem isToken_signedDecimal (z : Int) : isToken (signedDecimal z) = true := by
  cases z with
  | ofNat n => exact isToken_decimal n
  | negSucc n =>
    obtain ⟨-, hsp⟩ := (isToken_iff _).1 (isToken_decimal (n + 1))
    rw [signedDecimal, isToken_iff, List.forall_mem_cons]
    exact ⟨List.cons_ne_nil _ _, rfl, hsp⟩

theorem isToken_of_mem_instrTokens (i : Instr) : ∀ t ∈ instrTokens i, isToken t = true := by
  refine List.forall_mem_cons.2 ⟨isToken_mnemonic i, ?_⟩
  cases i <;> simp [operandTexts, isToken_regName, isToken_decimal, isToken_signedDecimal]

/-! ## Registers and numbers -/

theorem mem_regsOf_iff (v : Variant) (r : Reg) : r ∈ regsOf v ↔ Reg.inVariant v r = true := by
  cases v <;> cases r <;> decide

theorem inVariant_of_parseReg {v : Variant} {t : Text} {r : Reg} (h : parseReg v t = some r) :
    Reg.inVariant v r = true :=
  (mem_regsOf_iff v r).1 (List.mem_of_find?_eq_some h)

theorem parseReg_regName {v : Variant} {r : Reg} (h : Reg.inVariant v r = true) :
    parseReg v (upper (regName r)) = some r := by
  cases v <;> cases r <;> first | rfl | exact absurd h (by decide)

theorem parseNumber_decimal (n : Nat) : parseNumber (upper (decimal n)) = some (n : Int) :=
  parseNumber_signedDecimal (n : Int)

theorem ofInt_simm {n : Nat} (i : BitVec n) : BitVec.ofInt n (simm i) = i := BitVec.ofInt_toInt

theorem ofInt_uimm {n : Nat} (i : BitVec n) : BitVec.ofInt n (uimm i) = i := by
  rw [uimm, BitVec.ofInt_natCast, BitVec.ofNat_toNat, BitVec.setWidth_eq]

/-! ## Encoding the tokens of each form -/

/-- What `encode` returns for an instruction. -/
def encoded (i : Instr) : EncodeResult :=
  { status := .ok, word := some (encode i), message := [] }

theorem lookup_of_mem {β : Type} {l : List (Text × β)} (hl : (l.map Prod.fst).Nodup) {k : Text} {x : β}
    (h : (k, x) ∈ l) : l.lookup k = some x := by
  induction l with
  | nil => cases h
  | cons p l ih =>
    obtain ⟨hp, hl⟩ := List.nodup_cons.1 hl
    obtain rfl | h := List.mem_cons.1 h
    · exact List.lookup_cons_self
    · have hne : k ≠ p.1 := fun hk => hp (hk ▸ List.mem_map_of_mem (f := Prod.fst) h)
      rw [List.lookup_cons, beq_false_of_ne hne]
      exact ih hl h

/-- The TI table lists no mnemonic twice, and each in upper case. -/
theorem tiForms_lookup {m : Text} {f : TextForm 24} (h : (m, f) ∈ tiForms) : tiForms.lookup (upper m) = some f := by
  have hupper : ∀ k ∈ tiForms.map Prod.fst, upper k = k := by decide
  have hnodup : (tiForms.map Prod.fst).Nodup := by decide
  rw [hupper m (List.mem_map_of_mem (f := Prod.fst) h)]
  exact lookup_of_mem hnodup h

/-- The OS table lists no mnemonic twice, and each in upper case. -/
theorem osForms_lookup {m : Text} {f : TextForm 22} (h : (m, f) ∈ osForms) : osForms.lookup (upper m) = some f := by
  have hupper : ∀ k ∈ osForms.map Prod.fst, upper k = k := by decide
  have hnodup : (osForms.map Prod.fst).Nodup := by decide
  rw [hupper m (List.mem_map_of_mem (f := Prod.fst) h)]
  exact lookup_of_mem hnodup h

section Forms

variable {n : Nat} {v : Variant} {forms : List (Text × TextForm n)} {m a b c : Text} {d r : Reg} {z : Int} {i : BitVec n}

theorem encodeWith_regNum {make : Reg → BitVec n → Instr} (hm : forms.lookup (upper m) = some (.regNum make))
    (ha : parseReg v (upper a) = some d) (hb : parseNumber (upper b) = some z) (hi : BitVec.ofInt n z = i) :
    encodeWith v forms ([m, a, b].map upper) = encoded (make d i) := by
  simp [encodeWith, hm, buildInstr, regOperand, numOperand, ha, hb, hi, encoded]

/-- A token that is a number selects the memory form, since it is no register name. -/
theorem encodeWith_regNumOrReg_num {make : Reg → BitVec n → Instr}
    (hm : ∃ makeReg, forms.lookup (upper m) = some (.regNumOrReg make makeReg))
    (ha : parseReg v (upper a) = some d) (hb : parseNumber (upper b) = some z) (hi : BitVec.ofInt n z = i) :
    encodeWith v forms ([m, a, b].map upper) = encoded (make d i) := by
  obtain ⟨makeReg, hm⟩ := hm
  simp [encodeWith, hm, buildInstr, regOperand, numOperand, ha, parseReg_of_parseNumber hb, hb, hi, encoded]

theorem encodeWith_regNumOrReg_reg {make : Reg → Reg → Instr}
    (hm : ∃ makeNum, forms.lookup (upper m) = some (.regNumOrReg makeNum make))
    (ha : parseReg v (upper a) = some d) (hb : parseReg v (upper b) = some r) :
    encodeWith v forms ([m, a, b].map upper) = encoded (make d r) := by
  obtain ⟨makeNum, hm⟩ := hm
  simp [encodeWith, hm, buildInstr, regOperand, ha, hb, encoded]

theorem encodeWith_regReg {make : Reg → Reg → Instr} (hm : forms.lookup (upper m) = some (.regReg make))
    (ha : parseReg v (upper a) = some d) (hb : parseReg v (upper b) = some r) :
    encodeWith v forms ([m, a, b].map upper) = encoded (make d r) := by
  simp [encodeWith, hm, buildInstr, regOperand, ha, hb, encoded]

theorem encodeWith_regRegNum {make : Reg → Reg → BitVec n → Instr}
    (hm : forms.lookup (upper m) = some (.regRegNum make)) (ha : parseReg v (upper a) = some d)
    (hb : parseReg v (upper b) = some r) (hc : parseNumber (upper c) = some z)
    (hi : BitVec.ofInt n z = i) :
    encodeWith v forms ([m, a, b, c].map upper) = encoded (make d r i) := by
  simp [encodeWith, hm, buildInstr, regOperand, numOperand, ha, hb, hc, hi, encoded]

theorem encodeWith_num {make : BitVec n → Instr} (hm : forms.lookup (upper m) = some (.num make))
    (ha : parseNumber (upper a) = some z) (hi : BitVec.ofInt n z = i) :
    encodeWith v forms ([m, a].map upper) = encoded (make i) := by
  simp [encodeWith, hm, buildInstr, numOperand, ha, hi, encoded]

theorem encodeWith_none {make : Instr} (hm : forms.lookup (upper m) = some (.none make)) :
    encodeWith v forms ([m].map upper) = encoded make := by
  simp [encodeWith, hm, buildInstr, encoded]

end Forms

theorem encodeTokens_instrTokens_ti {i : Instr} (hv : i.variant = .ti) (hi : i.wellFormed = true) :
    encodeTokens .ti (instrTokens i) = encoded i := by
  -- `delta`, since the equations of `mnemonic` cost far more to generate than its one match to reduce
  cases i <;> delta instrTokens mnemonic <;> dsimp only [encodeTokens, operandTexts]
  case tiSubi d n | tiAddi d n | tiXnori d n | tiOri d n | tiAndi d n | tiLoadin1 d n | tiLoadin2 d n | tiLoadi d n =>
    have hd : Reg.inVariant .ti d = true := by simpa [Instr.wellFormed, Instr.regs, Instr.variant] using hi
    exact encodeWith_regNum (tiForms_lookup (by simp [tiForms, jumpSpellings, -String.reduceToList]))
      (parseReg_regName hd) (parseNumber_signedDecimal (simm n)) (ofInt_simm n)
  case tiSub d n | tiAdd d n | tiXnor d n | tiOr d n | tiAnd d n | tiLoad d n =>
    have hd : Reg.inVariant .ti d = true := by simpa [Instr.wellFormed, Instr.regs, Instr.variant] using hi
    exact encodeWith_regNum (tiForms_lookup (by simp [tiForms, jumpSpellings, -String.reduceToList]))
      (parseReg_regName hd) (parseNumber_decimal (uimm n)) (ofInt_uimm n)
  case tiStore n =>
    exact encodeWith_num (tiForms_lookup (by simp [tiForms, jumpSpellings, -String.reduceToList]))
      (parseNumber_decimal (uimm n)) (ofInt_uimm n)
  case tiStorein1 n | tiStorein2 n | tiJumpGt n | tiJumpEq n | tiJumpGe n | tiJumpLt n | tiJumpNe n | tiJumpLe n
      | tiJump n =>
    exact encodeWith_num (tiForms_lookup (by simp [tiForms, jumpSpellings, -String.reduceToList]))
      (parseNumber_signedDecimal (simm n)) (ofInt_simm n)
  case tiMove s d =>
    obtain ⟨hs, hd⟩ : Reg.inVariant .ti s = true ∧ Reg.inVariant .ti d = true := by
      simpa [Instr.wellFormed, Instr.regs, Instr.variant] using hi
    exact encodeWith_regReg (tiForms_lookup (by simp [tiForms, jumpSpellings, -String.reduceToList]))
      (parseReg_regName hs) (parseReg_regName hd)
  case tiNop => exact encodeWith_none (tiForms_lookup (by simp [tiForms, jumpSpellings, -String.reduceToList]))
  all_goals cases hv

theorem encodeTokens_instrTokens_os {i : Instr} (hv : i.variant = .os) :
    encodeTokens .os (instrTokens i) = encoded i := by
  -- `delta`, since the equations of `mnemonic` cost far more to generate than its one match to reduce
  cases i <;> delta instrTokens mnemonic <;> dsimp only [encodeTokens, operandTexts]
  case osMuli d n | osDivi d n | osSubi d n | osAddi d n | osXnori d n | osOri d n | osAndi d n | osModi d n
      | osLoadi d n =>
    exact encodeWith_regNum (osForms_lookup (by simp [osForms, jumpSpellings, -String.reduceToList]))
      (parseReg_regName (inVariant_os d)) (parseNumber_signedDecimal (simm n)) (ofInt_simm n)
  case osLoad d n | osStore d n =>
    exact encodeWith_regNum (osForms_lookup (by simp [osForms, jumpSpellings, -String.reduceToList]))
      (parseReg_regName (inVariant_os d)) (parseNumber_decimal (uimm n)) (ofInt_uimm n)
  case osMul d n | osDiv d n | osSub d n | osAdd d n | osXnor d n | osOr d n | osAnd d n | osMod d n =>
    exact encodeWith_regNumOrReg_num
      (Exists.imp (fun _ => osForms_lookup) (by simp [osForms, exists_or, -String.reduceToList]))
      (parseReg_regName (inVariant_os d)) (parseNumber_decimal (uimm n)) (ofInt_uimm n)
  case osMulReg d s | osDivReg d s | osSubReg d s | osAddReg d s | osXnorReg d s | osOrReg d s | osAndReg d s
      | osModReg d s =>
    exact encodeWith_regNumOrReg_reg
      (Exists.imp (fun _ => osForms_lookup) (by simp [osForms, exists_or, -String.reduceToList]))
      (parseReg_regName (inVariant_os d)) (parseReg_regName (inVariant_os s))
  case osMove s d =>
    exact encodeWith_regReg (osForms_lookup (by simp [osForms, jumpSpellings, -String.reduceToList]))
      (parseReg_regName (inVariant_os s)) (parseReg_regName (inVariant_os d))
  case osLoadin a b n | osStorein a b n =>
    exact encodeWith_regRegNum (osForms_lookup (by simp [osForms, jumpSpellings, -String.reduceToList]))
      (parseReg_regName (inVariant_os a)) (parseReg_regName (inVariant_os b)) (parseNumber_signedDecimal (simm n))
      (ofInt_simm n)
  case osJumpGt n | osJumpEq n | osJumpGe n | osJumpLt n | osJumpNe n | osJumpLe n | osJump n =>
    exact encodeWith_num (osForms_lookup (by simp [osForms, jumpSpellings, -String.reduceToList]))
      (parseNumber_signedDecimal (simm n)) (ofInt_simm n)
  case osInt n =>
    exact encodeWith_num (osForms_lookup (by simp [osForms, jumpSpellings, -String.reduceToList]))
      (parseNumber_decimal (uimm n)) (ofInt_uimm n)
  case osNop | osRti => exact encodeWith_none (osForms_lookup (by simp [osForms, jumpSpellings, -String.reduceToList]))
  all_goals cases hv

/-- The tokens of the canonical line encode to the instruction they were written from. -/
theorem encodeTokens_instrTokens {i : Instr} (hi : i.wellFormed = true) :
    encodeTokens i.variant (instrTokens i) = encoded i := by
  cases hv : i.variant with
  | ti => exact encodeTokens_instrTokens_ti hv hi
  | os => exact encodeTokens_instrTokens_os hv

/-! ## What the encoder can make -/

/-- Every instruction the form makes of registers of the variant is a well-formed instruction of the variant. -/
def TextForm.Makes {n : Nat} (v : Variant) : TextForm n → Prop
  | .regNum make => ∀ d i, Reg.inVariant v d = true → (make d i).wellFormedIn v = true
  | .regNumOrReg makeNum makeReg =>
    (∀ d i, Reg.inVariant v d = true → (makeNum d i).wellFormedIn v = true) ∧
    ∀ d r, Reg.inVariant v d = true → Reg.inVariant v r = true → (makeReg d r).wellFormedIn v = true
  | .regReg make => ∀ d r, Reg.inVariant v d = true → Reg.inVariant v r = true → (make d r).wellFormedIn v = true
  | .regRegNum make =>
    ∀ d r i, Reg.inVariant v d = true → Reg.inVariant v r = true → (make d r i).wellFormedIn v = true
  | .num make => ∀ i, (make i).wellFormedIn v = true
  | .none make => make.wellFormedIn v = true

theorem tiForms_makes : ∀ p ∈ tiForms, p.2.Makes .ti := by
  simp [tiForms, jumpSpellings, TextForm.Makes, Instr.wellFormedIn, Instr.wellFormed, Instr.variant, Instr.regs]
  exact fun d r hd hr => ⟨hd, hr⟩

theorem osForms_makes : ∀ p ∈ osForms, p.2.Makes .os := by
  simp [osForms, jumpSpellings, TextForm.Makes, Instr.wellFormedIn, Instr.wellFormed, Instr.variant, Instr.regs]

theorem regOperand_ok {v : Variant} {t : Text} {r : Reg} (h : regOperand v t = .ok r) : Reg.inVariant v r = true := by
  unfold regOperand at h
  split at h
  next q hq => cases h; exact inVariant_of_parseReg hq
  next => cases h

theorem buildInstr_wellFormed {n : Nat} {v : Variant} {f : TextForm n} {operands : List Text} {i : Instr}
    (hf : f.Makes v) (h : buildInstr v f operands = .ok i) : i.wellFormedIn v = true := by
  unfold buildInstr at h
  split at h
  next make a b =>
    split at h
    · cases h
    next d hd =>
      split at h
      · cases h
      next n _ => cases h; exact hf d n (regOperand_ok hd)
  next makeNum makeReg a b =>
    obtain ⟨hnum, hreg⟩ := hf
    split at h
    · cases h
    next d hd =>
      split at h
      next r hr => cases h; exact hreg d r (regOperand_ok hd) (inVariant_of_parseReg hr)
      next =>
        split at h
        · cases h
        next n _ => cases h; exact hnum d n (regOperand_ok hd)
  next make a b =>
    split at h
    · cases h
    next r hr =>
      split at h
      · cases h
      next d hd => cases h; exact hf r d (regOperand_ok hr) (regOperand_ok hd)
  next make a b c =>
    split at h
    · cases h
    next r hr =>
      split at h
      · cases h
      next d hd =>
        split at h
        · cases h
        next n _ => cases h; exact hf r d n (regOperand_ok hr) (regOperand_ok hd)
  next make a =>
    split at h
    · cases h
    next n _ => cases h; exact hf n
  next make => cases h; exact hf
  next => cases h

theorem mem_of_lookup {β : Type} {l : List (Text × β)} {k : Text} {x : β} (h : l.lookup k = some x) : (k, x) ∈ l := by
  induction l with
  | nil => cases h
  | cons p l ih =>
    rw [List.lookup_cons] at h
    cases hk : k == p.1 with
    | true =>
      rw [hk] at h
      exact List.mem_cons.2 (.inl (Prod.ext (eq_of_beq hk) (Option.some.inj h).symm))
    | false =>
      rw [hk] at h
      exact List.mem_cons_of_mem p (ih h)

theorem regOperand_error {v : Variant} {t : Text} {e : EncodeStatus} (h : regOperand v t = .error e) :
    e = .errBadRegister := by
  unfold regOperand at h
  split at h <;> cases h
  rfl

theorem numOperand_error {n : Nat} {t : Text} {e : EncodeStatus} (h : numOperand n t = .error e) :
    e = .errBadNumber := by
  unfold numOperand at h
  split at h <;> cases h
  rfl

/-- A failing check reports a failure (`30_encoding.md` R118, R119). -/
theorem buildInstr_error {n : Nat} {v : Variant} {f : TextForm n} {operands : List Text} {e : EncodeStatus}
    (h : buildInstr v f operands = .error e) : e = .errBadRegister ∨ e = .errBadNumber ∨ e = .errOperandCount := by
  unfold buildInstr at h
  repeat' split at h
  all_goals cases h
  all_goals
    first
    | exact .inl (regOperand_error ‹_›)
    | exact .inr (.inl (numOperand_error ‹_›))
    | exact .inr (.inr rfl)

/-- All that `encode` returns: a failure without a word, or the word of a well-formed instruction. -/
theorem encodeWith_cases {n : Nat} {v : Variant} {forms : List (Text × TextForm n)} (hforms : ∀ p ∈ forms, p.2.Makes v)
    (tokens : List Text) :
    ((encodeWith v forms tokens).status ≠ .ok ∧ (encodeWith v forms tokens).word = none) ∨
    ∃ i, i.wellFormedIn v = true ∧ encodeWith v forms tokens = encoded i := by
  cases tokens with
  | nil => exact .inl ⟨nofun, rfl⟩
  | cons m operands =>
    cases hm : forms.lookup m with
    | none => exact .inl (by simp [encodeWith, hm])
    | some f =>
      cases hb : buildInstr v f operands with
      | ok i => exact .inr ⟨i, buildInstr_wellFormed (hforms _ (mem_of_lookup hm)) hb, by simp [encodeWith, hm, hb, encoded]⟩
      | error e =>
        have he : e ≠ .ok := by obtain rfl | rfl | rfl := buildInstr_error hb <;> exact nofun
        exact .inl (by simp [encodeWith, hm, hb, he])

theorem encodeTokens_cases (v : Variant) (tokens : List Text) :
    ((encodeTokens v tokens).status ≠ .ok ∧ (encodeTokens v tokens).word = none) ∨
    ∃ i, i.wellFormedIn v = true ∧ encodeTokens v tokens = encoded i := by
  cases v with
  | ti => exact encodeWith_cases tiForms_makes _
  | os => exact encodeWith_cases osForms_makes _

/-! ## The obligations -/

theorem decodeText_of_ok {v : Variant} {w : Word} {i : Instr} (h : decode v w = .ok i) : decodeText v w = instrText i := by
  simp only [decodeText, h]

/-- Settles O7: the line splits into its tokens, and these encode to the decoded instruction, whose word is the canonical
word. -/
theorem textRoundTrip : Obligations.TextRoundTrip := by
  intro v w i h
  have htokens : splitTokens (decodeText v w) = instrTokens i := by
    rw [decodeText_of_ok h]
    exact splitTokens_joinTokens _ (isToken_of_mem_instrTokens i)
  rw [htokens, ← encode_of_decode h, ← decode_variant v w i h]
  exact encodeTokens_instrTokens (wellFormed_of_decode h)

/-- Both parts of an encoding that succeeds. -/
theorem status_and_word {r : EncodeResult} {i : Instr} (h : r = encoded i) : r.status = .ok ∧ r.word = some (encode i) := by
  subst h
  exact ⟨rfl, rfl⟩

/-- Settles O8: each mnemonic by its entry in the table, the operand by the number the token stands for. -/
theorem numbersAnySize : Obligations.NumbersAnySize := by
  intro t z ht
  have hz : parseNumber (upper t) = some z := ht.elim id fun h => h ▸ parseNumber_signedDecimal z
  refine ⟨fun p hp d hd => ?_, fun p hp => ?_, fun p hp d hd => ?_, fun p hp b hb r hr => ?_, fun p hp => ?_⟩
  · have hm : (p.1.toList, .regNum p.2) ∈ tiForms := by
      revert p
      simp [tiForms, jumpSpellings, -String.reduceToList]
    exact status_and_word (encodeWith_regNum (tiForms_lookup hm)
      (parseReg_regName ((mem_regsOf_iff .ti d).1 hd)) hz rfl)
  · have hm : (p.1.toList, .num p.2) ∈ tiForms := by
      revert p
      simp [tiForms, jumpSpellings, -String.reduceToList]
    exact status_and_word (encodeWith_num (tiForms_lookup hm) hz rfl)
  · have hm : (p.1.toList, .regNum p.2) ∈ osForms ∨ ∃ makeReg, (p.1.toList, .regNumOrReg p.2 makeReg) ∈ osForms := by
      revert p
      simp [osForms, jumpSpellings, exists_or, -String.reduceToList]
    have hd' := parseReg_regName ((mem_regsOf_iff .os d).1 hd)
    obtain hm | hm := hm
    · exact status_and_word (encodeWith_regNum (osForms_lookup hm) hd' hz rfl)
    · exact status_and_word (encodeWith_regNumOrReg_num (hm.imp fun _ => osForms_lookup) hd' hz rfl)
  · have hm : (p.1.toList, .regRegNum p.2) ∈ osForms := by
      revert p
      simp [osForms, jumpSpellings, -String.reduceToList]
    exact status_and_word (encodeWith_regRegNum (osForms_lookup hm) (parseReg_regName ((mem_regsOf_iff .os b).1 hb))
      (parseReg_regName ((mem_regsOf_iff .os r).1 hr)) hz rfl)
  · have hm : (p.1.toList, .num p.2) ∈ osForms := by
      revert p
      simp [osForms, jumpSpellings, -String.reduceToList]
    exact status_and_word (encodeWith_num (osForms_lookup hm) hz rfl)

/-- Settles O9: `encode` upper-cases its tokens, and upper-casing twice is upper-casing once. -/
theorem encodeCaseInsensitive : Obligations.EncodeCaseInsensitive := by
  intro v tokens
  cases v <;> simp only [encodeTokens, map_upper_map_upper]

/-- Settles O10: a success carries the word of a well-formed instruction of the variant, a failure none. -/
theorem encodeWordOnSuccess : Obligations.EncodeWordOnSuccess := by
  intro v tokens
  obtain ⟨hstatus, hword⟩ | ⟨i, hi, h⟩ := encodeTokens_cases v tokens
  · simp [hstatus, hword]
  · obtain ⟨rfl, hwf⟩ := (wellFormedIn_iff v i).1 hi
    rw [h]
    refine ⟨by simp [encoded], fun w hw => ?_⟩
    obtain rfl : encode i = w := Option.some.inj hw
    exact ⟨isCanonical_encode hwf, i, decode_encode hwf⟩

end Sys2Proof.Machine

namespace Sys2Proof

/-- Settles O12: each spelling in each variant by evaluation. -/
theorem jumpSpellings : Obligations.JumpSpellings := by
  unfold Obligations.JumpSpellings
  decide

end Sys2Proof
end

section
/-! PROOFS. The family `40_compute.md`: each COMPUTE means one of the shared shapes, and the shapes are settled once, for
the functions on patterns and for DIV and MOD. -/

namespace Sys2Proof.Machine

/-! ## The functions on patterns -/

/-- COMPUTE function `f` is `g` on the 32-bit patterns of its operands, and never faults. -/
def IsPatternFn (f : AluFn) (g : Word → Word → Word) : Prop :=
  ∀ a b : Int, aluApply f a b = .ok (g (wrap a) (wrap b))

theorem isPatternFn_sub : IsPatternFn .sub (fun x y => x - y) := aluApply_sub
theorem isPatternFn_add : IsPatternFn .add (fun x y => x + y) := aluApply_add
theorem isPatternFn_mul : IsPatternFn .mul (fun x y => x * y) := aluApply_mul
theorem isPatternFn_xnor : IsPatternFn .xnor (fun x y => ~~~(x ^^^ y)) := fun _ _ => rfl
theorem isPatternFn_or : IsPatternFn .or (fun x y => x ||| y) := fun _ _ => rfl
theorem isPatternFn_and : IsPatternFn .and (fun x y => x &&& y) := fun _ _ => rfl

theorem compute_of_ok {f : AluFn} {d : Reg} {b : Int} {s : State} {v : Word} (h : aluApply f (val s d) b = .ok v) :
    compute f d b s = .next (writeBack d v s) := by
  simp only [compute, h]

theorem compute_of_error {f : AluFn} {d : Reg} {b : Int} {s : State} {e : Fault} (h : aluApply f (val s d) b = .error e) :
    compute f d b s = .fault e := by
  simp only [compute, h]

/-- A function on patterns leaves its result in the destination, which is also the first source. -/
theorem compute_pattern {f : AluFn} {g : Word → Word → Word} (hf : IsPatternFn f g) {d : Reg} {b : Int} {y : Word}
    (hb : wrap b = y) (s : State) : compute f d b s = .next (writeBack d (g (readReg s d) y) s) := by
  subst hb
  rw [compute_of_ok (hf _ _), wrap_val]

/-- An instruction that means COMPUTE by a function on patterns completes. -/
theorem completes_of_exec_eq_compute {i : Instr} {s : State} {f : AluFn} {g : Word → Word → Word} (hf : IsPatternFn f g)
    {d : Reg} {b : Int} {y : Word} (hexec : exec i s = compute f d b s) (hb : wrap b = y) :
    Completes i s (WritesReg d (g (readReg s d) y) s) :=
  ⟨_, hexec.trans (compute_pattern hf hb s), writeBack_writesReg d _ s⟩

/-! ## DIV and MOD -/

/-- Division rounding toward zero has the quotient and the remainder of `40_compute.md` R158. -/
theorem truncDiv_tdiv (a : Int) {b : Int} (hb : b ≠ 0) : TruncDiv a b (Int.tdiv a b) (a - b * Int.tdiv a b) := by
  have hmod : a - b * Int.tdiv a b = Int.tmod a b := by
    have := Int.mul_tdiv_add_tmod a b
    omega
  refine ⟨by omega, ?_, ?_⟩
  · rw [hmod, Int.natAbs_tmod]
    exact Nat.mod_lt _ (Int.natAbs_pos.2 hb)
  · rw [hmod]
    by_cases hm : Int.tmod a b = 0
    · exact .inl hm
    · rw [Int.sign_tmod, if_neg fun hdvd => hm (Int.tmod_eq_zero_of_dvd hdvd)]
      exact .inr rfl

theorem aluApply_div (a : Int) {b : Int} (hb : b ≠ 0) : aluApply .div a b = .ok (BitVec.ofInt 32 (Int.tdiv a b)) :=
  if_neg hb

theorem aluApply_mod (a : Int) {b : Int} (hb : b ≠ 0) :
    aluApply .mod a b = .ok (BitVec.ofInt 32 (a - b * Int.tdiv a b)) :=
  if_neg hb

theorem compute_div_zero (d : Reg) (s : State) : compute .div d 0 s = .fault .divideByZero :=
  compute_of_error rfl

theorem compute_mod_zero (d : Reg) (s : State) : compute .mod d 0 s = .fault .divideByZero :=
  compute_of_error rfl

theorem val_eq_zero_iff (s : State) (r : Reg) : val s r = 0 ↔ readReg s r = 0#32 := by
  refine ⟨fun h => ?_, fun h => ?_⟩
  · rw [← wrap_val, h]; rfl
  · unfold val
    split
    next hr => subst hr; rw [show s.pc = 0#32 from h]; rfl
    next => rw [h]; rfl

theorem toInt_ne_zero {n : Nat} {x : BitVec n} (h : x ≠ 0#n) : x.toInt ≠ 0 := fun h0 =>
  h (BitVec.toInt_inj.1 (h0.trans BitVec.toInt_zero.symm))

/-- Instructions that mean DIV and MOD by the same operand: quotient and remainder, or the fault on zero. -/
theorem divMod_of_exec_eq_compute {iDiv iMod : Instr} {s : State} {d : Reg} {b : Int}
    (hdiv : exec iDiv s = compute .div d b s) (hmod : exec iMod s = compute .mod d b s) :
    (b ≠ 0 → ∃ q m : Int, TruncDiv (val s d) b q m ∧ Completes iDiv s (WritesReg d (BitVec.ofInt 32 q) s) ∧
      Completes iMod s (WritesReg d (BitVec.ofInt 32 m) s)) ∧
    (b = 0 → exec iDiv s = .fault .divideByZero ∧ exec iMod s = .fault .divideByZero) := by
  refine ⟨fun hb => ⟨_, _, truncDiv_tdiv (val s d) hb, ?_, ?_⟩, fun hb => ?_⟩
  · exact ⟨_, hdiv.trans (compute_of_ok (aluApply_div _ hb)), writeBack_writesReg d _ s⟩
  · exact ⟨_, hmod.trans (compute_of_ok (aluApply_mod _ hb)), writeBack_writesReg d _ s⟩
  · subst hb
    exact ⟨hdiv.trans (compute_div_zero d s), hmod.trans (compute_mod_zero d s)⟩

/-! ## Memory operands -/

theorem computeTiMem_eq (f : AluFn) (d : Reg) (i : BitVec 24) (s : State) :
    computeTiMem f d i s = compute f d (Memory.read s.mem i.toNat).toInt s := by
  rw [computeTiMem, tiMemRead, eaDirectTi_toNat]

theorem computeOsMem_of_read {s s1 : State} {i : BitVec 22} {m : Word} (h : osMemRead s (eaDirectOs s i) = .ok (m, s1))
    (f : AluFn) (d : Reg) : computeOsMem f d i s = compute f d m.toInt s1 := by
  simp only [computeOsMem, h]

/-- A write-back after a read: the register is written, and the I/O record is the one the read left. -/
theorem writeBack_writesRegIo {s s1 : State} {a m : Word} (h : osMemRead s a = .ok (m, s1)) (d : Reg) (v : Word) :
    WritesRegIo d v s s1 (writeBack d v s1) := by
  obtain ⟨hd, hpc, ⟨hreg, hfetch, hstack, hisr, hstatus, hconfig⟩, hmem, hio⟩ := writeBack_writesReg d v s1
  have hframe := osMemRead_frame h
  refine ⟨hd, fun hne => ?_, ⟨fun r hr hr' => ?_, ?_, ?_, ?_, ?_, ?_⟩, fun a => ?_, hio⟩
  · rw [hpc hne, hframe]
  · rw [hreg r hr hr', readReg_osMemRead h]
  · rw [hfetch, hframe]
  · rw [hstack, hframe]
  · rw [hisr, hframe]
  · rw [hstatus, hframe]
  · rw [hconfig, hframe]
  · rw [hmem a, hframe]

/-- An OS instruction that means COMPUTE on a memory operand completes where the operand can be read. -/
theorem completes_of_exec_eq_computeOsMem {j : Instr} {s s1 : State} {f : AluFn} {g : Word → Word → Word}
    (hf : IsPatternFn f g) {d : Reg} {i : BitVec 22} {m : Word} (hread : osMemRead s (eaDirectOs s i) = .ok (m, s1))
    (hexec : exec j s = computeOsMem f d i s) : Completes j s (WritesRegIo d (g (readReg s d) m) s s1) := by
  refine ⟨_, hexec.trans ((computeOsMem_of_read hread f d).trans (compute_pattern hf (wrap_toInt m) s1)), ?_⟩
  rw [readReg_osMemRead hread]
  exact writeBack_writesRegIo hread d _

/-! ## The obligations -/

/-- Settles O13: each means COMPUTE by its function on the sign-extended field. -/
theorem tiComputeImmediate : Obligations.TiComputeImmediate := fun _ _ i =>
  have hi : wrap (simm i) = i.signExtend 32 := wrap_simm i
  ⟨completes_of_exec_eq_compute isPatternFn_sub rfl hi, completes_of_exec_eq_compute isPatternFn_add rfl hi,
    completes_of_exec_eq_compute isPatternFn_xnor rfl hi, completes_of_exec_eq_compute isPatternFn_or rfl hi,
    completes_of_exec_eq_compute isPatternFn_and rfl hi⟩

/-- Settles O14: each means COMPUTE by its function on the cell the field addresses. -/
theorem tiComputeMemory : Obligations.TiComputeMemory := fun s d i =>
  have hm := wrap_toInt (Memory.read s.mem i.toNat)
  ⟨completes_of_exec_eq_compute isPatternFn_sub (computeTiMem_eq .sub d i s) hm,
    completes_of_exec_eq_compute isPatternFn_add (computeTiMem_eq .add d i s) hm,
    completes_of_exec_eq_compute isPatternFn_xnor (computeTiMem_eq .xnor d i s) hm,
    completes_of_exec_eq_compute isPatternFn_or (computeTiMem_eq .or d i s) hm,
    completes_of_exec_eq_compute isPatternFn_and (computeTiMem_eq .and d i s) hm⟩

/-- Settles O15, as O13. -/
theorem osComputeImmediate : Obligations.OsComputeImmediate := fun _ _ i =>
  have hi : wrap (simm i) = i.signExtend 32 := wrap_simm i
  ⟨completes_of_exec_eq_compute isPatternFn_mul rfl hi, completes_of_exec_eq_compute isPatternFn_sub rfl hi,
    completes_of_exec_eq_compute isPatternFn_add rfl hi, completes_of_exec_eq_compute isPatternFn_xnor rfl hi,
    completes_of_exec_eq_compute isPatternFn_or rfl hi, completes_of_exec_eq_compute isPatternFn_and rfl hi⟩

/-- Settles O16: both mean COMPUTE on the signed field. -/
theorem osDivModImmediate : Obligations.OsDivModImmediate := by
  intro s d i
  obtain ⟨hdiv, hzero⟩ := divMod_of_exec_eq_compute (iDiv := .osDivi d i) (iMod := .osModi d i) (s := s) rfl rfl
  exact ⟨fun hi => hdiv (toInt_ne_zero hi), fun hi => hzero (by rw [hi]; rfl)⟩

/-- Settles O17: each means COMPUTE by its function on the word read. -/
theorem osComputeMemory : Obligations.OsComputeMemory := fun _ _ _ _ _ h =>
  ⟨completes_of_exec_eq_computeOsMem isPatternFn_mul h rfl, completes_of_exec_eq_computeOsMem isPatternFn_sub h rfl,
    completes_of_exec_eq_computeOsMem isPatternFn_add h rfl, completes_of_exec_eq_computeOsMem isPatternFn_xnor h rfl,
    completes_of_exec_eq_computeOsMem isPatternFn_or h rfl, completes_of_exec_eq_computeOsMem isPatternFn_and h rfl⟩

/-- Settles O18: after the read both mean COMPUTE on the word read, and the read leaves the readings of the registers. -/
theorem osDivModMemory : Obligations.OsDivModMemory := by
  intro s s1 d i w h
  have hdiv : exec (.osDiv d i) s = compute .div d w.toInt s1 := computeOsMem_of_read h .div d
  have hmod : exec (.osMod d i) s = compute .mod d w.toInt s1 := computeOsMem_of_read h .mod d
  refine ⟨fun hw => ⟨_, _, truncDiv_tdiv (val s d) (toInt_ne_zero hw), ?_, ?_⟩, fun hw => ?_⟩
  · rw [← val_osMemRead h d]
    exact ⟨_, hdiv.trans (compute_of_ok (aluApply_div _ (toInt_ne_zero hw))), writeBack_writesRegIo h d _⟩
  · rw [← val_osMemRead h d]
    exact ⟨_, hmod.trans (compute_of_ok (aluApply_mod _ (toInt_ne_zero hw))), writeBack_writesRegIo h d _⟩
  · subst hw
    exact ⟨hdiv.trans (compute_div_zero d s1), hmod.trans (compute_mod_zero d s1)⟩

/-- Settles O19: the read comes first, and its fault is the outcome. -/
theorem osComputeUnmapped : Obligations.OsComputeUnmapped := by
  intro s d i e h
  obtain rfl := osMemRead_error h
  have hfault (f : AluFn) : computeOsMem f d i s = .fault .unmappedAccess := by simp only [computeOsMem, h]
  refine ⟨rfl, ?_⟩
  simp only [List.forall_mem_cons, List.not_mem_nil, false_imp_iff, implies_true, and_true]
  exact ⟨hfault .mul, hfault .div, hfault .sub, hfault .add, hfault .xnor, hfault .or, hfault .and, hfault .mod⟩

/-- Settles O20: each means COMPUTE by its function on the reading of the second register. -/
theorem osComputeRegister : Obligations.OsComputeRegister := fun s _ r =>
  have hr := wrap_val s r
  ⟨completes_of_exec_eq_compute isPatternFn_mul rfl hr, completes_of_exec_eq_compute isPatternFn_sub rfl hr,
    completes_of_exec_eq_compute isPatternFn_add rfl hr, completes_of_exec_eq_compute isPatternFn_xnor rfl hr,
    completes_of_exec_eq_compute isPatternFn_or rfl hr, completes_of_exec_eq_compute isPatternFn_and rfl hr⟩

/-- Settles O21: both mean COMPUTE on the reading of the second register, which is zero where its pattern is. -/
theorem osDivModRegister : Obligations.OsDivModRegister := by
  intro s d r
  obtain ⟨hdiv, hzero⟩ := divMod_of_exec_eq_compute (iDiv := .osDivReg d r) (iMod := .osModReg d r) (s := s) rfl rfl
  exact ⟨fun hr => hdiv (mt (val_eq_zero_iff s r).1 hr), fun hr => hzero ((val_eq_zero_iff s r).2 hr)⟩

end Sys2Proof.Machine
end

section
/-! PROOFS. The families `20_memory.md`, `41_load.md` and the OS stores of `42_store_move.md`: what an access does in each
range of the address space, and with it the loads and stores. -/

namespace Sys2Proof.Machine

/-! ## The OS address space, device by device -/

section Access

variable {s : State} {a : Word}

theorem osMemRead_of_romWord {w : Word} (hd : device a = .rom) (hw : romWord s.config a = some w) :
    osMemRead s a = .ok (w, s) := by
  simp only [osMemRead, hd, hw]

theorem osMemRead_of_romWord_none (hd : device a = .rom) (hw : romWord s.config a = none) :
    osMemRead s a = .error .unmappedAccess := by
  simp only [osMemRead, hd, hw]

theorem osMemRead_of_port {p : IoPort} (hd : device a = .io) (hp : ioPort a = some p) :
    osMemRead s a = .ok (uartValue s, recordEvent (uartAdvance s) (.read p (uartValue s))) := by
  simp only [osMemRead, hd, hp]

theorem osMemRead_of_no_port (hd : device a = .io) (hp : ioPort a = none) : osMemRead s a = .error .unmappedAccess := by
  simp only [osMemRead, hd, hp]

theorem osMemRead_of_ram (hd : device a = .ram) : osMemRead s a = .ok (Memory.read s.mem a.toNat, s) := by
  simp only [osMemRead, hd]

theorem osMemWrite_of_rom (hd : device a = .rom) (v : Word) : osMemWrite s a v = .error .storeToRom := by
  simp only [osMemWrite, hd]

theorem osMemWrite_of_port {p : IoPort} (hd : device a = .io) (hp : ioPort a = some p) (v : Word) :
    osMemWrite s a v = .ok (recordEvent s (.write p v)) := by
  simp only [osMemWrite, hd, hp]

theorem osMemWrite_of_no_port (hd : device a = .io) (hp : ioPort a = none) (v : Word) :
    osMemWrite s a v = .error .unmappedAccess := by
  simp only [osMemWrite, hd, hp]

theorem osMemWrite_of_ram (hd : device a = .ram) (v : Word) :
    osMemWrite s a v = .ok { s with mem := Memory.write s.mem a.toNat v } := by
  simp only [osMemWrite, hd]

end Access

/-- The I/O window above its three ports (`20_memory.md` R62). -/
theorem ioPort_eq_none {a : Word} (hd : device a = .io) (ha : 2 ^ 30 + 3 ≤ a.toNat) : ioPort a = none := by
  rw [ioPort_index a hd, if_neg (by omega), if_neg (by omega), if_neg (by omega)]

theorem romWord_eq (c : Config) (a : Word) :
    romWord c a = if c.codeBase.toNat ≤ a.toNat then (programWords c)[a.toNat - c.codeBase.toNat]? else none := rfl

theorem romWord_of_program {c : Config} {a w : Word} (hlo : c.codeBase.toNat ≤ a.toNat)
    (hw : (programWords c)[a.toNat - c.codeBase.toNat]? = some w) : romWord c a = some w := by
  rw [romWord_eq, if_pos hlo, hw]

theorem romWord_outside {c : Config} {a : Word}
    (h : a.toNat < c.codeBase.toNat ∨ c.codeBase.toNat + (programWords c).length ≤ a.toNat) : romWord c a = none := by
  rw [romWord_eq]
  split
  next hlo => exact List.getElem?_eq_none (by omega)
  next => rfl

/-! ## Loads -/

/-- An OS instruction that means a load completes where the cell can be read. -/
theorem completes_of_exec_eq_loadOs {j : Instr} {s s1 : State} {d : Reg} {a v : Word} (hexec : exec j s = loadOs d a s)
    (hread : osMemRead s a = .ok (v, s1)) : Completes j s (WritesRegIo d v s s1) := by
  refine ⟨writeBack d v s1, ?_, writeBack_writesRegIo hread d v⟩
  simp only [hexec, loadOs, hread]

theorem loadOs_fault {s : State} {a : Word} {e : Fault} (d : Reg) (hread : osMemRead s a = .error e) :
    loadOs d a s = .fault .unmappedAccess := by
  simp only [loadOs, hread, osMemRead_error hread]

theorem exec_osLoadin (r d : Reg) (i : BitVec 22) (s : State) :
    exec (.osLoadin r d i) s = loadOs d (readReg s r + i.signExtend 32) s := by
  rw [← eaIndexed_eq]
  rfl

/-! ## OS stores -/

theorem exec_osStorein (d r : Reg) (i : BitVec 22) (s : State) :
    exec (.osStorein d r i) s = storeOs (readReg s d + i.signExtend 32) (readReg s r) s := by
  rw [← eaIndexed_eq]
  rfl

theorem storeOs_of_ram {a : Word} (hd : device a = .ram) (v : Word) (s : State) :
    storeOs a v s = .next (nextPc { s with mem := Memory.write s.mem a.toNat v }) := by
  simp only [storeOs, osMemWrite_of_ram hd v]

/-- A write of the memory alone leaves every register. -/
theorem readReg_setMem (s : State) (m : Memory) (r : Reg) : readReg { s with mem := m } r = readReg s r := by
  cases r <;> rfl

/-- The write of one cell, followed by the advance of the program counter. -/
theorem nextPc_memory_write_writesCell {s : State} (hwf : Memory.wf s.mem = true) (a : Nat) (v : Word) :
    WritesCell a v s (nextPc { s with mem := Memory.write s.mem a v }) := by
  refine ⟨memory_read_write_same s.mem hwf a v, fun b hb => memory_read_write_other s.mem a b v hb,
    rfl, ⟨fun r hr _ => ?_, rfl, rfl, rfl, rfl, rfl⟩, rfl, rfl, rfl⟩
  rw [readReg_nextPc _ r hr, readReg_setMem]

theorem completes_of_exec_eq_storeOs_ram {j : Instr} {s : State} {a v : Word} (hwf : Memory.wf s.mem = true)
    (hexec : exec j s = storeOs a v s) (ha : 2 ^ 31 ≤ a.toNat) : Completes j s (WritesCell a.toNat v s) :=
  ⟨_, hexec.trans (storeOs_of_ram ((device_ram_iff a).2 ha) v s), nextPc_memory_write_writesCell hwf a.toNat v⟩

theorem nextPc_recordEvent_writesPort (s : State) (e : IoEvent) : WritesPort e s (nextPc (recordEvent s e)) := by
  refine ⟨rfl, rfl, rfl, rfl, ⟨fun r hr _ => ?_, rfl, rfl, rfl, rfl, rfl⟩, fun _ => rfl⟩
  rw [readReg_nextPc _ r hr, readReg_recordEvent]

theorem completes_of_exec_eq_storeOs_port {j : Instr} {s : State} {a v : Word} {p : IoPort}
    (hexec : exec j s = storeOs a v s) (hd : device a = .io) (hp : ioPort a = some p) :
    Completes j s (WritesPort (.write p v) s) := by
  refine ⟨nextPc (recordEvent s (.write p v)), ?_, nextPc_recordEvent_writesPort s _⟩
  simp only [hexec, storeOs, osMemWrite_of_port hd hp v]

theorem storeOs_rom {a : Word} (ha : a.toNat < 2 ^ 30) (v : Word) (s : State) : storeOs a v s = .fault .storeToRom := by
  simp only [storeOs, osMemWrite_of_rom ((device_rom_iff a).2 ha) v]

theorem storeOs_unmapped {a : Word} (hlo : 2 ^ 30 + 3 ≤ a.toNat) (hhi : a.toNat < 2 ^ 31) (v : Word) (s : State) :
    storeOs a v s = .fault .unmappedAccess := by
  have hd : device a = .io := (device_io_iff a).2 ⟨by omega, hhi⟩
  simp only [storeOs, osMemWrite_of_no_port hd (ioPort_eq_none hd hlo) v]

/-! ## The obligations -/

/-- Settles O22: each load is one write-back of the cell its address names, or of the field. -/
theorem tiLoads : Obligations.TiLoads := by
  intro s d i
  refine ⟨?_, ?_, ?_, ⟨_, rfl, writeBack_writesReg d (i.signExtend 32) s⟩⟩
  · rw [← eaDirectTi_toNat i]
    exact ⟨_, rfl, writeBack_writesReg d _ s⟩
  · rw [← eaIndexed_eq s.in1 i]
    exact ⟨_, rfl, writeBack_writesReg d _ s⟩
  · rw [← eaIndexed_eq s.in2 i]
    exact ⟨_, rfl, writeBack_writesReg d _ s⟩

/-- Settles O23: both memory loads mean `loadOs`, which completes or faults as its read does. -/
theorem osLoads : Obligations.OsLoads := fun s r d i =>
  ⟨fun _ _ h => completes_of_exec_eq_loadOs rfl h, fun _ h => loadOs_fault d h,
    fun _ _ h => completes_of_exec_eq_loadOs (exec_osLoadin r d i s) h,
    fun _ h => (exec_osLoadin r d i s).trans (loadOs_fault d h), ⟨_, rfl, writeBack_writesReg d (i.signExtend 32) s⟩⟩

/-- Settles O25: both stores mean `storeOs`, which in RAM writes one cell. -/
theorem osStoresRam : Obligations.OsStoresRam := fun s d r i hwf =>
  ⟨completes_of_exec_eq_storeOs_ram hwf rfl, completes_of_exec_eq_storeOs_ram hwf (exec_osStorein d r i s)⟩

/-- Settles O26: both stores mean `storeOs`, which records the event at a port and faults elsewhere. -/
theorem osStoresDevices : Obligations.OsStoresDevices := fun s d r i =>
  ⟨fun _ => completes_of_exec_eq_storeOs_port rfl, fun _ => completes_of_exec_eq_storeOs_port (exec_osStorein d r i s),
    fun h => storeOs_rom h _ s, fun h => (exec_osStorein d r i s).trans (storeOs_rom h _ s),
    fun hlo hhi => storeOs_unmapped hlo hhi _ s, fun hlo hhi => (exec_osStorein d r i s).trans (storeOs_unmapped hlo hhi _ s)⟩

theorem tiMemRead_tiMemWrite_same {s : State} (hwf : Memory.wf s.mem = true) (a v : Word) :
    tiMemRead (tiMemWrite s a v) a = v :=
  memory_read_write_same s.mem hwf a.toNat v

theorem tiMemRead_tiMemWrite_other (s : State) (a v : Word) {b : Word} (hb : b ≠ a) :
    tiMemRead (tiMemWrite s a v) b = tiMemRead s b :=
  memory_read_write_other s.mem a.toNat b.toNat v fun h => hb (BitVec.eq_of_toNat_eq h)

/-- A segment loaded into memory: its words from the first cell up, and every other cell as before
(`20_memory.md` R75). -/
theorem memory_read_load (ws : List Word) (m : Memory) (hwf : Memory.wf m = true) (a b : Nat) :
    Memory.read (Memory.load m a ws) b = if a ≤ b then (ws[b - a]?).getD (Memory.read m b) else Memory.read m b := by
  induction ws generalizing m a with
  | nil => simp [Memory.load]
  | cons w ws ih =>
    rw [Memory.load, ih _ (memory_write_wf m hwf a w)]
    obtain hlt | rfl | hgt := lt_trichotomy b a
    · rw [if_neg (by omega), if_neg (by omega), memory_read_write_other m a b w hlt.ne]
    · simp [memory_read_write_same m hwf b w]
    · obtain ⟨k, rfl⟩ := Nat.exists_eq_add_of_lt hgt
      rw [if_pos (by omega), if_pos (by omega), memory_read_write_other m a _ w (by omega),
        show a + k + 1 - a = k + 1 by omega, show a + k + 1 - (a + 1) = k by omega, List.getElem?_cons_succ]

theorem resetWith_ti_mem {c : Config} (hv : c.variant = .ti) : (State.resetWith c).mem = Memory.load [] 0 c.initData := by
  simp only [State.resetWith, hv]

theorem resetWith_os_mem {c : Config} (hv : c.variant = .os) :
    (State.resetWith c).mem = Memory.load [] c.dsReset.toNat c.initData := by
  simp only [State.resetWith, hv]

theorem construct_eq_some_iff (c : Config) (s : State) :
    construct c = some s ↔ configValid c = true ∧ State.resetWith c = s := by
  simp [construct]

/-- Settles O34: memory as a map, and for a fresh core the segment loaded from cell 0. -/
theorem tiMemory : Obligations.TiMemory := by
  refine ⟨fun s a v hwf => ⟨tiMemRead_tiMemWrite_same hwf a v, fun b => tiMemRead_tiMemWrite_other s a v, rfl,
    tiMemWrite_wf s hwf a v⟩, fun c s a hv hc ha => ?_⟩
  obtain ⟨-, rfl⟩ := (construct_eq_some_iff c s).1 hc
  rw [tiMemRead, resetWith_ti_mem hv, memory_read_load _ _ rfl, if_pos (Nat.zero_le _),
    List.getElem?_eq_none (by omega)]
  rfl

/-- Settles O35: each range is a device, or a part of one. -/
theorem osMemoryRead : Obligations.OsMemoryRead := by
  intro s a
  refine ⟨fun hrom hlo hhi => ?_, fun hrom hout => ?_, fun ha => ?_, fun ha => ?_, fun ha => ?_, fun hlo hhi => ?_,
    fun hram => osMemRead_of_ram ((device_ram_iff a).2 hram)⟩
  · have hw := List.getElem?_eq_getElem (l := programWords s.config) (i := a.toNat - s.config.codeBase.toNat) (by omega)
    exact ⟨_, hw, osMemRead_of_romWord ((device_rom_iff a).2 hrom) (romWord_of_program hlo hw)⟩
  · exact osMemRead_of_romWord_none ((device_rom_iff a).2 hrom) (romWord_outside hout)
  · subst ha; exact osMemRead_of_port (by decide) (by decide)
  · subst ha; exact osMemRead_of_port (by decide) (by decide)
  · subst ha; exact osMemRead_of_port (by decide) (by decide)
  · have hd : device a = .io := (device_io_iff a).2 ⟨by omega, hhi⟩
    exact osMemRead_of_no_port hd (ioPort_eq_none hd hlo)

/-- Settles O36: each range is a device, or a part of one. -/
theorem osMemoryWrite : Obligations.OsMemoryWrite := by
  intro s a v
  refine ⟨fun hrom => osMemWrite_of_rom ((device_rom_iff a).2 hrom) v, fun ha => ?_, fun ha => ?_, fun ha => ?_,
    fun hlo hhi => ?_, fun hram hwf => ?_⟩
  · subst ha; exact osMemWrite_of_port (by decide) (by decide) v
  · subst ha; exact osMemWrite_of_port (by decide) (by decide) v
  · subst ha; exact osMemWrite_of_port (by decide) (by decide) v
  · have hd : device a = .io := (device_io_iff a).2 ⟨by omega, hhi⟩
    exact osMemWrite_of_no_port hd (ioPort_eq_none hd hlo) v
  · have hd : device a = .ram := (device_ram_iff a).2 hram
    refine ⟨_, osMemWrite_of_ram hd v, ?_, fun b hb => memory_read_write_other s.mem a.toNat b v hb,
      readReg_setMem s _, ⟨fun r _ _ => readReg_setMem s _ r, rfl, rfl, rfl, rfl, rfl⟩, rfl, rfl, rfl⟩
    rw [osMemRead_of_ram hd, memory_read_write_same s.mem hwf]

theorem eaIndexed_toNat {n : Nat} (base : Word) (i : BitVec n) :
    ((eaIndexed base i).toNat : Int) = (base.toNat + i.toInt) % 2 ^ 32 := by
  rw [eaIndexed, wrap, BitVec.toNat_ofInt, simm]
  omega

/-- Settles O37: the numbers the three address forms stand for. -/
theorem effectiveAddresses : Obligations.EffectiveAddresses :=
  ⟨eaDirectTi_toNat, eaDirectOs_toNat, eaIndexed_toNat, eaIndexed_toNat⟩

/-- Settles O38: each store writes the cell its address names, leaves IN1 and IN2, and each load reads its cell. -/
theorem tiStoreThenLoad : Obligations.TiStoreThenLoad := by
  intro s d i j hwf p hp q hq hpq
  have hstore : exec p.1 s = storeTi p.2 s := by
    clear hpq
    revert p
    simp only [List.forall_mem_cons, List.not_mem_nil, false_imp_iff, implies_true, and_true, ← eaIndexed_eq]
    exact ⟨rfl, rfl, rfl⟩
  have hload (t : State) (h1 : t.in1 = s.in1) (h2 : t.in2 = s.in2) : exec q.1 t = loadTi d q.2 t := by
    clear hpq
    revert q
    simp only [List.forall_mem_cons, List.not_mem_nil, false_imp_iff, implies_true, and_true, ← eaIndexed_eq, ← h1, ← h2]
    exact ⟨rfl, rfl, rfl⟩
  have hcell : tiMemRead (tiMemWrite s p.2 s.acc) q.2 = s.acc := hpq ▸ tiMemRead_tiMemWrite_same hwf p.2 s.acc
  exact ⟨_, hstore, _, hload _ rfl rfl, (readReg_writeBack_same d _ _).trans hcell⟩

/-- A load from the RAM cell just stored to. -/
theorem load_completes_of_exec_eq_loadOs {j : Instr} {t : State} {d : Reg} {a v : Word} (hexec : exec j t = loadOs d a t)
    (hd : device a = .ram) (hv : Memory.read t.mem a.toNat = v) : Completes j t fun u => readReg u d = v := by
  obtain ⟨u, hu, hreg, -⟩ := completes_of_exec_eq_loadOs hexec (osMemRead_of_ram hd)
  exact ⟨u, hu, hreg.trans hv⟩

/-- Settles O39: the store writes the RAM cell its address names, and each load reads the cell its own address names. -/
theorem osStoreThenLoad : Obligations.OsStoreThenLoad := by
  intro s b c d r i j hwf p hp hram
  have hd : device p.2 = .ram := (device_ram_iff p.2).2 hram
  have hstore : exec p.1 s = storeOs p.2 (readReg s r) s := by
    clear hram hd
    revert p
    simp only [List.forall_mem_cons, List.not_mem_nil, false_imp_iff, implies_true, and_true]
    exact ⟨rfl, exec_osStorein b r i s⟩
  have hcell : Memory.read (Memory.write s.mem p.2.toNat (readReg s r)) p.2.toNat = readReg s r :=
    memory_read_write_same s.mem hwf _ _
  refine ⟨_, hstore.trans (storeOs_of_ram hd _ s), fun ha => ?_, fun ha => ?_⟩
  · exact load_completes_of_exec_eq_loadOs rfl (ha ▸ hd) (ha ▸ hcell)
  · exact load_completes_of_exec_eq_loadOs (exec_osLoadin c d j _) (ha ▸ hd) (ha ▸ hcell)

end Sys2Proof.Machine
end

section
/-! PROOFS. The family `44_os_int_rti.md`: trap entry and trap return. -/

namespace Sys2Proof.Machine

theorem exec_osRti_of_cons {s : State} {e : ReturnEntry} {rest : List ReturnEntry} (h : s.returnStack = e :: rest) :
    exec .osRti s = .next { s with pc := e.ret, inIsr := e.flag, returnStack := rest } := by
  simp only [exec, execOsRti, trapReturn, h]

theorem exec_osRti_of_nil {s : State} (h : s.returnStack = []) : exec .osRti s = .fault .returnStackEmpty := by
  simp only [exec, execOsRti, trapReturn, h]

/-- Settles O31: INT is the trap entry, and the vector table is its listed entries over the default. -/
theorem intTakesTrap : Obligations.IntTakesTrap := by
  refine ⟨fun s i => rfl, fun c k h => ?_, fun c k a h => ?_⟩
  · rw [ivtEntry, h, Option.getD_none]
  · rw [ivtEntry, h, Option.getD_some]

/-- Settles O32, by the return stack. -/
theorem rtiReturns : Obligations.RtiReturns :=
  fun _ _ _ => ⟨exec_osRti_of_cons, exec_osRti_of_nil⟩

/-- Settles O33: INT pushes one entry, and RTI restores from the entry on top. -/
theorem rtiUndoesInt : Obligations.RtiUndoesInt :=
  fun s i => ⟨trapEnter (uimm i) s, rfl, rfl, fun _ hstack => exec_osRti_of_cons hstack⟩

end Sys2Proof.Machine
end

section
/-! PROOFS. The families `45_step_and_interface.md` and `60_exceptions.md` on the step: its equation in each case, what it
commits, what a fault leaves, and what it does not depend on. -/

namespace Sys2Proof.Machine

/-! ## What an instruction of each shape means -/

section Shapes

variable {i : Instr} {f : AluFn} {d r : Reg}

theorem exec_of_jump {c : BitVec 3} {k : Int} (hi : callShape i = .jump c k) (s : State) :
    exec i s =
      if condHolds c s.acc then .next (writeReg s .pc (wrap ((s.pc.toNat : Int) + k))) else .next (nextPc s) := by
  cases i <;> cases hi <;> rfl

theorem exec_of_move (hi : callShape i = .move r d) (s : State) : exec i s = moveReg r d s := by
  cases i <;> cases hi <;> rfl

theorem exec_of_computeImm {b : Int} (hi : callShape i = .computeImm f d b) (s : State) : exec i s = compute f d b s := by
  cases i <;> cases hi <;> rfl

theorem exec_of_computeTiMem {n : BitVec 24} (hi : callShape i = .computeTiMem f d n) (s : State) :
    exec i s = computeTiMem f d n s := by
  cases i <;> cases hi <;> rfl

theorem exec_of_computeOsMem {n : BitVec 22} (hi : callShape i = .computeOsMem f d n) (s : State) :
    exec i s = computeOsMem f d n s := by
  cases i <;> cases hi <;> rfl

theorem exec_of_computeReg (hi : callShape i = .computeReg f d r) (s : State) : exec i s = compute f d (val s r) s := by
  cases i <;> cases hi <;> rfl

end Shapes

/-! ## The equation of a step in each case -/

section Cases

variable {s s1 : State} {w : Word}

theorem step_of_faulted {c : Fault} (h : s.status = .faulted c) : step s = .fault c := by
  simp only [step, h]

theorem step_of_not_valid (hs : ∀ c, s.status ≠ .faulted c) (hp : validPC s = false) :
    step s = .next { s with status := .terminated } := by
  unfold step
  split
  next c hc => exact absurd hc (hs c)
  next => simp [hp]

theorem step_of_reserved {e : Reserved} (hs : ∀ c, s.status ≠ .faulted c) (hp : validPC s = true)
    (hf : fetch s = .ok (w, s1)) (hd : decode s.config.variant w = .error e) : step s = .fault .illegalInstruction := by
  unfold step
  split
  next c hc => exact absurd hc (hs c)
  next => simp [hp, hf, hd]

/-- A step at an instruction runs it and commits (`45_step_and_interface.md` R281). -/
theorem step_of_decode {i : Instr} (hs : ∀ c, s.status ≠ .faulted c) (hp : validPC s = true)
    (hf : fetch s = .ok (w, s1)) (hd : decode s.config.variant w = .ok i) : step s = mapNext (commit w) (exec i s1) := by
  unfold step
  split
  next c hc => exact absurd hc (hs c)
  next =>
    simp only [hp, hf, hd, if_true]
    cases exec i s1 <;> rfl

/-- A step that has a next state reported termination, or ran one instruction and committed. -/
theorem step_next_cases {t : State} (h : step s = .next t) :
    (validPC s = false ∧ t = { s with status := .terminated }) ∨
    ∃ w s1 i u, validPC s = true ∧ fetch s = .ok (w, s1) ∧ decode s.config.variant w = .ok i ∧ exec i s1 = .next u ∧
      t = commit w u := by
  rcases step_cases s with ⟨c, -, hs⟩ | ⟨-, hp, hs⟩ |
    ⟨-, hp, ⟨e, -, hs⟩ | ⟨w, s1, hf, ⟨r, -, hs⟩ | ⟨i, hd, ⟨u, hx, hs⟩ | ⟨e, -, hs⟩⟩⟩⟩ <;>
    cases hs.symm.trans h
  · exact .inl ⟨hp, rfl⟩
  · exact .inr ⟨w, s1, i, u, hp, hf, hd, hx, rfl⟩

end Cases

/-! ## Termination -/

theorem afterStep_of_next {s t : State} (h : step s = .next t) : afterStep s = t := by
  simp only [afterStep, h]

theorem afterSteps_of_not_valid {s : State} (hs : ∀ c, s.status ≠ .faulted c) (hp : validPC s = false) (n : Nat) :
    afterSteps (n + 1) s = { s with status := .terminated } := by
  induction n generalizing s with
  | zero => exact afterStep_of_next (step_of_not_valid hs hp)
  | succ n ih =>
    have hstep : afterStep s = { s with status := .terminated } := afterStep_of_next (step_of_not_valid hs hp)
    rw [afterSteps, hstep, ih (s := { s with status := .terminated }) nofun hp]

/-! ## Faults -/

theorem afterStep_of_faulted {s : State} {c : Fault} (h : s.status = .faulted c) : afterStep s = s := by
  rw [afterStep_of_fault (step_of_faulted h), afterReads_of_faulted h, faulted, ← h]

theorem afterSteps_of_faulted {s : State} {c : Fault} (h : s.status = .faulted c) (n : Nat) : afterSteps n s = s := by
  induction n with
  | zero => rfl
  | succ n ih => rw [afterSteps, afterStep_of_faulted h, ih]

theorem status_afterStep_of_fault {s : State} {c : Fault} (h : step s = .fault c) : (afterStep s).status = .faulted c := by
  rw [afterStep_of_fault h, faulted_status]

theorem setRegister_status (s : State) (k : Nat) (z : Int) : (setRegister s k z).status = s.status := by
  rcases setRegister_cases s k z with ⟨r, -, -, h⟩ | ⟨-, -, h⟩ | ⟨-, h⟩ <;> rw [h]
  exact writeReg_status s r (wrap z)

theorem writeMem_status {s t : State} {a : Nat} {w : Word} (h : writeMem s a w = some t) : t.status = s.status := by
  obtain ⟨-, rfl, -⟩ := writeMem_cases h
  rfl

/-- After the read, a zero divisor faults. -/
theorem computeOsMem_zero {f : AluFn} (hf : f = .div ∨ f = .mod) {s s1 : State} {n : BitVec 22} (d : Reg)
    (hread : osMemRead s (eaDirectOs s n) = .ok (0#32, s1)) : computeOsMem f d n s = .fault .divideByZero := by
  rw [computeOsMem_of_read hread]
  obtain rfl | rfl := hf
  · exact compute_div_zero d s1
  · exact compute_mod_zero d s1

theorem afterOperandRead_of_read {i : Instr} {f : AluFn} {d : Reg} {n : BitVec 22} {s s1 : State} {m : Word}
    (hi : callShape i = .computeOsMem f d n) (hread : osMemRead s (eaDirectOs s n) = .ok (m, s1)) :
    afterOperandRead i s = s1 := by
  simp only [afterOperandRead, hi, hread]

/-- Once the operand of an OS COMPUTE is read, the one fault left is the zero divisor. -/
theorem computeOsMem_fault {f : AluFn} {d : Reg} {n : BitVec 22} {s s1 : State} {m : Word} {c : Fault}
    (hread : osMemRead s (eaDirectOs s n) = .ok (m, s1)) (h : computeOsMem f d n s = .fault c) : c = .divideByZero := by
  rw [computeOsMem_of_read hread] at h
  obtain ⟨v, -, hv⟩ | ⟨-, -, hv⟩ := compute_cases f d m.toInt s1 <;> cases hv.symm.trans h
  rfl

/-- An instruction that faults drew nothing, unless it divided by a zero it read from the I/O window. -/
theorem afterOperandRead_of_fault {i : Instr} {s : State} {c : Fault} (h : exec i s = .fault c)
    (hc : c = .divideByZero → device s.ds ≠ .io) : afterOperandRead i s = s := by
  obtain hsame | ⟨f, d, n, m, hi, hread⟩ := afterOperandRead_cases i s
  · exact hsame
  · exact afterOperandRead_of_not_io (hc (computeOsMem_fault hread ((exec_of_computeOsMem hi s).symm.trans h)))

/-! ## Fetching with the default code range -/

theorem validPC_ti {s : State} (hv : s.config.variant = .ti) : validPC s = true ↔ s.pc.toNat < s.config.code.length := by
  simp [validPC, hv]

theorem validPC_os {s : State} (hv : s.config.variant = .os) (hw : s.config.widenedPC = []) :
    validPC s = true ↔ s.config.codeBase.toNat ≤ s.pc.toNat ∧
      s.pc.toNat < s.config.codeBase.toNat + (programWords s.config).length := by
  simp [validPC, hv, hw]

theorem fetch_ti {s : State} (hv : s.config.variant = .ti) :
    fetch s = .ok (s.config.code.getD s.pc.toNat 0#32, s) := by
  simp only [fetch, hv]

theorem fetch_os {s : State} (hv : s.config.variant = .os) : fetch s = osMemRead s s.pc := by
  simp only [fetch, hv]

theorem configValid_ti_iff {c : Config} (hv : c.variant = .ti) :
    configValid c = true ↔ c.initData.length ≤ 2 ^ 32 := by
  simp [configValid, hv]

theorem device_eq_rom_iff_slice (a : Word) : device a = .rom ↔ slice a 30 2 = 0b00#2 := by
  unfold device
  obtain h | h | h | h := code2_cases (slice a 30 2) <;> simp [h]

theorem configValid_os_iff {c : Config} (hv : c.variant = .os) : configValid c = true ↔
    c.codeBase.toNat < 2 ^ 30 ∧ c.codeBase.toNat + (programWords c).length ≤ 2 ^ 30 ∧
      2 ^ 31 ≤ c.dsReset.toNat ∧ c.dsReset.toNat + c.initData.length ≤ 2 ^ 32 := by
  simp [configValid, hv, ← device_eq_rom_iff_slice, device_rom_iff, and_assoc]

/-- Settles O47: in TI the program counter is below the length of the code, in OS it selects the loaded program in ROM. -/
theorem fetchReadsProgram : Obligations.FetchReadsProgram := by
  intro s hc hw hp
  refine ⟨fun hv => ?_, fun hv => ?_⟩
  · have hlt := (validPC_ti hv).1 hp
    refine ⟨_, List.getElem?_eq_getElem hlt, ?_⟩
    rw [fetch_ti hv, List.getD_eq_getElem _ _ hlt]
  · obtain ⟨hlo, hhi⟩ := (validPC_os hv hw).1 hp
    obtain ⟨-, hsize, -⟩ := (configValid_os_iff hv).1 hc
    have hrom : device s.pc = .rom := (device_rom_iff s.pc).2 (by omega)
    have hword := List.getElem?_eq_getElem (l := programWords s.config) (i := s.pc.toNat - s.config.codeBase.toNat)
      (by omega)
    refine ⟨_, hword, ?_⟩
    rw [fetch_os hv, osMemRead_of_romWord hrom (romWord_of_program hlo hword)]

/-- With the default code range a fetch leaves the state as it is. -/
theorem fetch_state_eq {s s1 : State} {w : Word} (hc : configValid s.config = true) (hw : s.config.widenedPC = [])
    (hp : validPC s = true) (hf : fetch s = .ok (w, s1)) : s1 = s := by
  obtain ⟨hti, hos⟩ := fetchReadsProgram s hc hw hp
  cases hv : s.config.variant with
  | ti => obtain ⟨w', -, h⟩ := hti hv; cases hf.symm.trans h; rfl
  | os => obtain ⟨w', -, h⟩ := hos hv; cases hf.symm.trans h; rfl

theorem afterReads_of_fetch_error {s : State} {e : Fault} (hf : fetch s = .error e) : afterReads s = s := by
  unfold afterReads
  split
  · rfl
  · split
    · simp only [hf]
    · rfl

/-- With the default code range, a step that faults has drawn nothing, unless it divided by a zero it read from the I/O
window. -/
theorem afterReads_of_fault {s : State} {c : Fault} (hc : configValid s.config = true) (hw : s.config.widenedPC = [])
    (h : step s = .fault c) (hio : c = .divideByZero → device s.ds ≠ .io) : afterReads s = s := by
  rcases step_cases s with ⟨e, hst, hs⟩ | ⟨-, -, hs⟩ |
    ⟨hnf, hp, ⟨e, hf, hs⟩ | ⟨w, s1, hf, ⟨r, hd, hs⟩ | ⟨i, hd, ⟨u, hx, hs⟩ | ⟨e, hx, hs⟩⟩⟩⟩ <;>
    cases hs.symm.trans h
  · exact afterReads_of_faulted hst
  · exact afterReads_of_fetch_error hf
  · rw [afterReads_of_reserved hnf hp hf hd]
    exact fetch_state_eq hc hw hp hf
  · obtain rfl := fetch_state_eq hc hw hp hf
    rw [afterReads_of_decode hnf hp hf hd]
    exact afterOperandRead_of_fault hx hio

/-! ## The obligations on termination, faults and register I -/

/-- Settles O40: the equation of a step at an instruction. -/
theorem stepRunsDecoded : Obligations.StepRunsDecoded :=
  fun _ _ _ _ => step_of_decode

/-- Settles O41: termination changes the status only, so the next step terminates again. -/
theorem termination : Obligations.Termination := by
  intro s hs hp
  have hstep := step_of_not_valid hs hp
  refine ⟨hstep, ?_, afterSteps_of_not_valid hs hp⟩
  simp only [stepOutcome, hstep, if_true]

/-- Settles O42: the reads of such a step are its fetch. -/
theorem reservedWordFaults : Obligations.ReservedWordFaults := by
  intro s s1 w e hs hp hf hd
  have hstep := step_of_reserved hs hp hf hd
  refine ⟨hstep, ?_⟩
  rw [afterStep_of_fault hstep, afterReads_of_reserved hs hp hf hd]
  rfl

/-- Settles O43: the status of a faulted core decides its step; what a fault leaves is `faulted`, on the state after the
reads. -/
theorem faultAbsorbing : Obligations.FaultAbsorbing := by
  refine ⟨fun s c h => ⟨step_of_faulted h, afterStep_of_faulted h⟩, fun s c h => ?_,
    fun s s1 s2 w d n i hi hs hp hf hd hread => ?_, fun s c hc hw h hio => ?_⟩
  · have hst := status_afterStep_of_fault h
    exact ⟨⟨_, _, afterStep_of_fault h⟩, afterSteps_of_faulted hst,
      fun k z => step_of_faulted ((setRegister_status _ k z).trans hst),
      fun a w t ht => step_of_faulted ((writeMem_status ht).trans hst)⟩
  · obtain ⟨f, hzero, hshape⟩ : ∃ f, (f = .div ∨ f = .mod) ∧ callShape i = .computeOsMem f d n := by
      obtain rfl | hi := List.mem_cons.1 hi
      · exact ⟨.div, .inl rfl, rfl⟩
      · obtain rfl := List.mem_singleton.1 hi
        exact ⟨.mod, .inr rfl, rfl⟩
    have hstep : step s = .fault .divideByZero := by
      rw [step_of_decode hs hp hf hd, exec_of_computeOsMem hshape, computeOsMem_zero hzero d hread]
      rfl
    refine ⟨hstep, ?_⟩
    rw [afterStep_of_fault hstep, afterReads_of_decode hs hp hf hd, afterOperandRead_of_read hshape hread]
    rfl
  · rw [afterStep_of_fault h, afterReads_of_fault hc hw h hio]
    rfl

/-- Settles O44: the commit writes register I in OS, and nothing else of a step does. -/
theorem fetchRegister : Obligations.FetchRegister := by
  intro s t h
  obtain ⟨-, rfl⟩ | ⟨w, s1, i, u, -, hf, -, hx, rfl⟩ := step_next_cases h
  · exact ⟨fun _ => rfl, fun _ => .inr ⟨rfl, rfl⟩⟩
  · obtain ⟨hconfig, -, hfetch⟩ := exec_frame hx
    have hv : u.config.variant = s.config.variant := by rw [hconfig, fetch_config hf]
    refine ⟨fun hti => ?_, fun hos => .inl ⟨commit_status w u, s1, ?_⟩⟩
    · rw [commit_fetchReg_ti w u (hv.trans hti), hfetch, fetch_frame hf]
    · rw [commit_fetchReg_os w u (hv.trans hos), hf]

/-- Settles O46: a TI instruction has no fault, and a TI fetch has none. -/
theorem tiFaultsIllegalOnly : Obligations.TiFaultsIllegalOnly := by
  intro s c hv hnf h
  rcases step_cases s with ⟨e, hst, hs⟩ | ⟨-, -, hs⟩ |
    ⟨-, -, ⟨e, hf, hs⟩ | ⟨w, s1, hf, ⟨r, hd, hs⟩ | ⟨i, hd, ⟨u, hx, hs⟩ | ⟨e, hx, hs⟩⟩⟩⟩ <;>
    cases hs.symm.trans h
  · exact absurd hst (hnf c)
  · cases (fetch_ti hv).symm.trans hf
  · exact ⟨rfl, w, s1, r, hf, hv ▸ hd⟩
  · have heffect := exec_effect i s1
    rw [hx] at heffect
    cases heffect with
    | fault _ hos => cases hos.symm.trans ((decode_variant _ w i hd).trans hv)

/-! ## Events -/

/-- An instruction appends at most one event to the I/O history (`20_memory.md` R53). -/
theorem exec_history {i : Instr} {s t : State} (h : exec i s = .next t) :
    t.ioHistory = s.ioHistory ∨ ∃ e, t.ioHistory = s.ioHistory ++ [e] := by
  have heffect := exec_effect i s
  rw [h] at heffect
  generalize hr : (Host.Outcome.next t : Result) = r at heffect
  cases heffect <;> cases hr
  case register => exact .inl (by simp)
  case readRegister hread => simpa using osMemRead_history hread
  case tiStore => exact .inl rfl
  case osStore hwrite =>
    obtain ⟨p, -, -, rfl⟩ | ⟨-, rfl⟩ := osMemWrite_cases hwrite
    · exact .inr ⟨_, rfl⟩
    · exact .inl rfl
  case movePc | trap | back => exact .inl rfl

/-- Settles O51: with the default code range the fetch leaves the state, and the instruction appends one event at most. -/
theorem oneEventPerStep : Obligations.OneEventPerStep := by
  intro s t hc hw h
  obtain ⟨-, rfl⟩ | ⟨w, s1, i, u, hp, hf, -, hx, rfl⟩ := step_next_cases h
  · exact .inl rfl
  · obtain rfl := fetch_state_eq hc hw hp hf
    simpa using exec_history hx

/-! ## State that instructions do not see -/

/-- `u` changes nothing that registers and memory cells hold, and commutes with writing them. -/
structure Unseen (u : State → State) : Prop where
  readReg : ∀ s r, readReg (u s) r = readReg s r
  mem : ∀ s, (u s).mem = s.mem
  writeReg : ∀ s r v, writeReg (u s) r v = u (writeReg s r v)
  setMem : ∀ s m, { u s with mem := m } = u { s with mem := m }

/-- `u` commutes with the accesses to the OS address space too. -/
structure UnseenOs (u : State → State) : Prop extends Unseen u where
  read : ∀ s a, osMemRead (u s) a = (osMemRead s a).map fun p => (p.1, u p.2)
  write : ∀ s a v, osMemWrite (u s) a v = (osMemWrite s a v).map u

section Unseen

variable {u : State → State}

theorem Unseen.pc (hu : Unseen u) (s : State) : (u s).pc = s.pc := hu.readReg s .pc
theorem Unseen.in1 (hu : Unseen u) (s : State) : (u s).in1 = s.in1 := hu.readReg s .in1
theorem Unseen.in2 (hu : Unseen u) (s : State) : (u s).in2 = s.in2 := hu.readReg s .in2
theorem Unseen.acc (hu : Unseen u) (s : State) : (u s).acc = s.acc := hu.readReg s .acc
theorem Unseen.ds (hu : Unseen u) (s : State) : (u s).ds = s.ds := hu.readReg s .ds

theorem Unseen.val (hu : Unseen u) (s : State) (r : Reg) : val (u s) r = val s r := by
  simp only [Machine.val, hu.pc, hu.readReg]

theorem Unseen.nextPc (hu : Unseen u) (s : State) : nextPc (u s) = u (nextPc s) := by
  change Machine.writeReg (u s) .pc ((u s).pc + 1#32) = _
  rw [hu.pc, hu.writeReg]
  rfl

theorem Unseen.writeBack (hu : Unseen u) (d : Reg) (v : Word) (s : State) : writeBack d v (u s) = u (writeBack d v s) := by
  unfold Machine.writeBack
  split
  · exact hu.writeReg s .pc v
  · rw [hu.writeReg, hu.nextPc]

theorem Unseen.compute (hu : Unseen u) (f : AluFn) (d : Reg) (b : Int) (s : State) :
    compute f d b (u s) = mapNext u (compute f d b s) := by
  unfold Machine.compute
  rw [hu.val]
  cases aluApply f (Machine.val s d) b with
  | ok v => exact congrArg Host.Outcome.next (hu.writeBack d v s)
  | error e => rfl

theorem Unseen.computeTiMem (hu : Unseen u) (f : AluFn) (d : Reg) (i : BitVec 24) (s : State) :
    computeTiMem f d i (u s) = mapNext u (computeTiMem f d i s) := by
  rw [computeTiMem_eq, computeTiMem_eq, hu.mem, hu.compute]

theorem Unseen.loadTi (hu : Unseen u) (d : Reg) (a : Word) (s : State) : loadTi d a (u s) = mapNext u (loadTi d a s) := by
  simp only [Machine.loadTi, tiMemRead, hu.mem, hu.writeBack, mapNext]

theorem Unseen.storeTi (hu : Unseen u) (a : Word) (s : State) : storeTi a (u s) = mapNext u (storeTi a s) := by
  have hwrite : tiMemWrite (u s) a s.acc = u (tiMemWrite s a s.acc) := by
    rw [tiMemWrite, hu.mem]
    exact hu.setMem s _
  rw [Machine.storeTi, hu.acc, hwrite, hu.nextPc]
  rfl

theorem Unseen.moveReg (hu : Unseen u) (r d : Reg) (s : State) : moveReg r d (u s) = mapNext u (moveReg r d s) := by
  simp only [Machine.moveReg, hu.readReg, hu.writeBack, mapNext]

theorem Unseen.writeBack_next (hu : Unseen u) (d : Reg) (v : Word) (s : State) :
    (.next (Machine.writeBack d v (u s)) : Result) = mapNext u (.next (Machine.writeBack d v s)) :=
  congrArg Host.Outcome.next (hu.writeBack d v s)

theorem Unseen.nextPc_next (hu : Unseen u) (s : State) :
    (.next (Machine.nextPc (u s)) : Result) = mapNext u (.next (Machine.nextPc s)) :=
  congrArg Host.Outcome.next (hu.nextPc s)

theorem UnseenOs.eaDirectOs (hu : UnseenOs u) (s : State) (i : BitVec 22) : eaDirectOs (u s) i = eaDirectOs s i := by
  rw [Machine.eaDirectOs, hu.ds, Machine.eaDirectOs]

theorem UnseenOs.computeOsMem (hu : UnseenOs u) (f : AluFn) (d : Reg) (i : BitVec 22) (s : State) :
    computeOsMem f d i (u s) = mapNext u (computeOsMem f d i s) := by
  unfold Machine.computeOsMem
  rw [hu.eaDirectOs, hu.read]
  cases osMemRead s (Machine.eaDirectOs s i) with
  | ok p => exact hu.compute f d _ p.2
  | error e => rfl

theorem UnseenOs.loadOs (hu : UnseenOs u) (d : Reg) (a : Word) (s : State) : loadOs d a (u s) = mapNext u (loadOs d a s) := by
  unfold Machine.loadOs
  rw [hu.read]
  cases osMemRead s a with
  | ok p => exact hu.writeBack_next d p.1 p.2
  | error e => rfl

theorem UnseenOs.storeOs (hu : UnseenOs u) (a v : Word) (s : State) : storeOs a v (u s) = mapNext u (storeOs a v s) := by
  unfold Machine.storeOs
  rw [hu.write]
  cases osMemWrite s a v with
  | ok t => exact hu.nextPc_next t
  | error e => rfl

/-- The instructions of each shape but the OS COMPUTE on memory read registers and TI data cells only. -/
theorem Unseen.exec_shape (hu : Unseen u) (i : Instr) (s : State) :
    exec i (u s) = mapNext u (exec i s) ∨ callShape i = .other ∨ ∃ f d n, callShape i = .computeOsMem f d n := by
  cases hi : callShape i with
  | jump c k =>
    left
    rw [exec_of_jump hi, exec_of_jump hi, hu.acc, hu.pc]
    split
    · exact congrArg Host.Outcome.next (hu.writeReg s .pc _)
    · exact hu.nextPc_next s
  | move r d => exact .inl (by rw [exec_of_move hi, exec_of_move hi, hu.moveReg])
  | computeImm f d b => exact .inl (by rw [exec_of_computeImm hi, exec_of_computeImm hi, hu.compute])
  | computeTiMem f d n => exact .inl (by rw [exec_of_computeTiMem hi, exec_of_computeTiMem hi, hu.computeTiMem])
  | computeOsMem f d n => exact .inr (.inr ⟨f, d, n, rfl⟩)
  | computeReg f d r => exact .inl (by rw [exec_of_computeReg hi, exec_of_computeReg hi, hu.val, hu.compute])
  | other => exact .inr (.inl rfl)

/-- TI instructions read registers and data cells only. -/
theorem Unseen.exec_ti (hu : Unseen u) {i : Instr} (hv : i.variant = .ti) (s : State) :
    exec i (u s) = mapNext u (exec i s) := by
  obtain h | ho | ⟨f, d, n, hm⟩ := hu.exec_shape i s
  · exact h
  · cases i
    case tiLoad d n => exact hu.loadTi d (eaDirectTi n) s
    case tiLoadin1 d n =>
      change Machine.loadTi d (eaIndexed (u s).in1 n) (u s) = _
      rw [hu.in1, hu.loadTi]
      rfl
    case tiLoadin2 d n =>
      change Machine.loadTi d (eaIndexed (u s).in2 n) (u s) = _
      rw [hu.in2, hu.loadTi]
      rfl
    case tiLoadi d n => exact hu.writeBack_next d (wrap (simm n)) s
    case tiStore n => exact hu.storeTi (eaDirectTi n) s
    case tiStorein1 n =>
      change Machine.storeTi (eaIndexed (u s).in1 n) (u s) = _
      rw [hu.in1, hu.storeTi]
      rfl
    case tiStorein2 n =>
      change Machine.storeTi (eaIndexed (u s).in2 n) (u s) = _
      rw [hu.in2, hu.storeTi]
      rfl
    case tiNop => exact hu.nextPc_next s
    all_goals cases hv
    all_goals cases ho
  · cases i <;> cases hm <;> cases hv

/-- OS instructions but INT and RTI read registers and the OS address space only. -/
theorem UnseenOs.exec_os (hu : UnseenOs u) {i : Instr} (hv : i.variant = .os) (hint : ∀ k, i ≠ .osInt k)
    (hrti : i ≠ .osRti) (s : State) : exec i (u s) = mapNext u (exec i s) := by
  obtain h | ho | ⟨f, d, n, hm⟩ := hu.exec_shape i s
  · exact h
  · cases i
    case osLoad d n =>
      change Machine.loadOs d (Machine.eaDirectOs (u s) n) (u s) = _
      rw [hu.eaDirectOs, hu.loadOs]
      rfl
    case osLoadin r d n => rw [exec_osLoadin, exec_osLoadin, hu.readReg, hu.loadOs]
    case osLoadi d n => exact hu.writeBack_next d (wrap (simm n)) s
    case osStore r n =>
      change Machine.storeOs (Machine.eaDirectOs (u s) n) (Machine.readReg (u s) r) (u s) = _
      rw [hu.eaDirectOs, hu.readReg, hu.storeOs]
      rfl
    case osStorein d r n => rw [exec_osStorein, exec_osStorein, hu.readReg, hu.readReg, hu.storeOs]
    case osNop => exact hu.nextPc_next s
    case osInt k => exact absurd rfl (hint k)
    case osRti => exact absurd rfl hrti
    all_goals cases hv
    all_goals cases ho
  · rw [exec_of_computeOsMem hm, exec_of_computeOsMem hm, hu.computeOsMem]

end Unseen

/-! ## The environment, the in-interrupt flag and register I -/

/-- The state with the environment's values changed: what would be supplied, and how many free values were taken. -/
def setEnvironment (inputs : List Word) (n : Nat) (s : State) : State :=
  { s with uartInput := inputs, uartDraws := n }

theorem setEnvironment_unseen (inputs : List Word) (n : Nat) : Unseen (setEnvironment inputs n) where
  readReg s r := by cases r <;> rfl
  mem _ := rfl
  writeReg s r v := by cases r <;> rfl
  setMem _ _ := rfl

/-- The state with the in-interrupt flag changed. -/
def setInIsr (b : Bool) (s : State) : State :=
  { s with inIsr := b }

/-- The state with register `I` changed. -/
def setFetchReg (v : Word) (s : State) : State :=
  { s with fetchReg := v }

/-- To commute with the OS address space it is enough to leave the program and the drawn values, and to commute with what a
port access does. -/
theorem unseenOs_of_config {u : State → State} (hu : Unseen u) (hconfig : ∀ s, (u s).config = s.config)
    (hvalue : ∀ s, uartValue (u s) = uartValue s)
    (hdraw : ∀ s e, recordEvent (uartAdvance (u s)) e = u (recordEvent (uartAdvance s) e))
    (hrecord : ∀ s e, recordEvent (u s) e = u (recordEvent s e)) : UnseenOs u where
  toUnseen := hu
  read s a := by
    cases hd : device a with
    | rom =>
      cases hw : romWord s.config a with
      | some w => rw [osMemRead_of_romWord hd hw, osMemRead_of_romWord hd ((hconfig s).symm ▸ hw)]; rfl
      | none => rw [osMemRead_of_romWord_none hd hw, osMemRead_of_romWord_none hd ((hconfig s).symm ▸ hw)]; rfl
    | io =>
      cases hp : ioPort a with
      | some p => rw [osMemRead_of_port hd hp, osMemRead_of_port hd hp, hvalue, hdraw]; rfl
      | none => rw [osMemRead_of_no_port hd hp, osMemRead_of_no_port hd hp]; rfl
    | ram => rw [osMemRead_of_ram hd, osMemRead_of_ram hd, hu.mem]; rfl
  write s a v := by
    cases hd : device a with
    | rom => rw [osMemWrite_of_rom hd, osMemWrite_of_rom hd]; rfl
    | io =>
      cases hp : ioPort a with
      | some p => rw [osMemWrite_of_port hd hp, osMemWrite_of_port hd hp, hrecord]; rfl
      | none => rw [osMemWrite_of_no_port hd hp, osMemWrite_of_no_port hd hp]; rfl
    | ram =>
      rw [osMemWrite_of_ram hd, osMemWrite_of_ram hd, hu.mem]
      exact congrArg Except.ok (hu.setMem s _)

theorem recordEvent_uartAdvance_setInIsr (b : Bool) (s : State) (e : IoEvent) :
    recordEvent (uartAdvance (setInIsr b s)) e = setInIsr b (recordEvent (uartAdvance s) e) := by
  simp only [uartAdvance, setInIsr]
  cases s.uartInput <;> rfl

theorem setInIsr_unseenOs (b : Bool) : UnseenOs (setInIsr b) :=
  unseenOs_of_config
    { readReg := fun s r => by cases r <;> rfl
      mem := fun _ => rfl
      writeReg := fun s r v => by cases r <;> rfl
      setMem := fun _ _ => rfl }
    (fun _ => rfl) (fun _ => rfl) (recordEvent_uartAdvance_setInIsr b) (fun _ _ => rfl)

theorem recordEvent_uartAdvance_setFetchReg (v : Word) (s : State) (e : IoEvent) :
    recordEvent (uartAdvance (setFetchReg v s)) e = setFetchReg v (recordEvent (uartAdvance s) e) := by
  simp only [uartAdvance, setFetchReg]
  cases s.uartInput <;> rfl

theorem setFetchReg_unseenOs (v : Word) : UnseenOs (setFetchReg v) :=
  unseenOs_of_config
    { readReg := fun s r => by cases r <;> rfl
      mem := fun _ => rfl
      writeReg := fun s r v => by cases r <;> rfl
      setMem := fun _ _ => rfl }
    (fun _ => rfl) (fun _ => rfl) (recordEvent_uartAdvance_setFetchReg v) (fun _ _ => rfl)

/-- Settles O52: neither registers, memory nor the I/O window depend on the flag. -/
theorem flagGatesNothing : Obligations.FlagGatesNothing := by
  intro i s b hint hrti
  cases hv : i.variant with
  | ti => exact (setInIsr_unseenOs b).toUnseen.exec_ti hv s
  | os => exact (setInIsr_unseenOs b).exec_os hv hint hrti s

theorem commit_setEnvironment (w : Word) (inputs : List Word) (n : Nat) (t : State) :
    commit w (setEnvironment inputs n t) = setEnvironment inputs n (commit w t) := by
  simp only [commit, setEnvironment]
  cases t.config.variant <;> rfl

/-- Settles O53: the code range, the fetch and the decoder do not read the environment, and no TI instruction does. -/
theorem tiIgnoresEnvironment : Obligations.TiIgnoresEnvironment := by
  intro s inputs n hv
  change step (setEnvironment inputs n s) = mapNext (setEnvironment inputs n) (step s)
  by_cases hs : ∃ c, s.status = .faulted c
  · obtain ⟨c, hs⟩ := hs
    rw [step_of_faulted hs, step_of_faulted (s := setEnvironment inputs n s) hs]
    rfl
  have hs' : ∀ c, s.status ≠ .faulted c := fun c hc => hs ⟨c, hc⟩
  cases hp : validPC s with
  | false =>
    rw [step_of_not_valid hs' hp, step_of_not_valid (s := setEnvironment inputs n s) hs' hp]
    rfl
  | true =>
    have hf := fetch_ti hv
    have hf' := fetch_ti (s := setEnvironment inputs n s) hv
    cases hd : decode s.config.variant (s.config.code.getD s.pc.toNat 0#32) with
    | error e =>
      rw [step_of_reserved hs' hp hf hd, step_of_reserved (s := setEnvironment inputs n s) hs' hp hf' hd]
      rfl
    | ok i =>
      have hi : i.variant = .ti := (decode_variant _ _ i hd).trans hv
      rw [step_of_decode hs' hp hf hd, step_of_decode (s := setEnvironment inputs n s) hs' hp hf' hd,
        (setEnvironment_unseen inputs n).exec_ti hi]
      cases exec i s with
      | next t => exact congrArg Host.Outcome.next (commit_setEnvironment _ inputs n t)
      | fault e => rfl
      | refused r => rfl

end Sys2Proof.Machine
end

section
/-! PROOFS. The invariant of the core (`10_state.md`, `20_memory.md`): what each change of the state needs to keep it, and
with it every step and every host operation. -/

namespace Sys2Proof.Machine

/-! ## The data space -/

/-- `a` is the address of a data cell of the variant (`20_memory.md` R55, R60). -/
def cellInSpace : Variant → Nat → Prop
  | .ti, a => a < 2 ^ 32
  | .os, a => 2 ^ 31 ≤ a ∧ a < 2 ^ 32

theorem memInSpace_iff (v : Variant) (m : Memory) : memInSpace v m = true ↔ ∀ c ∈ m, cellInSpace v c.1 := by
  cases v <;> simp [memInSpace, cellInSpace]

theorem memInSpace_write {v : Variant} {m : Memory} (h : memInSpace v m = true) {a : Nat} (ha : cellInSpace v a) (w : Word) :
    memInSpace v (Memory.write m a w) = true := by
  rw [memInSpace_iff] at h ⊢
  intro c hc
  obtain rfl | hc := memory_mem_write m a w c hc
  · exact ha
  · exact h c hc

theorem memInSpace_load {v : Variant} (ws : List Word) (m : Memory) (h : memInSpace v m = true) (a : Nat)
    (ha : ∀ k < ws.length, cellInSpace v (a + k)) : memInSpace v (Memory.load m a ws) = true := by
  induction ws generalizing m a with
  | nil => exact h
  | cons w ws ih =>
    refine ih _ (memInSpace_write h (ha 0 (Nat.zero_lt_succ _)) w) (a + 1) fun k hk => ?_
    rw [Nat.add_right_comm, Nat.add_assoc]
    exact ha (k + 1) (Nat.succ_lt_succ hk)

theorem cellInSpace_ti (a : Word) : cellInSpace .ti a.toNat := a.isLt

theorem cellInSpace_os {a : Word} (h : device a = .ram) : cellInSpace .os a.toNat :=
  ⟨(device_ram_iff a).1 h, a.isLt⟩

/-! ## Changes that keep the invariant -/

theorem tiAbsentState_of_os {s : State} (hv : s.config.variant = .os) : tiAbsentState s = true := by
  simp only [tiAbsentState, hv]

/-- The invariant reads memory, the parameters, the flag with its stack and, in TI, the state that TI does not have. -/
theorem inv_congr {s t : State} (h : Inv s) (hmem : t.mem = s.mem) (hconfig : t.config = s.config)
    (hisr : t.inIsr = s.inIsr) (hstack : t.returnStack = s.returnStack)
    (habsent : s.config.variant = .ti → tiAbsentState t = tiAbsentState s) : Inv t := by
  obtain ⟨hwf, hspace, hvalid, hcoherent, habs⟩ := h
  refine ⟨hmem ▸ hwf, by rwa [hmem, hconfig], hconfig ▸ hvalid, by rwa [hisr, hstack], ?_⟩
  cases hv : s.config.variant with
  | ti => rwa [habsent hv]
  | os => exact tiAbsentState_of_os (hconfig ▸ hv)

theorem inv_setMem {s : State} (h : Inv s) {a : Nat} (ha : cellInSpace s.config.variant a) (v : Word) :
    Inv { s with mem := Memory.write s.mem a v } := by
  obtain ⟨hwf, hspace, hrest⟩ := h
  exact ⟨memory_write_wf s.mem hwf a v, memInSpace_write hspace ha v, hrest⟩

/-- A register of the variant is none of the state that TI does not have. -/
theorem inv_writeReg {s : State} (h : Inv s) {d : Reg} (hd : Reg.inVariant s.config.variant d = true) (v : Word) :
    Inv (writeReg s d v) := by
  refine inv_congr h (by simp) (by simp) (by simp) (by simp) fun hv => ?_
  rw [hv] at hd
  cases d <;> first | rfl | exact absurd hd (by decide)

theorem inVariant_pc (v : Variant) : Reg.inVariant v .pc = true := by
  cases v <;> rfl

theorem inv_setPc {s : State} (h : Inv s) (p : Word) : Inv { s with pc := p } :=
  inv_writeReg h (inVariant_pc _) p

theorem inv_nextPc {s : State} (h : Inv s) : Inv (nextPc s) := inv_setPc h _

theorem inv_writeBack {s : State} (h : Inv s) {d : Reg} (hd : Reg.inVariant s.config.variant d = true) (v : Word) :
    Inv (writeBack d v s) := by
  unfold writeBack
  split
  · exact inv_setPc h v
  · exact inv_nextPc (inv_writeReg h hd v)

/-- In OS every change of registers and I/O record keeps the invariant. -/
theorem inv_congr_os {s t : State} (h : Inv s) (hv : s.config.variant = .os) (hmem : t.mem = s.mem)
    (hconfig : t.config = s.config) (hisr : t.inIsr = s.inIsr) (hstack : t.returnStack = s.returnStack) : Inv t :=
  inv_congr h hmem hconfig hisr hstack fun hti => absurd (hti.symm.trans hv) (by decide)

theorem inv_osMemRead {s s1 : State} {a m : Word} (h : Inv s) (hv : s.config.variant = .os)
    (hread : osMemRead s a = .ok (m, s1)) : Inv s1 := by
  have hframe := osMemRead_frame hread
  exact inv_congr_os h hv (by rw [hframe]) (by rw [hframe]) (by rw [hframe]) (by rw [hframe])

theorem inv_osMemWrite {s t : State} {a v : Word} (h : Inv s) (hv : s.config.variant = .os)
    (hwrite : osMemWrite s a v = .ok t) : Inv t := by
  obtain ⟨p, -, -, rfl⟩ | ⟨hram, rfl⟩ := osMemWrite_cases hwrite
  · exact inv_congr_os h hv rfl rfl rfl rfl
  · exact inv_setMem h (hv ▸ cellInSpace_os hram) v

theorem inv_trapEnter {s : State} (h : Inv s) (hv : s.config.variant = .os) (k : Nat) : Inv (trapEnter k s) := by
  obtain ⟨hwf, hspace, hvalid, hcoherent, -⟩ := h
  refine ⟨hwf, hspace, hvalid, ?_, tiAbsentState_of_os hv⟩
  simpa [stackCoherent] using hcoherent

theorem inv_trapReturn {s : State} (h : Inv s) (hv : s.config.variant = .os) {e : ReturnEntry} {rest : List ReturnEntry}
    (hstack : s.returnStack = e :: rest) :
    Inv { s with pc := e.ret, inIsr := e.flag, returnStack := rest } := by
  obtain ⟨hwf, hspace, hvalid, hcoherent, -⟩ := h
  rw [hstack, stackCoherent, Bool.and_eq_true] at hcoherent
  exact ⟨hwf, hspace, hvalid, hcoherent.right, tiAbsentState_of_os hv⟩

/-! ## Instructions and steps -/

theorem inVariant_of_mem_regs {v : Variant} {i : Instr} (hi : i.wellFormedIn v = true) {d : Reg} (hd : d ∈ i.regs) :
    Reg.inVariant v d = true := by
  obtain ⟨rfl, hwf⟩ := (wellFormedIn_iff v i).1 hi
  exact List.all_eq_true.1 hwf d hd

/-- A well-formed instruction of the core's variant keeps the invariant. -/
theorem exec_inv {i : Instr} {s t : State} (hi : i.wellFormedIn s.config.variant = true) (h : Inv s)
    (hx : exec i s = .next t) : Inv t := by
  have hvariant : i.variant = s.config.variant := ((wellFormedIn_iff _ i).1 hi).left
  have heffect := exec_effect i s
  rw [hx] at heffect
  generalize hr : (Host.Outcome.next t : Result) = r at heffect
  cases heffect <;> cases hr
  case register d v hd => exact inv_writeBack h (inVariant_of_mem_regs hi hd) v
  case readRegister d v a m s1 hv hread =>
    have hs1 : s1.config.variant = .os := by rw [osMemRead_frame hread, ← hvariant, hv]
    exact inv_writeBack (inv_osMemRead h (hvariant.symm.trans hv) hread) (hs1 ▸ inVariant_os d) v
  case tiStore a v hv => exact inv_nextPc (inv_setMem h ((hvariant.symm.trans hv) ▸ cellInSpace_ti a) v)
  case osStore a v s1 hv hwrite => exact inv_nextPc (inv_osMemWrite h (hvariant.symm.trans hv) hwrite)
  case movePc p => exact inv_setPc h p
  case trap k hv => exact inv_trapEnter h (hvariant.symm.trans hv) k
  case back e rest hv hstack => exact inv_trapReturn h (hvariant.symm.trans hv) hstack

theorem inv_setStatus {s : State} (h : Inv s) (x : Status) : Inv { s with status := x } :=
  inv_congr h rfl rfl rfl rfl fun _ => rfl

theorem inv_fetch {s s1 : State} {w : Word} (h : Inv s) (hf : fetch s = .ok (w, s1)) : Inv s1 := by
  cases hv : s.config.variant with
  | ti => cases (fetch_ti hv).symm.trans hf; exact h
  | os => exact inv_osMemRead h hv ((fetch_os hv).symm.trans hf)

theorem inv_commit {t : State} (h : Inv t) (w : Word) : Inv (commit w t) := by
  cases hv : t.config.variant with
  | ti =>
    have hcommit : commit w t = { t with status := .running } := by simp only [commit, hv]
    exact hcommit ▸ inv_setStatus h .running
  | os => exact inv_congr_os h hv (by simp) (by simp) (by simp) (by simp)

/-! ## Construction and host writes -/

theorem inv_resetWith {c : Config} (hc : configValid c = true) : Inv (State.resetWith c) := by
  cases hv : c.variant with
  | ti =>
    have hsize := (configValid_ti_iff hv).1 hc
    have hspace : memInSpace .ti (Memory.load [] 0 c.initData) = true :=
      memInSpace_load _ _ rfl 0 fun k hk => by simp only [cellInSpace]; omega
    have habsent : tiAbsentState (State.resetWith c) = true := by
      simp [tiAbsentState, State.resetWith, hv, State.reset]
    refine ⟨?_, ?_, ?_, ?_, habsent⟩ <;> simp only [State.resetWith, hv]
    · exact memory_load_wf _ _ _ rfl
    · exact hspace
    · exact hc
    · rfl
  | os =>
    obtain ⟨-, -, hlo, hhi⟩ := (configValid_os_iff hv).1 hc
    have hspace : memInSpace .os (Memory.load [] c.dsReset.toNat c.initData) = true :=
      memInSpace_load _ _ rfl _ fun k hk => by simp only [cellInSpace]; omega
    refine ⟨?_, ?_, ?_, ?_, tiAbsentState_of_os ((resetWith_config c).symm ▸ hv)⟩ <;> simp only [State.resetWith, hv]
    · exact memory_load_wf _ _ _ rfl
    · exact hspace
    · exact hc
    · rfl

/-- `regOfIndex` leaves out register `I` alone, which is no register of TI. -/
theorem regOfIndex_isSome_of_ti {k : Nat} (hk : indexInDomain .ti k = true) :
    ∃ r, regOfIndex k = some r ∧ Reg.inVariant .ti r = true := by
  have hle : k ≤ 3 := by simpa [indexInDomain] using hk
  interval_cases k <;> exact ⟨_, rfl, rfl⟩

theorem inVariant_of_regOfIndex {v : Variant} {k : Nat} {r : Reg} (hk : indexInDomain v k = true)
    (hr : regOfIndex k = some r) : Reg.inVariant v r = true := by
  cases v with
  | os => exact inVariant_os r
  | ti =>
    obtain ⟨q, hq, hin⟩ := regOfIndex_isSome_of_ti hk
    cases hr.symm.trans hq
    exact hin

theorem inv_setRegister {s : State} (h : Inv s) (k : Nat) (z : Int) : Inv (setRegister s k z) := by
  obtain ⟨r, hk, hr, heq⟩ | ⟨hk, hr, heq⟩ | ⟨-, heq⟩ := setRegister_cases s k z <;> rw [heq]
  · exact inv_writeReg h (inVariant_of_regOfIndex hk hr) _
  · cases hv : s.config.variant with
    | os => exact inv_congr_os h hv rfl rfl rfl rfl
    | ti =>
      obtain ⟨q, hq, -⟩ := regOfIndex_isSome_of_ti (hv ▸ hk)
      cases hr.symm.trans hq
  · exact h

theorem inv_writeMem {s t : State} {a : Nat} {w : Word} (h : Inv s) (ht : writeMem s a w = some t) : Inv t := by
  obtain ⟨ha, rfl, hram⟩ := writeMem_cases ht
  refine inv_setMem h ?_ w
  cases hv : s.config.variant with
  | ti => exact ha
  | os =>
    have hcell := cellInSpace_os (hram hv)
    rwa [BitVec.toNat_ofNat, Nat.mod_eq_of_lt ha] at hcell

/-! ## The obligations -/

/-- Settles O48: the fetch, a well-formed instruction of the core's variant, and the commit each keep the invariant. -/
theorem invariantStep : Obligations.InvariantStep := by
  intro s t h hstep
  obtain ⟨-, rfl⟩ | ⟨w, s1, i, u, -, hf, hd, hx, rfl⟩ := step_next_cases hstep
  · exact inv_setStatus h .terminated
  · have hi : i.wellFormedIn s1.config.variant = true := by
      rw [fetch_config hf]
      exact (wellFormedIn_iff _ i).2 ⟨decode_variant _ w i hd, wellFormed_of_decode hd⟩
    exact inv_commit (exec_inv hi (inv_fetch h hf) hx) w

/-- Settles O49: the reset state is that of an accepted configuration. -/
theorem invariantReset : Obligations.InvariantReset :=
  inv_resetWith (c := Config.default .os) (by decide)

/-- Settles O50: the segment is loaded into the data space, and host writes reach registers and cells of the variant
only. -/
theorem invariantHost : Obligations.InvariantHost := by
  refine ⟨fun c s hc => ?_, fun s k z h => inv_setRegister h k z, fun s t a w h => inv_writeMem h⟩
  obtain ⟨hvalid, rfl⟩ := (construct_eq_some_iff c s).1 hc
  exact inv_resetWith hvalid

end Sys2Proof.Machine
end

section
/-! PROOFS. The family `45_step_and_interface.md` on the host: construction, the register and memory accessors, the call
introspection, and the word placed for the next fetch. -/

namespace Sys2Proof.Machine

/-! ## Construction -/

theorem construct_isSome_iff (c : Config) : (construct c).isSome = true ↔ configValid c = true := by
  simp [construct]

theorem programWords_length (c : Config) : (programWords c).length = c.code.length + c.isrCode.length :=
  List.length_append

/-- Settles O58: `construct` accepts the valid configurations. -/
theorem constructRefuses : Obligations.ConstructRefuses := by
  intro c
  rw [construct_isSome_iff]
  refine ⟨fun hv => configValid_ti_iff hv, fun hv => ?_⟩
  rw [configValid_os_iff hv, programWords_length]

/-- Settles O59: the fields of the reset state of the variant, and memory with the segment loaded into it. -/
theorem constructState : Obligations.ConstructState := by
  intro c s hc
  obtain ⟨-, rfl⟩ := (construct_eq_some_iff c s).1 hc
  cases hv : c.variant with
  | ti =>
    have hmem : ∀ a, Memory.read (State.resetWith c).mem a = (c.initData[a]?).getD 0#32 := fun a => by
      rw [resetWith_ti_mem hv, memory_read_load _ _ rfl, if_pos (Nat.zero_le a)]
      rfl
    refine ⟨resetWith_config c, ?_, ?_, ?_, ?_, ?_, ?_, ?_, ?_, fun _ => ⟨?_, hmem⟩, fun h => absurd h (by decide)⟩ <;>
      simp [State.resetWith, hv, State.reset]
  | os =>
    have hmem : ∀ a, Memory.read (State.resetWith c).mem a =
        if c.dsReset.toNat ≤ a then (c.initData[a - c.dsReset.toNat]?).getD 0#32 else 0#32 := fun a => by
      rw [resetWith_os_mem hv, memory_read_load _ _ rfl]
      rfl
    refine ⟨resetWith_config c, ?_, ?_, ?_, ?_, ?_, ?_, ?_, ?_, fun h => absurd h (by decide),
      fun _ => ⟨?_, ?_, ?_, ?_, ?_, hmem⟩⟩ <;> simp [State.resetWith, hv, State.reset]

/-- Settles O60: without a program the program counter 0 is outside the code. -/
theorem resetState : Obligations.ResetState := by
  refine ⟨rfl, rfl, rfl, rfl, fun r hr => ?_, fun a => rfl, ?_⟩
  · cases r <;> first | rfl | exact absurd rfl hr
  · have hp : validPC State.reset = false := rfl
    rw [stepOutcome, step_of_not_valid (by simp [State.reset]) hp]
    rfl

/-! ## Register accessors -/

/-- The register indices of `10_state.md` R21, register `I` apart. -/
def registerIndices : List (Nat × Reg) :=
  [(0, .pc), (1, .in1), (2, .in2), (3, .acc), (4, .sp), (5, .baf), (6, .cs), (7, .ds)]

theorem regOfIndex_of_mem {k : Nat} {r : Reg} (h : (k, r) ∈ registerIndices) : regOfIndex k = some r := by
  have hall : ∀ p ∈ registerIndices, regOfIndex p.1 = some p.2 := by decide
  exact hall (k, r) h

theorem mem_of_regOfIndex {k : Nat} {r : Reg} (h : regOfIndex k = some r) : (k, r) ∈ registerIndices := by
  unfold regOfIndex at h
  split at h <;> cases h <;> decide

theorem regOfIndex_injective {j k : Nat} {r : Reg} (hj : regOfIndex j = some r) (hk : regOfIndex k = some r) : j = k := by
  have hall : ∀ p ∈ registerIndices, ∀ q ∈ registerIndices, p.2 = q.2 → p.1 = q.1 := by decide
  exact hall _ (mem_of_regOfIndex hj) _ (mem_of_regOfIndex hk) rfl

theorem regOfIndex_pc_iff {k : Nat} {r : Reg} (h : regOfIndex k = some r) : r = .pc ↔ k = 0 := by
  have hall : ∀ p ∈ registerIndices, p.2 = .pc ↔ p.1 = 0 := by decide
  exact hall _ (mem_of_regOfIndex h)

theorem indexInDomain_iff (v : Variant) (k : Nat) : indexInDomain v k = true ↔ k < 4 ∨ v = .os ∧ k < 9 := by
  cases v <;> simp [indexInDomain] <;> omega

/-- The index without a register of the register file is that of register `I`. -/
theorem regOfIndex_eq_none_iff {v : Variant} {k : Nat} (hk : indexInDomain v k = true) : regOfIndex k = none ↔ k = 8 := by
  have hlt : k < 9 := by
    have := (indexInDomain_iff v k).1 hk
    omega
  clear hk
  revert k
  decide

section Accessors

variable {s : State} {j k : Nat} {r : Reg}

theorem getRegister_of_reg (hk : indexInDomain s.config.variant k = true) (hr : regOfIndex k = some r) :
    getRegister s k = some (val s r) := by
  simp only [getRegister, hk, hr, if_true]

theorem getRegister_of_fetchReg (hk : indexInDomain s.config.variant k = true) (hr : regOfIndex k = none) :
    getRegister s k = some s.fetchReg.toInt := by
  simp only [getRegister, hk, hr, if_true]

theorem getRegister_outside (hk : indexInDomain s.config.variant k = false) : getRegister s k = none := by
  simp [getRegister, hk]

theorem setRegister_of_reg (hk : indexInDomain s.config.variant k = true) (hr : regOfIndex k = some r) (z : Int) :
    setRegister s k z = writeReg s r (wrap z) := by
  simp only [setRegister, hk, hr, if_true]

theorem setRegister_of_fetchReg (hk : indexInDomain s.config.variant k = true) (hr : regOfIndex k = none) (z : Int) :
    setRegister s k z = setFetchReg (wrap z) s := by
  simp only [setRegister, hk, hr, if_true, setFetchReg]

theorem setRegister_outside (hk : indexInDomain s.config.variant k = false) (z : Int) : setRegister s k z = s := by
  simp [setRegister, hk]

theorem readReg_setFetchReg (v : Word) (s : State) (q : Reg) : readReg (setFetchReg v s) q = readReg s q :=
  (setFetchReg_unseenOs v).readReg s q

/-- A host write reaches registers only (`45_step_and_interface.md` R289). -/
theorem setRegister_frame (s : State) (k : Nat) (z : Int) :
    (setRegister s k z).mem = s.mem ∧ (setRegister s k z).returnStack = s.returnStack ∧
      (setRegister s k z).inIsr = s.inIsr ∧ SameIo s (setRegister s k z) := by
  obtain ⟨r, -, -, h⟩ | ⟨-, -, h⟩ | ⟨-, h⟩ := setRegister_cases s k z <;> simp [h, SameIo]

theorem val_writeReg_same (s : State) (r : Reg) (v : Word) :
    val (writeReg s r v) r = if r = .pc then (v.toNat : Int) else v.toInt := by
  unfold val
  split
  next h => subst h; rfl
  next => rw [readReg_writeReg_same]

theorem val_writeReg_ne (s : State) (v : Word) {q : Reg} (h : q ≠ r) : val (writeReg s r v) q = val s q := by
  unfold val
  split
  next hq => subst hq; rw [writeReg_pc_ne s r v (Ne.symm h)]
  next => rw [readReg_writeReg_ne s r q v h]

theorem toNat_wrap (z : Int) : ((wrap z).toNat : Int) = z % 2 ^ 32 := by
  rw [wrap, BitVec.toNat_ofInt, Int.toNat_of_nonneg (Int.emod_nonneg _ (by decide))]
  rfl

theorem toInt_wrap (z : Int) : (wrap z).toInt = Int.bmod z (2 ^ 32) :=
  BitVec.toInt_ofInt ..

/-- The value written is read back reduced to 32 bits, PC unsigned. -/
theorem getRegister_setRegister_same (hk : indexInDomain s.config.variant k = true) (z : Int) :
    getRegister (setRegister s k z) k = some (if k = 0 then z % 2 ^ 32 else Int.bmod z (2 ^ 32)) := by
  have hk' : indexInDomain (setRegister s k z).config.variant k = true := by rwa [setRegister_config]
  cases hr : regOfIndex k with
  | some r =>
    rw [getRegister_of_reg hk' hr, setRegister_of_reg hk hr, val_writeReg_same, toNat_wrap, toInt_wrap]
    simp only [regOfIndex_pc_iff hr]
  | none =>
    have h8 := (regOfIndex_eq_none_iff hk).1 hr
    rw [getRegister_of_fetchReg hk' hr, setRegister_of_fetchReg hk hr, if_neg (by omega), ← toInt_wrap]
    rfl

theorem getRegister_setRegister_ne (hk : indexInDomain s.config.variant k = true) (z : Int) (hj : j ≠ k) :
    getRegister (setRegister s k z) j = getRegister s j := by
  have hconfig := setRegister_config s k z
  cases hd : indexInDomain s.config.variant j with
  | false => rw [getRegister_outside hd, getRegister_outside (by rwa [hconfig])]
  | true =>
    have hd' : indexInDomain (setRegister s k z).config.variant j = true := by rwa [hconfig]
    cases hq : regOfIndex j with
    | some q =>
      rw [getRegister_of_reg hd hq, getRegister_of_reg hd' hq]
      cases hr : regOfIndex k with
      | some r =>
        rw [setRegister_of_reg hk hr, val_writeReg_ne]
        rintro rfl
        exact hj (regOfIndex_injective hq hr)
      | none => rw [setRegister_of_fetchReg hk hr, (setFetchReg_unseenOs _).val]
    | none =>
      rw [getRegister_of_fetchReg hd hq, getRegister_of_fetchReg hd' hq]
      cases hr : regOfIndex k with
      | some r => rw [setRegister_of_reg hk hr, writeReg_fetchReg]
      | none => exact absurd (((regOfIndex_eq_none_iff hd).1 hq).trans ((regOfIndex_eq_none_iff hk).1 hr).symm) hj

end Accessors

/-! ## Register I is overwritten -/

theorem step_of_fetch_error {s : State} {e : Fault} (hs : ∀ c, s.status ≠ .faulted c) (hp : validPC s = true)
    (hf : fetch s = .error e) : step s = .fault e := by
  unfold step
  split
  next c hc => exact absurd hc (hs c)
  next => simp [hp, hf]

/-- No OS instruction sees register `I`, INT and RTI included. -/
theorem exec_setFetchReg {i : Instr} (hv : i.variant = .os) (v : Word) (s : State) :
    exec i (setFetchReg v s) = mapNext (setFetchReg v) (exec i s) := by
  by_cases hint : ∃ k, i = .osInt k
  · obtain ⟨k, rfl⟩ := hint
    rfl
  by_cases hrti : i = .osRti
  · subst hrti
    cases hstack : s.returnStack with
    | cons e rest => rw [exec_osRti_of_cons hstack, exec_osRti_of_cons (s := setFetchReg v s) hstack]; rfl
    | nil => rw [exec_osRti_of_nil hstack, exec_osRti_of_nil (s := setFetchReg v s) hstack]; rfl
  exact (setFetchReg_unseenOs v).exec_os hv (fun k hk => hint ⟨k, hk⟩) hrti s

theorem fetch_setFetchReg {s : State} (hv : s.config.variant = .os) (v : Word) :
    fetch (setFetchReg v s) = (fetch s).map fun p => (p.1, setFetchReg v p.2) := by
  rw [fetch_os hv, fetch_os (s := setFetchReg v s) hv]
  exact (setFetchReg_unseenOs v).read s s.pc

theorem commit_setFetchReg {t : State} (hv : t.config.variant = .os) (w v : Word) :
    commit w (setFetchReg v t) = commit w t := by
  simp only [commit, setFetchReg, hv]

/-- The commit of an OS step overwrites register `I` (`10_state.md` R35). -/
theorem step_setFetchReg {s : State} (hv : s.config.variant = .os) (hs : ∀ c, s.status ≠ .faulted c)
    (hp : validPC s = true) (v : Word) : step (setFetchReg v s) = step s := by
  have hfetch := fetch_setFetchReg hv v
  cases hf : fetch s with
  | error e =>
    rw [hf] at hfetch
    rw [step_of_fetch_error hs hp hf, step_of_fetch_error (s := setFetchReg v s) hs hp hfetch]
  | ok p =>
    obtain ⟨w, s1⟩ := p
    rw [hf] at hfetch
    cases hd : decode s.config.variant w with
    | error e => rw [step_of_reserved hs hp hf hd, step_of_reserved (s := setFetchReg v s) hs hp hfetch hd]
    | ok i =>
      have hi : i.variant = .os := (decode_variant _ w i hd).trans hv
      rw [step_of_decode hs hp hf hd, step_of_decode (s := setFetchReg v s) hs hp hfetch hd, exec_setFetchReg hi]
      cases hx : exec i s1 with
      | next t =>
        have ht : t.config.variant = .os := by rw [(exec_frame hx).left, fetch_config hf, hv]
        exact congrArg Host.Outcome.next (commit_setFetchReg ht w v)
      | fault e => rfl
      | refused r => rfl

/-- Settles O55: an index in the domain names a register of the register file or register `I`, and the host reads and
writes that one. -/
theorem registerAccessors : Obligations.RegisterAccessors := by
  intro s k z
  refine ⟨fun hk => ?_, indexInDomain_iff _ k, fun hk => ⟨getRegister_outside hk, setRegister_outside hk z⟩,
    fun hv hs hp => ?_⟩
  · obtain ⟨hmem, hstack, hisr, hio⟩ := setRegister_frame s k z
    refine ⟨?_, fun h8 => ?_, getRegister_setRegister_same hk z, fun j => getRegister_setRegister_ne hk z, hmem, hstack,
      hisr, setRegister_status s k z, setRegister_config s k z, hio⟩
    · rintro ⟨_, r⟩ hmember rfl
      have hr := regOfIndex_of_mem hmember
      rw [getRegister_of_reg hk hr, setRegister_of_reg hk hr]
      refine ⟨?_, readReg_writeReg_same s r _, fun q hq => readReg_writeReg_ne s r q _ hq, writeReg_fetchReg s r _⟩
      simp only [val, regOfIndex_pc_iff hr]
    · have hr := (regOfIndex_eq_none_iff hk).2 h8
      rw [getRegister_of_fetchReg hk hr, setRegister_of_fetchReg hk hr]
      exact ⟨rfl, rfl, readReg_setFetchReg _ s⟩
  · have hk : indexInDomain s.config.variant 8 = true := (indexInDomain_iff _ 8).2 (.inr ⟨hv, by decide⟩)
    rw [setRegister_of_fetchReg hk rfl]
    exact step_setFetchReg hv hs hp _

/-! ## Memory accessors -/

section Memory

variable {s : State} {a : Nat}

theorem toNat_ofNat_word (ha : a < 2 ^ 32) : (BitVec.ofNat 32 a : Word).toNat = a := by
  rw [BitVec.toNat_ofNat, Nat.mod_eq_of_lt ha]

theorem device_ofNat_ram (ha : a < 2 ^ 32) (h : 2 ^ 31 ≤ a) : device (BitVec.ofNat 32 a) = .ram :=
  (device_ram_iff _).2 (by rwa [toNat_ofNat_word ha])

theorem device_ofNat_io (hlo : 2 ^ 30 ≤ a) (hhi : a < 2 ^ 31) : device (BitVec.ofNat 32 a) = .io :=
  (device_io_iff _).2 (by rw [toNat_ofNat_word (by omega)]; exact ⟨hlo, hhi⟩)

theorem device_ofNat_rom (h : a < 2 ^ 30) : device (BitVec.ofNat 32 a) = .rom :=
  (device_rom_iff _).2 (by rwa [toNat_ofNat_word (by omega)])

/-- The data cells: all of the TI data region, and OS RAM (`45_step_and_interface.md` R291). -/
theorem readMem_of_cell (ha : a < 2 ^ 32) (h : s.config.variant = .ti ∨ 2 ^ 31 ≤ a) :
    readMem s a = some (Memory.read s.mem a) := by
  cases hv : s.config.variant with
  | ti => simp only [readMem, if_pos ha, hv]
  | os =>
    have hram := device_ofNat_ram ha (h.resolve_left (by rw [hv]; decide))
    simp only [readMem, if_pos ha, hv, hram]

theorem writeMem_of_cell (ha : a < 2 ^ 32) (h : s.config.variant = .ti ∨ 2 ^ 31 ≤ a) (w : Word) :
    writeMem s a w = some { s with mem := Memory.write s.mem a w } := by
  cases hv : s.config.variant with
  | ti => simp only [writeMem, if_pos ha, hv]
  | os =>
    have hram := device_ofNat_ram ha (h.resolve_left (by rw [hv]; decide))
    simp only [writeMem, if_pos ha, hv, hram]

theorem readMem_os_io (hv : s.config.variant = .os) (hlo : 2 ^ 30 ≤ a) (hhi : a < 2 ^ 31) : readMem s a = none := by
  have ha : a < 2 ^ 32 := by omega
  simp only [readMem, if_pos ha, hv, device_ofNat_io hlo hhi]

theorem readMem_os_rom (hv : s.config.variant = .os) (h : a < 2 ^ 30) :
    readMem s a = romWord s.config (BitVec.ofNat 32 a) := by
  have ha : a < 2 ^ 32 := by omega
  simp only [readMem, if_pos ha, hv, device_ofNat_rom h]

theorem writeMem_os_refused (hv : s.config.variant = .os) (h : a < 2 ^ 31) (w : Word) : writeMem s a w = none := by
  rw [Option.eq_none_iff_forall_ne_some]
  intro t ht
  obtain ⟨ha, -, hram⟩ := writeMem_cases ht
  have := (device_ram_iff _).1 (hram hv)
  rw [toNat_ofNat_word ha] at this
  omega

theorem readMem_write_same (hwf : Memory.wf s.mem = true) (ha : a < 2 ^ 32) (h : s.config.variant = .ti ∨ 2 ^ 31 ≤ a)
    (w : Word) : readMem { s with mem := Memory.write s.mem a w } a = some w := by
  have hread := readMem_of_cell (s := { s with mem := Memory.write s.mem a w }) ha h
  rwa [memory_read_write_same s.mem hwf a w] at hread

theorem readMem_write_other (s : State) (a : Nat) (w : Word) {b : Nat} (hb : b ≠ a) :
    readMem { s with mem := Memory.write s.mem a w } b = readMem s b := by
  simp only [readMem, memory_read_write_other s.mem a b w hb]

/-- Settles O56: the ranges are the data cells, the I/O window and ROM. -/
theorem memoryAccessors : Obligations.MemoryAccessors := by
  intro s a w hwf ha
  refine ⟨fun hcell => ⟨readMem_of_cell ha hcell, _, writeMem_of_cell ha hcell w, ?_,
    fun b => readMem_write_other s a w, readReg_setMem s _, ?_, rfl, rfl, rfl⟩,
    fun hv h => writeMem_os_refused hv h w, readMem_os_io, fun hv h => ?_⟩
  · exact readMem_write_same hwf ha hcell w
  · exact ⟨fun r _ _ => readReg_setMem s _ r, rfl, rfl, rfl, rfl, rfl⟩
  · rw [readMem_os_rom hv h, romWord_eq, toNat_ofNat_word ha]

end Memory

/-! ## Call introspection -/

/-- A read that the host can make has no effect (`45_step_and_interface.md` R291). -/
theorem osMemRead_of_readMem {s : State} {a w : Word} (hv : s.config.variant = .os) (h : readMem s a.toNat = some w) :
    osMemRead s a = .ok (w, s) := by
  simp only [readMem, if_pos a.isLt, hv, BitVec.ofNat_toNat, BitVec.setWidth_eq] at h
  cases hd : device a with
  | rom => rw [hd] at h; exact osMemRead_of_romWord hd h
  | io => rw [hd] at h; cases h
  | ram => rw [hd] at h; cases h; exact osMemRead_of_ram hd

/-- Where the instruction at the program counter is known, the next step fetches and decodes it. -/
theorem fetch_of_currentInstr {s : State} {i : Instr} (h : currentInstr s = some i) :
    (∀ c, s.status ≠ .faulted c) ∧ validPC s = true ∧
      ∃ w, fetch s = .ok (w, s) ∧ decode s.config.variant w = .ok i := by
  unfold currentInstr at h
  split at h
  · cases h
  next hs =>
    refine ⟨hs, ?_⟩
    split at h
    next hp =>
      refine ⟨hp, ?_⟩
      dsimp only at h
      split at h
      next w hw =>
        refine ⟨w, ?_, ?_⟩
        · cases hv : s.config.variant with
          | ti => rw [hv] at hw; cases hw; exact fetch_ti hv
          | os => rw [hv] at hw; rw [fetch_os hv]; exact osMemRead_of_readMem hv hw
        · split at h
          next j hj => cases h; exact hj
          next => cases h
      next => cases h
    next => cases h

theorem compute_of_computeTarget {s : State} {f : AluFn} {b : Int} {a : Word} (h : computeTarget s f b = some a) :
    compute f .pc b s = .next (writeBack .pc a s) := by
  unfold computeTarget at h
  split at h
  next r hr => cases h; exact compute_of_ok hr
  next => cases h

/-- A read outside the I/O window has no effect (`20_memory.md` R63). -/
theorem osMemRead_state_of_not_io {s s1 : State} {a m : Word} (hd : device a ≠ .io) (h : osMemRead s a = .ok (m, s1)) :
    s1 = s := by
  obtain ⟨-, -, rfl⟩ | ⟨p, hio, -⟩ | ⟨-, -, rfl⟩ := osMemRead_cases h
  · rfl
  · exact absurd hio hd
  · rfl

/-- The target is what the instruction writes to the program counter. -/
theorem exec_of_callTarget {s : State} {a : Word} (h : callTarget s = some a) :
    isCallInstruction s = true ∧ ∃ i, currentInstr s = some i ∧ exec i s = .next (writeBack .pc a s) := by
  have hcall : isCallInstruction s = true := by
    by_contra hno
    simp [callTarget, hno] at h
  refine ⟨hcall, ?_⟩
  cases hi : currentInstr s with
  | none => simp [callTarget, hi] at h
  | some i =>
    refine ⟨i, rfl, ?_⟩
    simp only [callTarget, hcall, if_true, hi] at h
    simp only [isCallInstruction, hi] at hcall
    cases hshape : callShape i with
    | jump c n =>
      simp only [hshape, Bool.and_eq_true, Option.some.injEq] at h hcall
      rw [exec_of_jump hshape, if_pos hcall.left, h]
      rfl
    | move r d =>
      simp only [hshape, decide_eq_true_eq, Option.some.injEq] at h hcall
      rw [exec_of_move hshape, hcall, moveReg, h]
    | computeImm f d b =>
      simp only [hshape, decide_eq_true_eq] at h hcall
      rw [exec_of_computeImm hshape, hcall, compute_of_computeTarget h]
    | computeTiMem f d n =>
      simp only [hshape, decide_eq_true_eq] at h hcall
      rw [exec_of_computeTiMem hshape, hcall]
      exact compute_of_computeTarget h
    | computeOsMem f d n =>
      simp only [hshape, decide_eq_true_eq] at h hcall
      rw [exec_of_computeOsMem hshape, hcall]
      split at h
      next => cases h
      next m s1 hread hnotIo =>
        cases osMemRead_state_of_not_io hnotIo hread
        rw [computeOsMem_of_read hread, compute_of_computeTarget h]
      next => cases h
    | computeReg f d r =>
      simp only [hshape, decide_eq_true_eq] at h hcall
      rw [exec_of_computeReg hshape, hcall, compute_of_computeTarget h]
    | other => simp [hshape] at h

/-- Settles O57: the step runs the instruction that the introspection reads. -/
theorem callTargetIsNextPc : Obligations.CallTargetIsNextPc := by
  intro s a h
  obtain ⟨hcall, i, hi, hx⟩ := exec_of_callTarget h
  obtain ⟨hs, hp, w, hf, hd⟩ := fetch_of_currentInstr hi
  refine ⟨hcall, commit w (writeBack .pc a s), ?_, commit_status _ _, ?_⟩
  · rw [step_of_decode hs hp hf hd, hx]
    rfl
  · rw [commit_pc, writeBack_pc, if_pos rfl]

/-! ## The word placed for the next fetch -/

theorem setWordAt_getElem? (ws : List Word) (n : Nat) (w : Word) : (setWordAt ws n w)[n]? = some w := by
  induction ws, n, w using setWordAt.induct with
  | case1 w => rfl
  | case2 n w ih => exact ih
  | case3 w x rest => rfl
  | case4 w x rest n ih => exact ih

theorem lt_setWordAt_length (ws : List Word) (n : Nat) (w : Word) : n < (setWordAt ws n w).length :=
  (List.getElem?_eq_some_iff.1 (setWordAt_getElem? ws n w)).1

/-- The program with `w` placed at `a` has it there. -/
theorem programWords_placeRomWord (c : Config) (a w : Word) :
    (placeRomWord c a w).codeBase.toNat ≤ a.toNat ∧
      (programWords (placeRomWord c a w))[a.toNat - (placeRomWord c a w).codeBase.toNat]? = some w := by
  unfold placeRomWord
  dsimp only
  split
  next => simp [programWords]
  next hlo =>
    split
    next =>
      refine ⟨Nat.le_of_not_lt hlo, ?_⟩
      rw [programWords, List.getElem?_append_left (lt_setWordAt_length ..), setWordAt_getElem?]
    next h =>
      have hlen : c.code.length ≤ a.toNat - c.codeBase.toNat := by
        by_contra hlt
        exact h (.inl (Nat.lt_of_not_le hlt))
      refine ⟨Nat.le_of_not_lt hlo, ?_⟩
      rw [programWords, List.getElem?_append_right hlen, setWordAt_getElem?]

theorem placeRomWord_variant (c : Config) (a w : Word) : (placeRomWord c a w).variant = c.variant := by
  unfold placeRomWord
  dsimp only
  split
  · rfl
  · split <;> rfl

theorem readReg_placeWord (s : State) (w : Word) (r : Reg) : readReg (placeWord s w) r = readReg s r := by
  unfold placeWord
  split
  · cases r <;> rfl
  · split <;> cases r <;> rfl

theorem placeWord_status (s : State) (w : Word) : (placeWord s w).status = .running := by
  unfold placeWord
  split
  · rfl
  · split <;> rfl

theorem placeWord_pc (s : State) (w : Word) : (placeWord s w).pc = s.pc := readReg_placeWord s w .pc

/-- The program counter is in the program where the program has a word there (`10_state.md` R40). -/
theorem validPC_of_program {s : State} {w : Word} (hv : s.config.variant = .os)
    (hlo : s.config.codeBase.toNat ≤ s.pc.toNat)
    (hw : (programWords s.config)[s.pc.toNat - s.config.codeBase.toNat]? = some w) : validPC s = true := by
  have hlt := (List.getElem?_eq_some_iff.1 hw).1
  have hhi : s.pc.toNat < s.config.codeBase.toNat + (programWords s.config).length := by omega
  simp [validPC, hv, hlo, hhi]

section Place

variable {s : State} (w : Word)

theorem placeWord_ti (hv : s.config.variant = .ti) :
    validPC (placeWord s w) = true ∧ fetch (placeWord s w) = .ok (w, placeWord s w) := by
  have hconfig : (placeWord s w).config = { s.config with code := setWordAt s.config.code s.pc.toNat w } := by
    simp only [placeWord, hv]
  have hv' : (placeWord s w).config.variant = .ti := by rw [hconfig, hv]
  rw [validPC_ti hv', fetch_ti hv', placeWord_pc, hconfig]
  refine ⟨lt_setWordAt_length .., ?_⟩
  rw [List.getD_eq_getElem?_getD, setWordAt_getElem?, Option.getD_some]

theorem placeWord_rom (hv : s.config.variant = .os) (hd : device s.pc = .rom) :
    validPC (placeWord s w) = true ∧ fetch (placeWord s w) = .ok (w, placeWord s w) := by
  have hconfig : (placeWord s w).config = placeRomWord s.config s.pc w := by simp only [placeWord, hv, hd]
  have hv' : (placeWord s w).config.variant = .os := by rw [hconfig, placeRomWord_variant, hv]
  obtain ⟨hlo, hw⟩ := programWords_placeRomWord s.config s.pc w
  rw [← hconfig, ← placeWord_pc s w] at hlo hw
  refine ⟨validPC_of_program hv' hlo hw, ?_⟩
  rw [fetch_os hv']
  exact osMemRead_of_romWord ((placeWord_pc s w).symm ▸ hd) (romWord_of_program hlo hw)

theorem placeWord_ram (hwf : Memory.wf s.mem = true) (hv : s.config.variant = .os) (hd : device s.pc = .ram) :
    validPC (placeWord s w) = true ∧ fetch (placeWord s w) = .ok (w, placeWord s w) := by
  have hconfig : (placeWord s w).config =
      { s.config with widenedPC := { base := s.pc, len := 1 } :: s.config.widenedPC } := by
    simp only [placeWord, hv, hd]
  have hmem : (placeWord s w).mem = Memory.write s.mem s.pc.toNat w := by simp only [placeWord, hv, hd]
  have hv' : (placeWord s w).config.variant = .os := by rw [hconfig, hv]
  refine ⟨?_, ?_⟩
  · simp [validPC, hconfig, hv, placeWord_pc, inRange]
  · rw [fetch_os hv', placeWord_pc, osMemRead_of_ram hd, hmem, memory_read_write_same s.mem hwf s.pc.toNat w]

end Place

/-- Settles O54: the word goes into the TI code, the OS program or the OS RAM cell, where `Fetch` reads it. -/
theorem fetchWordPlaced : Obligations.FetchWordPlaced := by
  intro s nbits w hwf hio
  have hplaced : validPC (s.withFetchWord nbits w) = true ∧
      fetch (s.withFetchWord nbits w) = .ok (BitVec.ofNat 32 (w % 2 ^ nbits), s.withFetchWord nbits w) := by
    cases hv : s.config.variant with
    | ti => exact placeWord_ti _ hv
    | os =>
      cases hd : device s.pc with
      | rom => exact placeWord_rom _ hv hd
      | io => exact absurd hd (hio hv)
      | ram => exact placeWord_ram _ hwf hv hd
  exact ⟨hplaced.left, hplaced.right, placeWord_status s _, readReg_placeWord s _⟩

end Sys2Proof.Machine
end
